-- ==== Sys2Proof/Word.lean ====
section
/-! DEFINITION. The words of RHB: bytes, register addresses, identifiers and command words
(spec/00_scope.md rules R8, R9, R11; spec/30_encoding.md rule R101). -/

namespace Sys2Proof

/-- A `Byte` is 8 bits unsigned (R11). A channel number is one too (R8, `CHAN_BITS`). -/
abbrev Byte := BitVec 8

/-- A chip register address. `ADDR_BITS` is at most 8 (R9), so 8 bits hold every address. Which of the 256 values are
addresses of the chip at hand is `ChipParams.isReg`. -/
abbrev RegAddr := BitVec 8

/-- The 32-bit network identifier (R8, `ID_BITS`). -/
abbrev Ident := BitVec 32

/-- A command word (R101). -/
abbrev CmdWord := BitVec 40

/-- `FRAME_LEN` (R8): bytes read from the FIFO by one `read_frame`. -/
abbrev frameLen : Nat := 21

/-- `ID_BYTES` (R8): bytes of the network identifier in the chip. -/
abbrev idBytes : Nat := 4

/-- `OFFSET_MAX` (R8): the clamp of the per-plan offset. -/
abbrev offsetMax : Nat := 9

/-- The byte the block sends while it reads (spec/40_transport_primitives.md R126). -/
abbrev dummyByte : Byte := 0x00#8

end Sys2Proof
end

