-- ==== Sys2Proof/Config.lean ====
section
/-! DEFINITION. What an implementation fixes: the record `ChipParams` (spec/00_scope.md rule R9), the fixture FX of
spec/95_test_vectors.md section 2, and the free values of the model (every `draw` of spec/00_scope.md rule R13 and every
step the peer may take): constants without a body. -/

namespace Sys2Proof

/-- The peer's mode (spec/10_state.md R31): the source's four, and `filled`, the spec's name for FIFO-filled. -/
inductive Mode where
  | idle
  | standby
  | calibrating
  | receiving
  | filled
deriving DecidableEq, Repr, Inhabited

/-- A write-kind transaction (R9): what `RESET_SEQ` and `CAL_TRIGGER_SEQ` are lists of. -/
inductive WriteTx where
  | strobe (s : Byte)
  | wreg (a : RegAddr) (v : Byte)
  | wburst (a : RegAddr) (vs : List Byte)
deriving DecidableEq, Repr, Inhabited

/-- The chip constants no source gives (R9), one field each, in the order of the rule's table. `CMD_WR` and `CMD_RD` are
tables over all 256 values of `RegAddr`, of which the first `2^ADDR_BITS` entries count. The types carry two clauses of
R10: `CRC_BIT ≤ 7` (f) and the shape 16 × 16 of `HOP_TABLE` (h). DEDUCED, log 2. -/
structure ChipParams where
  addrBits : Nat
  cmdWr : Vector Byte 256
  cmdRd : Vector Byte 256
  strobeStandby : Byte
  strobeRstRdptr : Byte
  strobeRx : Byte
  resetSeq : List WriteTx
  regTable : List (RegAddr × Option Byte)
  calTriggerSeq : List WriteTx
  calPollReg : RegAddr
  calBusyMask : Byte
  calStatusRegs : List RegAddr
  trim1 : RegAddr × Byte
  trim2 : RegAddr × Byte
  idReg : RegAddr
  channelReg : RegAddr
  statusReg : RegAddr
  crcBit : Fin 8
  fifoReg : RegAddr
  hopTable : Vector (Vector Byte 16) 16
  pollLimit : Option Nat
  plainRegs : List RegAddr
deriving DecidableEq, Repr

/-- One choice of the peer at a place where it may step (spec/20_memory.md R80): nothing, `CalDone` (R82), or
`FrameArrive` with the 21 bytes and the Boolean it draws (R84). A step that is not enabled has no effect. -/
inductive PeerMove where
  | stay
  | calDone
  | frameArrive (f : Vector Byte 21) (c : Bool)
deriving DecidableEq, Repr, Inhabited

/-- The occasion of a draw: a step of the peer's own (spec/20_memory.md R80), a strobe's reaction (R81), the calibration
trigger (R82), the soft reset (R88), a read of the pin (R85). Two of them can fall at one place, and then draw apart. -/
inductive Draw where
  | move
  | strobe
  | trigger
  | reset
  | read
deriving DecidableEq, Repr

namespace Config

/-! ### Free values

Each is a constant without a body, applied to the tick at which it is drawn and, where several occasions draw its kind, to
the occasion, so a claim proved of the model holds for every draw (R13). Log 4. -/

/-- A drawn byte (R82, R83, R86); a drawn channel of reception (spec/10_state.md R37, R52). -/
opaque freeByte : Nat → Byte

/-- A drawn peer mode (R81, R82, R204). -/
opaque freeMode : Draw → Nat → Mode

/-- A drawn CRC-failure flag (R81, R52). -/
opaque freeCrc : Draw → Nat → Bool

/-- A drawn level of the data-ready pin (R85). -/
opaque freeReady : Draw → Nat → Bool

/-- A drawn read pointer (R52). -/
opaque freeRdptr : Nat → Nat

/-- Four drawn identifier bytes (R52, R87). -/
opaque freeIdb : Nat → Vector Byte 4

/-- The peer's choice at a tick, once the script in the state is used up (R68, R80). Log 7. -/
opaque freeMove : Nat → PeerMove

/-! ### Power-on draws of the peer (spec/10_state.md R51). Log 5. -/

opaque powerOnMode : Mode
opaque powerOnIdb : Vector Byte 4
opaque powerOnRdptr : Nat
opaque powerOnCrc : Bool
opaque powerOnReady : Bool
opaque powerOnRxChan : Byte

/-! ### The fixture of spec/95_test_vectors.md section 2: not facts about the chip -/

/-- `FXT[r][c] = 20 + 10·c + r` (95_test_vectors.md section 2.2). -/
def fxt : Vector (Vector Byte 16) 16 :=
  ⟨⟨(List.range 16).map fun r =>
    ⟨⟨(List.range 16).map fun c => BitVec.ofNat 8 (20 + 10 * c + r)⟩, by simp⟩⟩, by simp⟩

/-- `FX` (95_test_vectors.md section 2.1). -/
def fx : ChipParams where
  addrBits := 6
  cmdWr := ⟨⟨(List.range 256).map (BitVec.ofNat 8)⟩, by simp⟩
  cmdRd := ⟨⟨(List.range 256).map fun a => BitVec.ofNat 8 a ||| 0x40#8⟩, by simp⟩
  strobeStandby := 0xA0#8
  strobeRstRdptr := 0xF0#8
  strobeRx := 0xC0#8
  resetSeq := [.wreg 0x00#8 0x00#8]
  regTable := [(0x00#8, none), (0x01#8, some 0x42#8), (0x02#8, some 0x00#8), (0x03#8, some 0x14#8),
    (0x04#8, some 0x00#8), (0x05#8, none), (0x06#8, none), (0x07#8, some 0x00#8)]
  calTriggerSeq := [.wreg 0x02#8 0x01#8]
  calPollReg := 0x02#8
  calBusyMask := 0x01#8
  calStatusRegs := [0x22#8]
  trim1 := (0x24#8, 0x13#8)
  trim2 := (0x26#8, 0x3B#8)
  idReg := 0x06#8
  channelReg := 0x0F#8
  statusReg := 0x00#8
  crcBit := 5
  fifoReg := 0x05#8
  hopTable := fxt
  pollLimit := none
  plainRegs := [0x01#8, 0x03#8, 0x04#8, 0x07#8, 0x0F#8, 0x24#8, 0x26#8]

end Config

end Sys2Proof
end

