-- ==== Sys2Proof/Syntax.lean ====
section
/-! DEFINITION. The instructions of RHB: the twelve operations (spec/30_encoding.md rule R100) and the transactions of
the wire, one constructor for each row of spec/opcode_table.json (rules R130 to R134). -/

namespace Sys2Proof

/-- The operation set (R100) and the transactions (R104). `wburst` carries its whole list of data bytes (the table shows
n = 4, "the general form is one command byte then n data bytes"); `rburst4` and `rburst21` are `RBURST` at the two
lengths the block uses. -/
inductive Instr where
  | reset
  | configure
  | setIdentity (id : Ident)
  | getIdentity
  | tune (channel : Byte)
  | rearm
  | pollReady
  | crcFailed
  | readFrame
  | seqLoad (id : Ident)
  | seqChannel
  | advance
  | strobe (s : Byte)
  | wreg (a : RegAddr) (v : Byte)
  | rreg (a : RegAddr)
  | wburst (a : RegAddr) (vs : List Byte)
  | rburst4 (a : RegAddr)
  | rburst21 (a : RegAddr)
deriving DecidableEq, Repr

/-- The names of the twelve operations: the first part of `upos` (spec/10_state.md R25). -/
inductive OpName where
  | reset
  | configure
  | setIdentity
  | getIdentity
  | tune
  | rearm
  | pollReady
  | crcFailed
  | readFrame
  | seqLoad
  | seqChannel
  | advance
deriving DecidableEq, Repr

/-- What is handed to the block to run: a command word of the caller (R101), or the bytes of one transaction as they
stand on the wire (R104). Only the host's placing of a table row makes a `frame`: no caller issues one (R260). DESIGN
CHOICE, log 9. -/
inductive Request where
  | command (w : CmdWord)
  | frame (bytes : List Byte)
deriving DecidableEq, Repr

/-- Which operation an instruction is; `none` for a transaction. -/
def Instr.opName? : Instr → Option OpName
  | .reset => some .reset
  | .configure => some .configure
  | .setIdentity _ => some .setIdentity
  | .getIdentity => some .getIdentity
  | .tune _ => some .tune
  | .rearm => some .rearm
  | .pollReady => some .pollReady
  | .crcFailed => some .crcFailed
  | .readFrame => some .readFrame
  | .seqLoad _ => some .seqLoad
  | .seqChannel => some .seqChannel
  | .advance => some .advance
  | .strobe _ => none
  | .wreg _ _ => none
  | .rreg _ => none
  | .wburst _ _ => none
  | .rburst4 _ => none
  | .rburst21 _ => none

/-- Whether an instruction is one of the twelve operations the caller issues (R100). -/
def Instr.isOperation (i : Instr) : Bool := i.opName?.isSome

end Sys2Proof
end

