-- ==== Sys2Proof/WellFormed.lean ====
section
/-! DEFINITION. Well-formedness of the parameter record (spec/00_scope.md rule R10, and the types of rule R9) and of
instructions against a record. -/

namespace Sys2Proof

namespace ChipParams

/-- `a` is a register address of this chip: `a < 2^ADDR_BITS` (R9, R60). -/
def isReg (p : ChipParams) (a : RegAddr) : Bool := Nat.blt a.toNat (2 ^ p.addrBits)

/-- The image of a command table on the chip's addresses, as numbers. -/
def image (p : ChipParams) (t : Vector Byte 256) : List Nat := (t.toList.take (2 ^ p.addrBits)).map BitVec.toNat

/-- A list of numbers holds a number. -/
def holds (xs : List Nat) (x : Nat) : Bool := xs.any (Nat.beq x)

/-- No number stands twice in a list. -/
def noRepeat : List Nat → Bool
  | [] => true
  | x :: xs => if holds xs x then false else noRepeat xs

/-- A list of numbers is strictly ascending. -/
def ascending : List Nat → Bool
  | [] => true
  | [_] => true
  | x :: y :: ys => if Nat.blt x y then ascending (y :: ys) else false

/-- `s` is named as a strobe inside a sequence of write-kind transactions (spec/40_transport_primitives.md R130). -/
def namesStrobe (ts : List WriteTx) (s : Byte) : Bool := ts.contains (.strobe s)

/-- `s` is a strobe byte the block may send: one of the three, or one named inside `RESET_SEQ` or `CAL_TRIGGER_SEQ`
(R130). -/
def isStrobe (p : ChipParams) (s : Byte) : Bool :=
  s == p.strobeStandby || s == p.strobeRstRdptr || s == p.strobeRx ||
    namesStrobe p.resetSeq s || namesStrobe p.calTriggerSeq s

/-- A transaction of a sequence addresses registers of the chip, and a burst has at least one byte (R133). -/
def txOk (p : ChipParams) : WriteTx → Bool
  | .strobe _ => true
  | .wreg a _ => p.isReg a
  | .wburst a vs => p.isReg a && !vs.isEmpty

/-- The types of R9: `ADDR_BITS` is 1..8, every `RegAddr` is below `2^ADDR_BITS`, at least one calibration status
register. DEDUCED, log 2. -/
def typesOk (p : ChipParams) : Bool :=
  [Nat.ble 1 p.addrBits, Nat.ble p.addrBits 8,
    [p.calPollReg, p.trim1.1, p.trim2.1, p.idReg, p.channelReg, p.statusReg, p.fifoReg].all p.isReg,
    p.calStatusRegs.all p.isReg, p.plainRegs.all p.isReg,
    p.resetSeq.all p.txOk, p.calTriggerSeq.all p.txOk, !p.calStatusRegs.isEmpty].all id

/-- R10 (a): `CMD_WR` and `CMD_RD` are injective on the chip's addresses. -/
def injectiveOk (p : ChipParams) : Bool :=
  [noRepeat (p.image p.cmdWr), noRepeat (p.image p.cmdRd)].all id

/-- R10 (b): the two images are disjoint. -/
def disjointOk (p : ChipParams) : Bool :=
  (p.image p.cmdWr).all fun b => !holds (p.image p.cmdRd) b

/-- The three strobe bytes of the block, as numbers. -/
def strobes (p : ChipParams) : List Nat :=
  [p.strobeStandby.toNat, p.strobeRstRdptr.toNat, p.strobeRx.toNat]

/-- R10 (c): the three strobe bytes are pairwise distinct and lie in neither image. -/
def strobesOk (p : ChipParams) : Bool :=
  [noRepeat p.strobes, p.strobes.all fun s => !holds (p.image p.cmdWr) s,
    p.strobes.all fun s => !holds (p.image p.cmdRd) s].all id

/-- R10 (d): `REG_TABLE` addresses are strictly ascending and addresses of the chip. -/
def tableOk (p : ChipParams) : Bool :=
  [ascending (p.regTable.map fun e => e.1.toNat), p.regTable.all fun e => p.isReg e.1].all id

/-- R10 (e): `CAL_BUSY_MASK ≠ 0`. -/
def maskOk (p : ChipParams) : Bool := p.calBusyMask != 0#8

/-- R10 (g): the four roles are pairwise distinct. -/
def rolesOk (p : ChipParams) : Bool :=
  noRepeat [p.idReg.toNat, p.fifoReg.toNat, p.channelReg.toNat, p.statusReg.toNat]

/-- The clauses of R10 (a) to (e) and (g), and the types of R9. Clauses (f) and (h) hold by the types of the fields. -/
def wf (p : ChipParams) : Bool :=
  [p.typesOk, p.injectiveOk, p.disjointOk, p.strobesOk, p.tableOk, p.maskOk, p.rolesOk].all id

/-- R10 (i), recommended and not required: no table byte makes the channel subtraction wrap. -/
def noWrap (p : ChipParams) : Bool :=
  p.hopTable.toList.all fun row => row.toList.all fun b => decide (offsetMax + 1 ≤ b.toNat)

end ChipParams

/-- An instruction is well-formed against a record: every operand of an operation is legal (spec/30_encoding.md R108);
a transaction names a strobe of the block or a register of the chip, and a burst write has at least one byte (R130 to
R134). -/
def Instr.wf (p : ChipParams) : Instr → Bool
  | .reset => true
  | .configure => true
  | .setIdentity _ => true
  | .getIdentity => true
  | .tune _ => true
  | .rearm => true
  | .pollReady => true
  | .crcFailed => true
  | .readFrame => true
  | .seqLoad _ => true
  | .seqChannel => true
  | .advance => true
  | .strobe s => p.isStrobe s
  | .wreg a _ => p.isReg a
  | .rreg a => p.isReg a
  | .wburst a vs => p.isReg a && !vs.isEmpty
  | .rburst4 a => p.isReg a
  | .rburst21 a => p.isReg a

end Sys2Proof
end

