-- ==== Sys2Proof/Decode.lean ====
section
/-! DEFINITION. The decoder of command words (spec/30_encoding.md rules R101, R102, R107) and of the frames of the five
transactions (rules R104, R105), total and rejecting by name; then the encoder, from the same tables. -/

namespace Sys2Proof

/-- Why a request is no instruction. The first two are R107's two cases; the others speak of frames, of which a correct
block sends none (R108). -/
inductive Reject where
  /-- the operation code selects no row of R102 -/
  | undefinedOp (op : Byte)
  /-- a defined operation with a bit of `arg` set where its mask requires zero -/
  | operandNotZero (op : Byte)
  /-- a frame without a command byte -/
  | emptyFrame
  /-- a command byte that is neither a strobe alone nor the opening of a register access -/
  | strayCommandByte (b : Byte)
  /-- a read frame whose data bytes are not all the dummy 0x00 (R126) -/
  | dummyNotZero
  /-- a burst read of a length no row of the table has: no instruction, yet a transaction (R134: `n ≥ 1`) -/
  | otherBurst (a : RegAddr) (n : Nat)
deriving DecidableEq, Repr

/-! ### Command words -/

/-- One row of R102: the operation code, the bits of `arg` the mask requires to be zero, and the operation. -/
structure CommandRow where
  op : Byte
  zeroArg : BitVec 32
  build : BitVec 32 → Instr

/-- `match` of the row as R102 prints it. -/
def CommandRow.pattern (r : CommandRow) : CmdWord := r.op ++ 0x00000000#32

/-- `mask` of the row as R102 prints it. -/
def CommandRow.mask (r : CommandRow) : CmdWord := 0xFF#8 ++ r.zeroArg

/-- The mask of an operation without operand. -/
def noOperand : BitVec 32 := 0xFFFFFFFF#32

/-- The table of R102, row by row. -/
def commandRows : List CommandRow :=
  [⟨0x01#8, noOperand, fun _ => .reset⟩,
   ⟨0x02#8, noOperand, fun _ => .configure⟩,
   ⟨0x03#8, 0#32, fun arg => .setIdentity arg⟩,
   ⟨0x04#8, noOperand, fun _ => .getIdentity⟩,
   ⟨0x05#8, 0xFFFFFF00#32, fun arg => .tune (arg.setWidth 8)⟩,
   ⟨0x06#8, noOperand, fun _ => .rearm⟩,
   ⟨0x07#8, noOperand, fun _ => .pollReady⟩,
   ⟨0x08#8, noOperand, fun _ => .crcFailed⟩,
   ⟨0x09#8, noOperand, fun _ => .readFrame⟩,
   ⟨0x10#8, 0#32, fun arg => .seqLoad arg⟩,
   ⟨0x11#8, noOperand, fun _ => .seqChannel⟩,
   ⟨0x12#8, noOperand, fun _ => .advance⟩]

/-- The field `op`, bits 39:32 (R101). -/
def opField (w : CmdWord) : Byte := w.extractLsb' 32 8

/-- The field `arg`, bits 31:0 (R101). -/
def argField (w : CmdWord) : BitVec 32 := w.extractLsb' 0 32

/-- The decoder of command words (R102, R107). -/
def decodeCommand (w : CmdWord) : Except Reject Instr :=
  match commandRows.find? fun r => r.op == opField w with
  | none => .error (.undefinedOp (opField w))
  | some r =>
    if argField w &&& r.zeroArg = 0#32 then .ok (r.build (argField w)) else .error (.operandNotZero (opField w))

/-! ### Frames -/

/-- `CMD_WR(a)` (R9, spec/30_encoding.md R105). -/
def ChipParams.wrByte (p : ChipParams) (a : RegAddr) : Byte := p.cmdWr[a.toNat]

/-- `CMD_RD(a)` (R9, R105). -/
def ChipParams.rdByte (p : ChipParams) (a : RegAddr) : Byte := p.cmdRd[a.toNat]

/-- The register whose entry of a command table is `b`, if any: the least such address of the chip (R105; unique where
R10 (a) holds). -/
def findReg (p : ChipParams) (t : RegAddr → Byte) (b : Byte) : Option RegAddr :=
  ((List.range (2 ^ p.addrBits)).map (BitVec.ofNat 8)).find? fun a => t a == b

/-- A write frame with the data byte `v` and the data bytes after it: one byte is `WREG`, several are `WBURST`; the two
share the form at one byte (R104, R105; log 30). -/
def writeFrame (a : RegAddr) (v : Byte) : List Byte → Instr
  | [] => .wreg a v
  | w :: vs => .wburst a (v :: w :: vs)

/-- A read frame, by the number of dummies: the lengths the table has (R104, R132, R134). `RBURST(a, 1)` has the frame of
`RREG(a)` and is read as `RREG`, so on `ID_REG` its byte is a draw and not `idb[0]` (spec/20_memory.md R87, log 30). -/
def readFrame (a : RegAddr) (ds : List Byte) : Except Reject Instr :=
  if ds.all (· == dummyByte) then
    if ds.length = 1 then .ok (.rreg a)
    else if ds.length = idBytes then .ok (.rburst4 a)
    else if ds.length = frameLen then .ok (.rburst21 a)
    else .error (.otherBurst a ds.length)
  else .error .dummyNotZero

/-- The decoder of frames: the bytes the block sends between `CsAssert` and `CsDeassert`, the command byte first
(R104, R105). A byte alone is a strobe; a longer frame opens with `CMD_WR(a)` or `CMD_RD(a)`. -/
def decodeFrame (p : ChipParams) : List Byte → Except Reject Instr
  | [] => .error .emptyFrame
  | [b] => if p.isStrobe b then .ok (.strobe b) else .error (.strayCommandByte b)
  | b :: d :: ds =>
    match findReg p p.wrByte b with
    | some a => .ok (writeFrame a d ds)
    | none =>
      match findReg p p.rdByte b with
      | some a => readFrame a (d :: ds)
      | none => .error (.strayCommandByte b)

/-- The decoder of requests. -/
def decodeRequest (p : ChipParams) : Request → Except Reject Instr
  | .command w => decodeCommand w
  | .frame bs => decodeFrame p bs

/-! ### The encoder -/

/-- The operation code of R102; 0 for a transaction, which has none. -/
def opCode : Instr → Byte
  | .reset => 0x01#8
  | .configure => 0x02#8
  | .setIdentity _ => 0x03#8
  | .getIdentity => 0x04#8
  | .tune _ => 0x05#8
  | .rearm => 0x06#8
  | .pollReady => 0x07#8
  | .crcFailed => 0x08#8
  | .readFrame => 0x09#8
  | .seqLoad _ => 0x10#8
  | .seqChannel => 0x11#8
  | .advance => 0x12#8
  | .strobe _ => 0#8
  | .wreg _ _ => 0#8
  | .rreg _ => 0#8
  | .wburst _ _ => 0#8
  | .rburst4 _ => 0#8
  | .rburst21 _ => 0#8

/-- The operand of a command word (R101). -/
def argOf : Instr → BitVec 32
  | .setIdentity id => id
  | .tune channel => channel.setWidth 32
  | .seqLoad id => id
  | .reset => 0#32
  | .configure => 0#32
  | .getIdentity => 0#32
  | .rearm => 0#32
  | .pollReady => 0#32
  | .crcFailed => 0#32
  | .readFrame => 0#32
  | .seqChannel => 0#32
  | .advance => 0#32
  | .strobe _ => 0#32
  | .wreg _ _ => 0#32
  | .rreg _ => 0#32
  | .wburst _ _ => 0#32
  | .rburst4 _ => 0#32
  | .rburst21 _ => 0#32

/-- The command word of an operation: `op ++ arg` (R101). -/
def encodeCommand (i : Instr) : CmdWord := opCode i ++ argOf i

/-- The frame of a transaction (R104): the bytes sent, in order; no bytes for an operation. -/
def encodeFrame (p : ChipParams) : Instr → List Byte
  | .strobe s => [s]
  | .wreg a v => [p.wrByte a, v]
  | .rreg a => [p.rdByte a, dummyByte]
  | .wburst a vs => p.wrByte a :: vs
  | .rburst4 a => p.rdByte a :: List.replicate idBytes dummyByte
  | .rburst21 a => p.rdByte a :: List.replicate frameLen dummyByte
  | .reset => []
  | .configure => []
  | .setIdentity _ => []
  | .getIdentity => []
  | .tune _ => []
  | .rearm => []
  | .pollReady => []
  | .crcFailed => []
  | .readFrame => []
  | .seqLoad _ => []
  | .seqChannel => []
  | .advance => []

/-- The words of an instruction: a command word for an operation, a frame for a transaction. -/
def encode (p : ChipParams) (i : Instr) : Request :=
  if i.isOperation then .command (encodeCommand i) else .frame (encodeFrame p i)

/-! ### The table's numbering -/

/-- The bytes of a table row: the row is one number whose leftmost byte, the first on the wire, is the most significant
(spec/opcode_table.json; spec/98_reader.md). DEDUCED, log 10. -/
def bytesOfWord : (nbits : Nat) → (w : Nat) → List Byte
  | nbits, w => (List.range (nbits / 8)).map fun k => BitVec.ofNat 8 (w >>> (8 * (nbits / 8 - 1 - k)))

/-- The request a table word stands for: 40 bits are a command word where they decode as one (R101), else a frame where
they decode as one, else a command word (which is then refused, R107); any other length is a frame. DESIGN CHOICE,
log 10. -/
def requestOfWord (p : ChipParams) (nbits w : Nat) : Request :=
  if nbits = 40 then
    match decodeCommand (BitVec.ofNat 40 w), decodeFrame p (bytesOfWord nbits w) with
    | .error _, .ok _ => .frame (bytesOfWord nbits w)
    | _, _ => .command (BitVec.ofNat 40 w)
  else .frame (bytesOfWord nbits w)

/-- The instruction the decoder reads from a table word, the command bytes of frames being those of the fixture FX, as
in `State.reset` (log 1, log 10). -/
def decodeTableWord (nbits w : Nat) : Option Instr :=
  match decodeRequest Config.fx (requestOfWord Config.fx nbits w) with
  | .ok i => some i
  | .error _ => none

end Sys2Proof
end

