-- ==== Sys2Proof/Machine/State.lean ====
section
/-! DEFINITION. The state of the machine: the block (spec/10_state.md rules R20 to R28), the peer (rules R30 to R38), the
parameter record (spec/00_scope.md rule R9), and the interface to the caller and the environment; the reasons a step can
stop; the state after reset (rules R50, R51; spec/70_reset_and_hazards.md rule R230). -/

namespace Sys2Proof.Machine

/-! ### The block -/

/-- The sequencer registers (R21). -/
structure Seq where
  id : Ident
  cursor : Fin 16
  loaded : Bool
deriving DecidableEq, Repr

/-- Chip-select (R23). -/
inductive CsLevel where
  | inactive
  | active
deriving DecidableEq, Repr

/-- The direction pin (R23): `out` while the block drives the data pin, `inp` (the spec's `in`) while the chip does. -/
inductive PinDir where
  | out
  | inp
deriving DecidableEq, Repr

/-- The line state of the transport (R23). -/
structure Line where
  cs : CsLevel
  dir : PinDir
deriving DecidableEq, Repr

/-- The line between transactions (R23, R125). -/
def Line.quiet : Line := ⟨.inactive, .out⟩

/-- The micro-sequence position (R25): idle, or operation `op` with its transaction number `k` next. -/
inductive Upos where
  | idle
  | running (op : OpName) (k : Nat)
deriving DecidableEq, Repr

/-- The operation a position belongs to. -/
def Upos.op? : Upos → Option OpName
  | .idle => none
  | .running op _ => some op

/-- The faults of spec/60_exceptions.md R200, each with the information that rule records. `callOrder` names no operation
when the strobe is a transaction on its own (log 9). -/
inductive FaultRecord where
  | badCommand (w : CmdWord)
  | seqUnloaded (op : OpName)
  | calStuck (last : Byte)
  | precondReadFrame (mode : Mode) (crcf : Bool) (rdptr : Nat)
  | callOrder (op : Option OpName) (mode : Mode)
deriving DecidableEq, Repr

/-! ### The peer -/

/-- A memory of byte cells keyed by address; an address that is not listed holds no byte the model knows. -/
abbrev Memory := List Host.Cell

/-- The canonical form: addresses strictly rising. (An unlisted address reads as no value, so no listed entry can equal
what an unlisted address reads as.) -/
def Memory.wf (m : Memory) : Bool := decide ((m.map Prod.fst).Pairwise (· < ·))

/-- The peer state (R30), `chan` being `reg[CHANNEL_REG]` (R37) and `rxChan` the channel the last reception listens on
(spec/20_memory.md R89, log 22). -/
structure Peer where
  mode : Mode
  reg : Memory
  idb : Vector Byte 4
  fifo : List Byte
  rdptr : Nat
  filledLen : Nat
  crcf : Bool
  ready : Bool
  rxChan : Byte
  cfgOk : Bool
deriving DecidableEq, Repr

/-! ### The interface -/

/-- The transport events (spec/00_scope.md R12). The returned byte of an exchange is `none` where the block discards it
(the `_` of spec/30_encoding.md R104), log 12. -/
inductive Event where
  | csAssert
  | csDeassert
  | dirIn
  | dirOut
  | xchg (o : Byte) (i : Option Byte)
  | gpioRead (b : Bool)
deriving DecidableEq, Repr

/-- The payload of a response (spec/30_encoding.md R103). -/
inductive Payload where
  | empty
  | bit (b : Bool)
  | word (w : Ident)
  | byte (b : Byte)
  | bytes (bs : List Byte)
deriving DecidableEq, Repr

/-- The response to a command (R103). -/
structure Response where
  status : Byte
  payload : Payload
deriving DecidableEq, Repr

/-- The interface to the caller and the environment: the model's own fields, not hardware. `requests` are the caller's
operations still to issue (log 8); `responses` and `trace` are the outputs, oldest first (log 12); `script` holds the
peer's next choices and `tick` the index of the next free value (log 4, log 7). -/
structure Io where
  requests : List Request
  responses : List Response
  trace : List Event
  script : List PeerMove
  tick : Nat
deriving DecidableEq, Repr

/-! ### The machine -/

/-- The whole state. `polls` is the local of that name of a running `configure` (spec/41_radio_driver.md R153). -/
structure State where
  params : ChipParams
  seq : Seq
  line : Line
  faults : List FaultRecord
  upos : Upos
  polls : Nat
  peer : Peer
  io : Io
deriving DecidableEq, Repr

/-- Why the machine stops with a fault. None of these is a fault of spec/60_exceptions.md R200: those are recorded and the
machine goes on. -/
inductive Fault where
  /-- Raised by the meanings of `WREG`, `RREG`, `WBURST`, `RBURST` standing alone, on an address that is no register of the
  chip (`a ≥ 2^ADDR_BITS`, spec/20_memory.md R60). Safe: the machine stops where no hardware could go on. Log 35. -/
  | noSuchRegister (a : RegAddr)
  /-- Raised by `step` in a micro-sequence position at which no step ends (any but the poll of `configure`). Safe: no run
  reaches it. Log 34. -/
  | noSuchPosition (op : OpName)
deriving DecidableEq, Repr

/-- Why the machine gives no meaning. -/
inductive Refusal where
  /-- Raised by `exec` for an instruction without a meaning: none in this model. Safe. -/
  | notModelled (mnemonic : String)
  /-- Raised by `step`: the parameter record fails a clause of spec/00_scope.md R10 ("a model refuses a record that fails
  any clause"). Safe. Log 3. -/
  | illFormedParams
  /-- Raised by the meaning of `STROBE` standing alone on a byte that is no strobe of the block ("What the chip does with
  any other command byte is outside the spec", spec/30_encoding.md R108). Safe. Log 15. -/
  | strayCommandByte (b : Byte)
  /-- Raised by the meaning of `WBURST` standing alone with no data byte (spec/40_transport_primitives.md R133 has
  `n ≥ 1`). Safe. Log 9. -/
  | emptyBurst
  /-- Raised by `step` on a frame that is no transaction ("What the chip does with any other command byte is outside the
  spec; the block never sends one", spec/30_encoding.md R108). Safe: no caller issues a frame. Log 9. -/
  | strayFrame (why : Reject)
deriving DecidableEq, Repr

namespace State

/-- The state after power-on of block and chip (R50, R51, R230). The parameter record is the fixture FX (log 1); the
identity, which "holds no value", is 0 (log 6); what the peer draws is drawn by `Config` (log 5), the pin
having the level spec/20_memory.md R85 gives it in the modes it speaks of (log 20). -/
def reset : State where
  params := Config.fx
  seq := ⟨0#32, 0, false⟩
  line := Line.quiet
  faults := []
  upos := .idle
  polls := 0
  peer :=
    { mode := Config.powerOnMode
      reg := []
      idb := Config.powerOnIdb
      fifo := []
      rdptr := Config.powerOnRdptr
      filledLen := 0
      crcf := Config.powerOnCrc
      ready :=
        match Config.powerOnMode with
        | .idle => Config.powerOnReady
        | .standby => Config.powerOnReady
        | .calibrating => Config.powerOnReady
        | .receiving => false
        | .filled => true
      rxChan := Config.powerOnRxChan
      cfgOk := false }
  io :=
    { requests := []
      responses := []
      trace := []
      script := []
      tick := 0 }

end State

end Sys2Proof.Machine
end

