-- ==== Sys2Proof/Machine/Flags.lean ====
section
/-! DEFINITION. The conditions sampled on demand (spec/10_state.md R28): the ready pin, the CRC-failure bit of the status
register, the busy bits of the calibration poll register; and the bytes a law leaves partly to a draw. -/

namespace Sys2Proof.Machine

/-- The level of the ready pin in a mode, given the level drawn where the rule fixes none (spec/20_memory.md R85,
log 20). -/
def pinLevel (m : Mode) (drawn : Bool) : Bool :=
  match m with
  | .idle => drawn
  | .standby => drawn
  | .calibrating => drawn
  | .receiving => false
  | .filled => true

/-- The mask of bit `CRC_BIT`: `1 << CRC_BIT` (spec/41_radio_driver.md R160). -/
def crcMask (p : ChipParams) : Byte := 0x01#8 <<< p.crcBit.val

/-- The test of `crc_failed`: `(s AND (1 << CRC_BIT)) ≠ 0` (R160). -/
def crcTest (p : ChipParams) (status : Byte) : Bool := status &&& crcMask p != 0#8

/-- The test of the poll loop: `(p AND CAL_BUSY_MASK) ≠ 0` (spec/41_radio_driver.md R153). -/
def pollBusy (p : ChipParams) (v : Byte) : Bool := v &&& p.calBusyMask != 0#8

/-- A status byte with bit `CRC_BIT` set as `crcf` says and the other seven bits as drawn (spec/20_memory.md R86). -/
def statusAnswer (p : ChipParams) (crcf : Bool) (drawn : Byte) : Byte :=
  if crcf then drawn ||| crcMask p else drawn &&& ~~~crcMask p

/-- A poll byte while calibration runs: any byte with a bit of the mask set (spec/20_memory.md R82): the drawn byte if
it is one, else the drawn byte with the mask's bits set. -/
def busyAnswer (p : ChipParams) (drawn : Byte) : Byte :=
  if pollBusy p drawn then drawn else drawn ||| p.calBusyMask

/-- A poll byte in any other mode: no bit of the mask set, the other bits as drawn (R82). -/
def idleAnswer (p : ChipParams) (drawn : Byte) : Byte := drawn &&& ~~~p.calBusyMask

/-- `POLL_LIMIT = some L` and `polls ≥ L` (spec/41_radio_driver.md R153). -/
def limitReached (p : ChipParams) (polls : Nat) : Bool :=
  match p.pollLimit with
  | none => false
  | some l => decide (l ≤ polls)

end Sys2Proof.Machine
end

