-- ==== Sys2Proof/Machine/Operands.lean ====
section
/-! DEFINITION. Operand and result assembly (spec/30_encoding.md R103, R106; spec/20_memory.md R62) and the arithmetic of
the sequencer (spec/10_state.md R22; spec/42_hop_sequencer.md R184, R185). -/

namespace Sys2Proof.Machine

/-- The four data bytes of an identifier in the order exchanged: `id[31:24]`, `id[23:16]`, `id[15:8]`, `id[7:0]`
(R62). -/
def identBytes (id : Ident) : List Byte :=
  [id.extractLsb' 24 8, id.extractLsb' 16 8, id.extractLsb' 8 8, id.extractLsb' 0 8]

/-- `b0 ++ b1 ++ b2 ++ b3` of the bytes a burst read returned, `b0` first (R62, spec/41_radio_driver.md R156): each byte
below the ones before it. -/
def identOfBytes (bs : List Byte) : Ident :=
  BitVec.ofNat 32 (bs.foldl (fun n b => 256 * n + b.toNat) 0)

/-- `row(id) = id mod 16` (spec/10_state.md R22). -/
def row (id : Ident) : Fin 16 := Fin.ofNat 16 id.toNat

/-- `offset(id) = min(9, (id AND 0xFF) / 16)` (spec/10_state.md R22). -/
def offset (id : Ident) : Nat := min offsetMax ((id &&& 0xFF#32).toNat / 16)

/-- `channel(id, c) = (HOP_TABLE[row(id)][c] − offset(id) − 1) mod 256`, the subtraction on integers
(spec/42_hop_sequencer.md R184). -/
def channel (p : ChipParams) (id : Ident) (c : Fin 16) : Byte :=
  BitVec.ofInt 8 ((p.hopTable[row id][c].toNat : Int) - offset id - 1)

/-- The codes of spec/60_exceptions.md R200. -/
def FaultRecord.code : FaultRecord → Byte
  | .badCommand _ => 0x01#8
  | .seqUnloaded _ => 0x02#8
  | .calStuck _ => 0x03#8
  | .precondReadFrame _ _ _ => 0x80#8
  | .callOrder _ _ => 0x81#8

/-- Whether the block sees the fault and reports it (R200); the others are ghosts. -/
def FaultRecord.detected : FaultRecord → Bool
  | .badCommand _ => true
  | .seqUnloaded _ => true
  | .calStuck _ => true
  | .precondReadFrame _ _ _ => false
  | .callOrder _ _ => false

/-- The response of a successful command: status 0x00 (spec/30_encoding.md R103). -/
def success (payload : Payload) : Response := ⟨0x00#8, payload⟩

/-- The response of a command that ended in a detected fault: its code and an empty payload (R103). -/
def failure (f : FaultRecord) : Response := ⟨f.code, .empty⟩

end Sys2Proof.Machine
end

