-- ==== Sys2Proof/Machine/Ops.lean ====
section
/-! DEFINITION. The operations the meanings share: the register memory of the chip, the steps and reactions of the peer
(spec/20_memory.md R80 to R89), the transport events (spec/00_scope.md R12), the five transactions and the pin read
(spec/40_transport_primitives.md R130 to R135), the micro-sequence position (spec/10_state.md R25), faults and responses
(spec/60_exceptions.md R200, R210; spec/30_encoding.md R103).

A function that depends on a draw keeps the record of State outermost, so that what does not depend on it can still be
read off. -/

namespace Sys2Proof.Machine

/-! ### Register memory -/

/-- The byte of a register, `none` where the model knows none (R83). -/
def Memory.read : Memory → Nat → Option Byte
  | [], _ => none
  | c :: cs, a => if c.1 = a then some c.2 else Memory.read cs a

/-- `reg[a] <- v` (spec/10_state.md R32), keeping the canonical form. -/
def Memory.write : Memory → Nat → Byte → Memory
  | [], a, v => [(a, v)]
  | c :: cs, a, v =>
    if a < c.1 then (a, v) :: c :: cs
    else if a = c.1 then (a, v) :: cs
    else c :: Memory.write cs a v

/-! ### The peer's own steps -/

/-- `chan` is the byte last written to `CHANNEL_REG` (spec/10_state.md R37), `none` where none is known to have been. -/
def Peer.chan (p : ChipParams) (x : Peer) : Option Byte := x.reg.read p.channelReg.toNat

/-- The peer enters a mode, and the ready pin takes the level of that mode (spec/20_memory.md R85, log 20). -/
def Peer.enter (x : Peer) (m : Mode) (drawn : Bool) : Peer :=
  { x with mode := m, ready := pinLevel m drawn }

/-- `CalDone`, enabled exactly in `Calibrating` (spec/20_memory.md R82). -/
def Peer.calDone (x : Peer) (drawn : Bool) : Peer :=
  if x.mode = .calibrating then x.enter .standby drawn else x

/-- `FrameArrive`, enabled exactly in `Receiving` (spec/20_memory.md R84): the bytes are stored from position 0, the rest
of the FIFO and the read pointer keep their values. -/
def Peer.frameArrive (x : Peer) (f : Vector Byte 21) (c : Bool) : Peer :=
  if x.mode = .receiving then
    { x.enter .filled true with fifo := f.toList ++ x.fifo.drop 21, filledLen := 21, crcf := c }
  else x

/-- The peer takes one of its choices (R80). -/
def Peer.move (x : Peer) (m : PeerMove) (drawn : Bool) : Peer :=
  match m with
  | .stay => x
  | .calDone => x.calDone drawn
  | .frameArrive f c => x.frameArrive f c

/-- The peer's choice at the next place where it may step: the script's, else a free value (log 7). -/
def Io.nextMove (io : Io) : PeerMove :=
  match io.script with
  | m :: _ => m
  | [] => Config.freeMove io.tick

/-- One place where the peer may step: before every transport event, and once between operations
(spec/20_memory.md R68; spec/70_reset_and_hazards.md R260). Either of its steps may fall at any place where its mode enables
it: `CalDone` too, outside `configure`, where the peer calibrates there (log 38). -/
def peerTurn (s : State) : State :=
  { s with
    peer := s.peer.move s.io.nextMove (Config.freeReady .move s.io.tick)
    io := { s.io with script := s.io.script.tail, tick := s.io.tick + 1 } }

/-! ### Transport events -/

/-- The line after an event (spec/10_state.md R23). -/
def Line.after (l : Line) : Event → Line
  | .csAssert => { l with cs := .active }
  | .csDeassert => { l with cs := .inactive }
  | .dirIn => { l with dir := .inp }
  | .dirOut => { l with dir := .out }
  | .xchg _ _ => l
  | .gpioRead _ => l

/-- The event is appended to the trace and the line follows (spec/00_scope.md R13). -/
def record (e : Event) (s : State) : State :=
  { s with line := s.line.after e, io := { s.io with trace := s.io.trace ++ [e] } }

/-- `emit e`: the peer may step, then the event happens (R13; spec/20_memory.md R68). -/
def emit (e : Event) (s : State) : State := record e (peerTurn s)

/-- `Xchg(o, _)` with what the peer does at it (R68); the returned byte is discarded (R126). -/
def send (o : Byte) (effect : State → State) (s : State) : State :=
  effect (record (.xchg o none) (peerTurn s))

/-- `Xchg(0x00, v)`: the answer is fixed at the exchange (R68), and what the read does to the peer follows it. -/
def receive (answer : State → Byte) (effect : State → State) (s : State) : Byte × State :=
  (answer (peerTurn s),
    effect (record (.xchg dummyByte (some (answer (peerTurn s)))) (peerTurn s)))

/-! ### Faults, responses, the micro-sequence position -/

/-- A fault added to a set of faults (spec/10_state.md R24). -/
def insertFault (f : FaultRecord) (fs : List FaultRecord) : List FaultRecord :=
  if f ∈ fs then fs else fs ++ [f]

/-- `raise F(info)` (spec/00_scope.md R13). -/
def raise (f : FaultRecord) (s : State) : State := { s with faults := insertFault f s.faults }

/-- `raise F(info)` where a condition holds; a ghost fault changes nothing else (spec/60_exceptions.md R200). -/
def raiseIf (c : Bool) (f : FaultRecord) (s : State) : State :=
  { s with faults := if c then insertFault f s.faults else s.faults }

/-- The position after a finished transaction (spec/10_state.md R25). -/
def Upos.next : Upos → Upos
  | .idle => .idle
  | .running op k => .running op (k + 1)

/-- `upos` advances by one (R25). -/
def advanceUpos (s : State) : State := { s with upos := s.upos.next }

/-- The caller issues an operation: `upos` goes from `idle` to `(op, 0)` (R25). -/
def begin (op : OpName) (s : State) : State := { s with upos := .running op 0 }

/-- The operation returns: the response goes to the caller and `upos` to `idle` (R25, R26, R103). -/
def finish (r : Response) (s : State) : State :=
  { s with upos := .idle, io := { s.io with responses := s.io.responses ++ [r] } }

/-- Fault entry for every detected fault (spec/60_exceptions.md R210): the fault is recorded, the operation ends at once,
the code goes back in the status, nothing is saved and no mode changes. There is no return from it (R211). -/
def failWith (f : FaultRecord) (s : State) : State := finish (failure f) (raise f s)

/-! ### Reactions of the peer at an exchange -/

/-- `STROBE_STANDBY` (spec/20_memory.md R81). -/
def strobeStandby (s : State) : State :=
  { s with
    peer := s.peer.enter (if s.peer.mode = .calibrating then Config.freeMode .strobe s.io.tick else .standby)
      (Config.freeReady .strobe s.io.tick) }

/-- `STROBE_RST_RDPTR` (R81). -/
def strobeRstRdptr (s : State) : State := { s with peer := { s.peer with rdptr := 0 } }

/-- The modes in which R81 lets a receive-arm strobe arm the receiver. -/
def Mode.armable : Mode → Bool
  | .idle => false
  | .calibrating => false
  | .standby => true
  | .receiving => true
  | .filled => true

/-- The condition of `F_CALL_ORDER` (spec/60_exceptions.md R204). -/
def callOrderBroken (x : Peer) : Bool := !x.cfgOk || !Mode.armable x.mode

/-- The channel a reception armed now listens on (R89): `chan`, a draw where its value is unspecified
(spec/10_state.md R37, log 22). -/
def armedChan (s : State) : Byte := (s.peer.chan s.params).getD (Config.freeByte s.io.tick)

/-- `STROBE_RX` (R81, R89, R204; spec/70_reset_and_hazards.md R241): with `F_CALL_ORDER` recorded the mode is a draw
(log 14), else `Receiving`; in the armable modes `filled_len` is 0 and `crcf` a draw; the reception listens on the
channel of this moment (R89, log 22). -/
def strobeRx (s : State) : State :=
  raiseIf (callOrderBroken s.peer) (.callOrder s.upos.op? s.peer.mode)
    { s with
      peer :=
        { s.peer.enter (if callOrderBroken s.peer then Config.freeMode .strobe s.io.tick else .receiving)
            (Config.freeReady .strobe s.io.tick) with
          filledLen := if Mode.armable s.peer.mode then 0 else s.peer.filledLen
          crcf := if Mode.armable s.peer.mode then Config.freeCrc .strobe s.io.tick else s.peer.crcf
          rxChan := armedChan s } }

/-- The reaction to a strobe byte (R81). A byte that is none of the three has no reaction of its own (log 15). -/
def applyStrobe (b : Byte) (s : State) : State :=
  if b = s.params.strobeStandby then strobeStandby s
  else if b = s.params.strobeRstRdptr then strobeRstRdptr s
  else if b = s.params.strobeRx then strobeRx s
  else s

/-- `reg[a] <- v` at the exchange of the data byte (R68, R83). -/
def writeReg (a : RegAddr) (v : Byte) (s : State) : State :=
  { s with peer := { s.peer with reg := s.peer.reg.write a.toNat v } }

/-- Data byte `i` of a burst write: on `ID_REG` it sets `idb[i]` (R87), elsewhere `reg[a]` (R66; log 17). -/
def writeBurstByte (a : RegAddr) (i : Nat) (v : Byte) (s : State) : State :=
  if a = s.params.idReg then
    { s with peer := { s.peer with idb := s.peer.idb.setIfInBounds i v } }
  else writeReg a v s

/-- The trigger's effect at its last exchange (R82); a strobe there reacts first, and this tests the mode after it
(log 36). -/
def startCalibration (s : State) : State :=
  { s with
    peer := s.peer.enter (if s.peer.mode = .standby then .calibrating else Config.freeMode .trigger s.io.tick)
      (Config.freeReady .trigger s.io.tick) }

/-- The soft reset's effect at its last exchange (R88, spec/10_state.md R52): `Idle`, no register known, everything else
of the chip drawn, `cfg_ok` false (log 21, log 25). -/
def softReset (s : State) : State :=
  { s with
    peer :=
      { mode := .idle
        reg := []
        idb := Config.freeIdb s.io.tick
        fifo := []
        rdptr := Config.freeRdptr s.io.tick
        filledLen := 0
        crcf := Config.freeCrc .reset s.io.tick
        ready := Config.freeReady .reset s.io.tick
        rxChan := Config.freeByte s.io.tick
        cfgOk := false } }

/-! ### Answers of the peer -/

/-- The FIFO byte at the read pointer, where R86 fixes one (log 24). -/
def fifoByte (s : State) : Option Byte :=
  if s.peer.mode = .filled ∧ s.peer.crcf = false ∧ s.peer.rdptr < s.peer.filledLen then s.peer.fifo[s.peer.rdptr]?
  else none

/-- A poll byte (R82). -/
def pollAnswer (s : State) : Byte :=
  if s.peer.mode = .calibrating then busyAnswer s.params (Config.freeByte s.io.tick)
  else idleAnswer s.params (Config.freeByte s.io.tick)

/-- The answer to a single read of `a` (R82, R83, R86): a register with a law of its own follows that law, the status
register's last where one address has two roles (log 19); an address of `PLAIN_REGS` gives the byte last written;
anything else is a draw. -/
def answerSingle (a : RegAddr) (s : State) : Byte :=
  if a = s.params.statusReg ∧ s.peer.mode = .filled then
    statusAnswer s.params s.peer.crcf
      (if a = s.params.calPollReg then pollAnswer s else Config.freeByte s.io.tick)
  else if a = s.params.calPollReg then pollAnswer s
  else if a = s.params.fifoReg then (fifoByte s).getD (Config.freeByte s.io.tick)
  else if a ∈ s.params.plainRegs ∧ a ≠ s.params.statusReg ∧ a ≠ s.params.idReg then
    (s.peer.reg.read a.toNat).getD (Config.freeByte s.io.tick)
  else Config.freeByte s.io.tick

/-- The answer to data byte `i` of a burst read: `idb[i]` on `ID_REG` (R87), the FIFO byte on `FIFO_REG` (R86); where
these fix none, and on every other address, as a single read (log 18). Where `ID_REG` is the calibration poll register
too (R82, R10 g), the burst answers `idb[i]` and only a single read the poll byte (log 19). -/
def answerBurst (a : RegAddr) (i : Nat) (s : State) : Byte :=
  if a = s.params.idReg then s.peer.idb[i]?.getD (answerSingle a s)
  else if a = s.params.fifoReg then (fifoByte s).getD (answerSingle a s)
  else answerSingle a s

/-- The answer to a data byte of a burst read that the spec gives as a draw whatever the peer holds (spec/60_exceptions.md
R205, log 37). -/
def answerDrawn (_ : Nat) (s : State) : Byte := Config.freeByte s.io.tick

/-- What a read does to the peer: a data byte read through `FIFO_REG` moves the read pointer by one (R69, R86); no other
read has a side effect (R69; log 19 where the FIFO register is polled). -/
def afterRead (a : RegAddr) (s : State) : State :=
  { s with peer := { s.peer with rdptr := if a = s.params.fifoReg then s.peer.rdptr + 1 else s.peer.rdptr } }

/-! ### The transactions

`last` is what the peer does at its last exchange beyond the transaction's own effect (R82, R88), and after it: the spec
gives no order where both fall at one exchange (log 25, log 36). -/

/-- `STROBE(s)` (spec/40_transport_primitives.md R130); `last` sees the mode the strobe's reaction leaves (log 36). -/
def strobeTx (b : Byte) (last : State → State) (s : State) : State :=
  advanceUpos (emit .csDeassert (last (send b (applyStrobe b) (emit .csAssert s))))

/-- `WREG(a, v)` (R131). -/
def wregTx (a : RegAddr) (v : Byte) (last : State → State) (s : State) : State :=
  advanceUpos (emit .csDeassert (last (send v (writeReg a v)
    (send (s.params.wrByte a) id (emit .csAssert s)))))

/-- The data bytes of a burst write, from byte `i` on (R133). -/
def sendBytes (a : RegAddr) : Nat → List Byte → State → State
  | _, [], s => s
  | i, v :: vs, s => sendBytes a (i + 1) vs (send v (writeBurstByte a i v) s)

/-- `WBURST(a, vs)` (R133). -/
def wburstTx (a : RegAddr) (vs : List Byte) (last : State → State) (s : State) : State :=
  advanceUpos (emit .csDeassert (last (sendBytes a 0 vs
    (send (s.params.wrByte a) id (emit .csAssert s)))))

/-- `RREG(a) -> v` (R132). -/
def rregTx (a : RegAddr) (s : State) : Byte × State :=
  let r := receive (answerSingle a) (afterRead a)
    (emit .dirIn (send (s.params.rdByte a) id (emit .csAssert s)))
  (r.1, advanceUpos (emit .csDeassert (emit .dirOut r.2)))

/-- `n` data bytes of a burst read, from byte `i` on, byte `i` answered by `answer i` (R134). -/
def receiveBytes (answer : Nat → State → Byte) (a : RegAddr) : (n i : Nat) → State → List Byte × State
  | 0, _, s => ([], s)
  | n + 1, i, s =>
    let r := receive (answer i) (afterRead a) s
    let rest := receiveBytes answer a n (i + 1) r.2
    (r.1 :: rest.1, rest.2)

/-- `RBURST(a, n) -> bs` (R134), the peer answering data byte `i` by `answer i`: `answerBurst a`, but in a `read_frame`
whose obligation is broken (R205). -/
def rburstTx (answer : Nat → State → Byte) (a : RegAddr) (n : Nat) (s : State) : List Byte × State :=
  let r := receiveBytes answer a n 0
    (emit .dirIn (send (s.params.rdByte a) id (emit .csAssert s)))
  (r.1, advanceUpos (emit .csDeassert (emit .dirOut r.2)))

/-- A transaction of `RESET_SEQ` or `CAL_TRIGGER_SEQ` (spec/00_scope.md R9). -/
def performTx (t : WriteTx) (last : State → State) (s : State) : State :=
  match t with
  | .strobe b => strobeTx b last s
  | .wreg a v => wregTx a v last s
  | .wburst a vs => wburstTx a vs last s

/-- A sequence of transactions in list order, `last` at the last exchange of the last one (R82, R88). -/
def performAll : List WriteTx → (State → State) → State → State
  | [], _, s => s
  | [t], last, s => performTx t last s
  | t :: u :: ts, last, s => performAll (u :: ts) last (performTx t id s)

/-- The level a read of the pin returns: the pin's in `Receiving` and `Filled`, a draw in the other modes (R85,
log 20). -/
def pinAnswer (s : State) : Bool :=
  match s.peer.mode with
  | .idle => Config.freeReady .read s.io.tick
  | .standby => Config.freeReady .read s.io.tick
  | .calibrating => Config.freeReady .read s.io.tick
  | .receiving => s.peer.ready
  | .filled => s.peer.ready

/-- `GpioRead -> b` (R135): the level is sampled and returned, never latched (spec/10_state.md R28; R69). -/
def gpioTx (s : State) : Bool × State :=
  (pinAnswer (peerTurn s), record (.gpioRead (pinAnswer (peerTurn s))) (peerTurn s))

/-- `MemRead(a, n)` (spec/00_scope.md R13): `RREG(a)` when `n = 1`, `RBURST(a, n)` when `n > 1`. -/
def memRead (a : RegAddr) (n : Nat) (s : State) : List Byte × State :=
  if n = 1 then ([(rregTx a s).1], (rregTx a s).2) else rburstTx (answerBurst a) a n s

/-- `MemWrite(a, n, v)` (R13): `WREG(a, v[0])` when `n = 1`, `WBURST(a, v)` when `n > 1`. -/
def memWrite (a : RegAddr) (vs : List Byte) (s : State) : State :=
  match vs with
  | [v] => wregTx a v id s
  | vs => wburstTx a vs id s

end Sys2Proof.Machine
end

