-- ==== Sys2Proof/Machine/Driver.lean ====
section
/-! DEFINITION. The nine operations of the driver half (spec/41_radio_driver.md rules R150 to R161). Every one answers a
next state; `configure` answers one in which it still polls while the peer calibrates (log 11). -/

namespace Sys2Proof.Machine

/-! ### reset -/

/-- `RESET_SEQ`, and at its last exchange the state of spec/10_state.md R52; with an empty sequence that state at the
operation's end (R150; spec/20_memory.md R88). -/
def resetPeer (s : State) : State :=
  match s.params.resetSeq with
  | [] => softReset (peerTurn s)
  | t :: ts => performAll (t :: ts) softReset s

/-- `reset` (R150): a reset of the chip; `SEQ` and `FAULTS` keep their values. -/
def execReset (s : State) : Host.Outcome State Fault Refusal :=
  .next (finish (success .empty) (resetPeer (begin .reset s)))

/-! ### configure -/

/-- The table phase (R152): a `WREG` for each entry with a byte, in list order; a sentinel entry is skipped, its position
with it (spec/10_state.md R25). An entry is a register write alone, whatever its bytes (log 39). -/
def configureTable : List (RegAddr × Option Byte) → State → State
  | [], s => s
  | (a, some v) :: es, s => configureTable es (wregTx a v id s)
  | (_, none) :: es, s => configureTable es (advanceUpos s)

/-- "enter standby", then "trigger calibration" (R153); `polls <- 0`. -/
def enterCalibration (s : State) : State :=
  { performAll s.params.calTriggerSeq startCalibration (strobeTx s.params.strobeStandby id s) with polls := 0 }

/-- "read back calibration status registers", in list order (R153). -/
def readStatus : List RegAddr → State → List Byte × State
  | [], s => ([], s)
  | a :: rs, s =>
    let r := rregTx a s
    let rest := readStatus rs r.2
    (r.1 :: rest.1, rest.2)

/-- After the poll loop (R153): the status registers, the two trim writes, "return to standby", `cfg_ok <- true`, and the
status bytes as the result. -/
def configureTail (s : State) : State :=
  let r := readStatus s.params.calStatusRegs s
  let t := strobeTx s.params.strobeStandby id
    (wregTx s.params.trim2.1 s.params.trim2.2 id (wregTx s.params.trim1.1 s.params.trim1.2 id r.2))
  finish (success (.bytes r.1)) { t with peer := { t.peer with cfgOk := true }, polls := 0 }

/-- One turn of the poll loop (R153): read the poll register; not busy, go on to the end; busy, count, and either end with
`F_CAL_STUCK` where the limit is reached, `cfg_ok` false (R154; spec/60_exceptions.md R210; log 23), or stay at this
position with the operation still running. -/
def configurePoll (s : State) : State :=
  let r := rregTx s.params.calPollReg s
  if pollBusy s.params r.1 then
    if limitReached s.params (s.polls + 1) then
      failWith (.calStuck r.1) { r.2 with peer := { r.2.peer with cfgOk := false }, polls := 0 }
    else { r.2 with upos := s.upos, polls := s.polls + 1 }
  else configureTail r.2

/-- The transaction number of the poll in `configure`'s list (spec/10_state.md R25): after the table, the standby strobe
and the trigger. -/
def pollPosition (p : ChipParams) : Nat := p.regTable.length + 1 + p.calTriggerSeq.length

/-- `configure` (R151): the table phase, then the calibration phase up to the end of its first poll, and to the end of the
operation unless that poll finds the peer busy (log 11). -/
def execConfigure (s : State) : Host.Outcome State Fault Refusal :=
  .next (configurePoll (enterCalibration (configureTable s.params.regTable (begin .configure s))))

/-! ### The other seven -/

/-- `set_identity ident` (R155). -/
def execSetIdentity (ident : Ident) (s : State) : Host.Outcome State Fault Refusal :=
  .next (finish (success .empty) (wburstTx s.params.idReg (identBytes ident) id (begin .setIdentity s)))

/-- `get_identity` (R156). -/
def execGetIdentity (s : State) : Host.Outcome State Fault Refusal :=
  let r := rburstTx (answerBurst s.params.idReg) s.params.idReg idBytes (begin .getIdentity s)
  .next (finish (success (.word (identOfBytes r.1))) r.2)

/-- `tune channel` (R157): standby, reset read pointer, channel register, receive-arm, in this order
(spec/20_memory.md R74). -/
def execTune (channel : Byte) (s : State) : Host.Outcome State Fault Refusal :=
  .next (finish (success .empty)
    (strobeTx s.params.strobeRx id
      (wregTx s.params.channelReg channel id
        (strobeTx s.params.strobeRstRdptr id
          (strobeTx s.params.strobeStandby id (begin .tune s))))))

/-- `rearm` (R158): reset read pointer, receive-arm. -/
def execRearm (s : State) : Host.Outcome State Fault Refusal :=
  .next (finish (success .empty)
    (strobeTx s.params.strobeRx id (strobeTx s.params.strobeRstRdptr id (begin .rearm s))))

/-- `poll_ready` (R159): one read of the pin, no transaction. -/
def execPollReady (s : State) : Host.Outcome State Fault Refusal :=
  let r := gpioTx (begin .pollReady s)
  .next (finish (success (.bit r.1)) r.2)

/-- `crc_failed` (R160): a fixed bit of the status register. -/
def execCrcFailed (s : State) : Host.Outcome State Fault Refusal :=
  let r := rregTx s.params.statusReg (begin .crcFailed s)
  .next (finish (success (.bit (crcTest s.params r.1))) r.2)

/-- The obligation of `read_frame` at its entry (R161; spec/60_exceptions.md R205). -/
def frameReady (x : Peer) : Bool := x.mode == .filled && !x.crcf

/-- The peer's answers in the burst of a `read_frame` issued in `s`: those of R86, or draws where the obligation is broken at
the entry (spec/60_exceptions.md R205), also where a frame arrives during the burst (log 37). -/
def frameAnswer (s : State) : Nat → State → Byte :=
  if frameReady s.peer then answerBurst s.params.fifoReg else answerDrawn

/-- `read_frame` (R161): a broken obligation is recorded; then the burst of 21. The traffic and the state after it are the
same either way. -/
def execReadFrame (s : State) : Host.Outcome State Fault Refusal :=
  let r := rburstTx (frameAnswer s) s.params.fifoReg frameLen
    (raiseIf (!frameReady s.peer) (.precondReadFrame s.peer.mode s.peer.crcf s.peer.rdptr) (begin .readFrame s))
  .next (finish (success (.bytes r.1)) r.2)

end Sys2Proof.Machine
end

