-- ==== Sys2Proof/Machine/Sequencer.lean ====
section
/-! DEFINITION. The three operations of the sequencer half (spec/42_hop_sequencer.md rules R181 to R183): no transport
event, no effect on the peer. -/

namespace Sys2Proof.Machine

/-- `seq_load id` (R181). -/
def execSeqLoad (id : Ident) (s : State) : Host.Outcome State Fault Refusal :=
  .next (finish (success .empty) { begin .seqLoad s with seq := ⟨id, 0, true⟩ })

/-- `seq_channel` (R182): the channel at the current cursor; before any load, `F_SEQ_UNLOADED`. -/
def execSeqChannel (s : State) : Host.Outcome State Fault Refusal :=
  .next
    (if s.seq.loaded = false then failWith (.seqUnloaded .seqChannel) (begin .seqChannel s)
     else finish (success (.byte (channel s.params s.seq.id s.seq.cursor))) (begin .seqChannel s))

/-- `advance` (R183): the cursor moves by one modulo 16, and the channel returned is that of the new cursor; before any
load, `F_SEQ_UNLOADED` and the cursor stays. -/
def execAdvance (s : State) : Host.Outcome State Fault Refusal :=
  .next
    (if s.seq.loaded = false then failWith (.seqUnloaded .advance) (begin .advance s)
     else finish (success (.byte (channel s.params s.seq.id (s.seq.cursor + 1))))
       { begin .advance s with seq := { s.seq with cursor := s.seq.cursor + 1 } })

end Sys2Proof.Machine
end

