-- ==== Sys2Proof/Machine/Transport.lean ====
section
/-! DEFINITION. The meanings of the six transaction rows of the table (spec/40_transport_primitives.md rules R130 to R134)
standing alone (log 9): the transaction of Machine/Ops.lean, on an operand the rule admits. What a read returns stands in
the trace, in the `Xchg(0x00, v)` events. -/

namespace Sys2Proof.Machine

/-- `STROBE(s)` (R130): `s` is a strobe byte of the block (R108, log 15). -/
def execStrobe (b : Byte) (s : State) : Host.Outcome State Fault Refusal :=
  if s.params.isStrobe b then .next (strobeTx b id s) else .refused (.strayCommandByte b)

/-- `WREG(a, v)` (R131): a register write alone, also where its bytes are those of a sequence of the record (log 39). -/
def execWreg (a : RegAddr) (v : Byte) (s : State) : Host.Outcome State Fault Refusal :=
  if s.params.isReg a then .next (wregTx a v id s) else .fault (.noSuchRegister a)

/-- `RREG(a) -> v` (R132). -/
def execRreg (a : RegAddr) (s : State) : Host.Outcome State Fault Refusal :=
  if s.params.isReg a then .next (rregTx a s).2 else .fault (.noSuchRegister a)

/-- `WBURST(a, vs)` (R133): at least one data byte; no reset and no trigger of its own, as `WREG` (log 39). -/
def execWburst (a : RegAddr) (vs : List Byte) (s : State) : Host.Outcome State Fault Refusal :=
  if vs = [] then .refused .emptyBurst
  else if s.params.isReg a then .next (wburstTx a vs id s) else .fault (.noSuchRegister a)

/-- `RBURST(a, 4) -> bs` (R134). -/
def execRburst4 (a : RegAddr) (s : State) : Host.Outcome State Fault Refusal :=
  if s.params.isReg a then .next (rburstTx (answerBurst a) a idBytes s).2 else .fault (.noSuchRegister a)

/-- `RBURST(a, 21) -> bs` (R134). -/
def execRburst21 (a : RegAddr) (s : State) : Host.Outcome State Fault Refusal :=
  if s.params.isReg a then .next (rburstTx (answerBurst a) a frameLen s).2 else .fault (.noSuchRegister a)

/-- `RBURST(a, n) -> bs` at a length no row of the table has (R134: `n ≥ 1`): no instruction names it, and it runs all the
same where its frame is placed (log 9). -/
def performRburst (a : RegAddr) (n : Nat) (s : State) : Host.Outcome State Fault Refusal :=
  .next (rburstTx (answerBurst a) a n s).2

end Sys2Proof.Machine
end

