-- ==== Sys2Proof/Machine/Dispatch.lean ====
section
/-! DEFINITION. From an instruction to its meaning, one arm per constructor. -/

namespace Sys2Proof.Machine

def exec (i : Instr) (s : State) : Host.Outcome State Fault Refusal :=
  match i with
  | .reset => Sys2Proof.Machine.execReset s
  | .configure => Sys2Proof.Machine.execConfigure s
  | .setIdentity id => Sys2Proof.Machine.execSetIdentity id s
  | .getIdentity => Sys2Proof.Machine.execGetIdentity s
  | .tune channel => Sys2Proof.Machine.execTune channel s
  | .rearm => Sys2Proof.Machine.execRearm s
  | .pollReady => Sys2Proof.Machine.execPollReady s
  | .crcFailed => Sys2Proof.Machine.execCrcFailed s
  | .readFrame => Sys2Proof.Machine.execReadFrame s
  | .seqLoad id => Sys2Proof.Machine.execSeqLoad id s
  | .seqChannel => Sys2Proof.Machine.execSeqChannel s
  | .advance => Sys2Proof.Machine.execAdvance s
  | .strobe b => Sys2Proof.Machine.execStrobe b s
  | .wreg a v => Sys2Proof.Machine.execWreg a v s
  | .rreg a => Sys2Proof.Machine.execRreg a s
  | .wburst a vs => Sys2Proof.Machine.execWburst a vs s
  | .rburst4 a => Sys2Proof.Machine.execRburst4 a s
  | .rburst21 a => Sys2Proof.Machine.execRburst21 a s

end Sys2Proof.Machine
end

