-- ==== Sys2Proof/Machine/Fetch.lean ====
section
/-! DEFINITION. How a request comes to run: the caller's next one is taken (spec/70_reset_and_hazards.md R260), decoded
(spec/30_encoding.md R107) and executed; an unfinished `configure` goes on polling (log 11). `step` only calls these. -/

namespace Sys2Proof.Machine

/-- The caller's next request, if it issues one. -/
def nextRequest (s : State) : Option Request := s.io.requests.head?

/-- The state in which a request taken from the queue runs: the request is gone, and the peer may have stepped while the
caller waited (R260). -/
def afterFetch (s : State) : State :=
  peerTurn { s with io := { s.io with requests := s.io.requests.tail } }

/-- A command word that decodes to nothing is refused by the block: `F_BAD_COMMAND`, no event, status 0x01 (R107;
spec/60_exceptions.md R202). -/
def refuseCommand (w : CmdWord) (s : State) : State := failWith (.badCommand w) s

/-- A request runs (R107). A frame that is no transaction has no meaning: what the chip does with one is outside the spec,
and the block never sends one (spec/30_encoding.md R108, log 9). -/
def serve (r : Request) (s : State) : Host.Outcome State Fault Refusal :=
  match r with
  | .command w =>
    match decodeCommand w with
    | .ok i => exec i s
    | .error _ => .next (refuseCommand w s)
  | .frame bs =>
    match decodeFrame s.params bs with
    | .ok i => exec i s
    | .error (.otherBurst a n) => performRburst a n s
    | .error why => .refused (.strayFrame why)

/-- A step with no operation running: the next request, or, with none, the caller waits and the peer may step (R260), a
peer that still calibrates by `CalDone` (log 38). -/
def idleStep (s : State) : Host.Outcome State Fault Refusal :=
  match nextRequest s with
  | none => .next (peerTurn s)
  | some r => serve r (afterFetch s)

/-- A step with an operation running: the one position at which a step can end is the poll of `configure` (log 11,
log 34). -/
def runningStep (op : OpName) (k : Nat) (s : State) : Host.Outcome State Fault Refusal :=
  if op = .configure ∧ k = pollPosition s.params then .next (configurePoll s) else .fault (.noSuchPosition op)

/-- A request placed at the head of the caller's queue, the block being idle: what the next step takes. -/
def placeRequest (r : Request) (s : State) : State :=
  { s with upos := .idle, io := { s.io with requests := r :: s.io.requests } }

end Sys2Proof.Machine
end

