-- ==== Sys2Proof/Machine/Step.lean ====
section
/-! DEFINITION. One step of the machine, and how the host places an instruction where the next step takes it. -/

namespace Sys2Proof.Machine

/-- One step. "A model refuses a record that fails any clause" (spec/00_scope.md R10, log 3). With the block idle the
caller's next request runs; with `configure` polling, one more poll (spec/10_state.md R25). -/
def step (s : State) : Host.Outcome State Fault Refusal :=
  if s.params.wf then
    match s.upos with
    | .idle => idleStep s
    | .running op k => runningStep op k s
  else .refused .illFormedParams

/-- `s` with the instruction of a table word at the head of the caller's queue and the block idle (log 8, log 10). -/
def State.withFetchWord (s : State) (nbits w : Nat) : State := placeRequest (requestOfWord s.params nbits w) s

end Sys2Proof.Machine
end

