-- ==== Sys2Proof/Machine/Pseudo.lean ====
section
/-! DEFINITION. The pseudo-operations of spec/30_encoding.md rule R110: fixed sequences the caller performs, each operation
chosen from the responses to the ones before it. They add no semantics: what they say is which operation a caller that
follows the table issues next (log 28). -/

namespace Sys2Proof.Machine

/-- The four pseudo-operations of R110. -/
inductive Pseudo where
  | init
  | hop
  | bindListen
  | tryReceive
deriving DecidableEq, Repr

/-- The operation issued next, given the responses received so far in this pseudo-operation, oldest first; `none` when it
is over (R110). A response with a fault status ends it. -/
def Pseudo.issue : Pseudo → List Response → Option Instr
  | .init, [] => some .reset
  | .init, [r] => if r = success .empty then some .configure else none
  | .init, _ :: _ :: _ => none
  | .hop, [] => some .advance
  | .hop, [r] =>
    match r with
    | ⟨0x00#8, .byte c⟩ => some (.tune c)
    | _ => none
  | .hop, _ :: _ :: _ => none
  | .bindListen, [] => some (.tune 0x00#8)
  | .bindListen, _ :: _ => none
  | .tryReceive, [] => some .pollReady
  | .tryReceive, [r] => if r = success (.bit true) then some .crcFailed else none
  | .tryReceive, [_, c] =>
    if c = success (.bit true) then some .rearm
    else if c = success (.bit false) then some .readFrame
    else none
  | .tryReceive, _ :: _ :: _ :: _ => none

end Sys2Proof.Machine
end

