-- ==== Sys2Proof/Machine/Text.lean ====
section
/-! DEFINITION. The textual syntax of spec/30_encoding.md rule R109: one operation per line, the mnemonic of rule R100, then
its operand if it has one, hexadecimal with prefix 0x or decimal; a ; starts a comment. Text is a list of characters. What
R109 leaves open (blanks between the two words, digits of either case, what a line out of range is) is fixed by log 27. -/

namespace Sys2Proof.Machine.Text

/-- Why a line is no operation. -/
inductive TextError where
  | unknownMnemonic
  | operandMissing
  | operandUnwanted
  | operandOutOfRange
  | notANumber
  | tooManyWords
deriving DecidableEq, Repr

/-- The mnemonics of R100. -/
def mnemonic : OpName → List Char
  | .reset => ['r', 'e', 's', 'e', 't']
  | .configure => ['c', 'o', 'n', 'f', 'i', 'g', 'u', 'r', 'e']
  | .setIdentity => ['s', 'e', 't', '_', 'i', 'd', 'e', 'n', 't', 'i', 't', 'y']
  | .getIdentity => ['g', 'e', 't', '_', 'i', 'd', 'e', 'n', 't', 'i', 't', 'y']
  | .tune => ['t', 'u', 'n', 'e']
  | .rearm => ['r', 'e', 'a', 'r', 'm']
  | .pollReady => ['p', 'o', 'l', 'l', '_', 'r', 'e', 'a', 'd', 'y']
  | .crcFailed => ['c', 'r', 'c', '_', 'f', 'a', 'i', 'l', 'e', 'd']
  | .readFrame => ['r', 'e', 'a', 'd', '_', 'f', 'r', 'a', 'm', 'e']
  | .seqLoad => ['s', 'e', 'q', '_', 'l', 'o', 'a', 'd']
  | .seqChannel => ['s', 'e', 'q', '_', 'c', 'h', 'a', 'n', 'n', 'e', 'l']
  | .advance => ['a', 'd', 'v', 'a', 'n', 'c', 'e']

/-- The twelve names, in the order of R100. -/
def opNames : List OpName :=
  [.reset, .configure, .setIdentity, .getIdentity, .tune, .rearm, .pollReady, .crcFailed, .readFrame, .seqLoad,
    .seqChannel, .advance]

/-- What stands before a comment. -/
def beforeComment (line : List Char) : List Char := line.takeWhile fun c => c != ';'

/-- A blank between words. -/
def isBlank (c : Char) : Bool := c == ' ' || c == '\t'

/-- One more character in front of words already read. -/
def pushChar (c : Char) (ws : List (List Char)) : List (List Char) :=
  if isBlank c then [] :: ws
  else
    match ws with
    | [] => [[c]]
    | w :: rest => (c :: w) :: rest

/-- The words of a line. -/
def wordsOf (line : List Char) : List (List Char) := (line.foldr pushChar [[]]).filter fun w => !w.isEmpty

/-- The value of a digit in a base up to 16. -/
def digit (base : Nat) (c : Char) : Option Nat :=
  let n := c.toNat
  let v := if 48 ≤ n ∧ n ≤ 57 then n - 48
    else if 65 ≤ n ∧ n ≤ 70 then n - 55
    else if 97 ≤ n ∧ n ≤ 102 then n - 87
    else 16
  if v < base then some v else none

/-- A number of at least one digit, the most significant first, `acc` being the value of the digits before. -/
def digits (base : Nat) : List Char → Nat → Option Nat
  | [], acc => some acc
  | c :: cs, acc =>
    match digit base c with
    | some d => digits base cs (base * acc + d)
    | none => none

/-- A number: hexadecimal with prefix 0x, else decimal (R109). -/
def number : List Char → Option Nat
  | [] => none
  | ['0', 'x'] => none
  | '0' :: 'x' :: c :: cs => digits 16 (c :: cs) 0
  | c :: cs => digits 10 (c :: cs) 0

/-- The operation a mnemonic and an optional operand name (R100). -/
def assemble (op : OpName) (arg : Option Nat) : Except TextError Instr :=
  match op, arg with
  | .setIdentity, some n => if n < 2 ^ 32 then .ok (.setIdentity (BitVec.ofNat 32 n)) else .error .operandOutOfRange
  | .tune, some n => if n < 2 ^ 8 then .ok (.tune (BitVec.ofNat 8 n)) else .error .operandOutOfRange
  | .seqLoad, some n => if n < 2 ^ 32 then .ok (.seqLoad (BitVec.ofNat 32 n)) else .error .operandOutOfRange
  | .setIdentity, none => .error .operandMissing
  | .tune, none => .error .operandMissing
  | .seqLoad, none => .error .operandMissing
  | .reset, none => .ok .reset
  | .configure, none => .ok .configure
  | .getIdentity, none => .ok .getIdentity
  | .rearm, none => .ok .rearm
  | .pollReady, none => .ok .pollReady
  | .crcFailed, none => .ok .crcFailed
  | .readFrame, none => .ok .readFrame
  | .seqChannel, none => .ok .seqChannel
  | .advance, none => .ok .advance
  | _, some _ => .error .operandUnwanted

/-- One line: nothing, or one operation (R109). -/
def parseLine (line : List Char) : Except TextError (Option Instr) :=
  match wordsOf (beforeComment line) with
  | [] => .ok none
  | [m] =>
    match opNames.find? fun op => mnemonic op == m with
    | none => .error .unknownMnemonic
    | some op => (assemble op none).map some
  | [m, x] =>
    match opNames.find? fun op => mnemonic op == m with
    | none => .error .unknownMnemonic
    | some op =>
      match number x with
      | none => .error .notANumber
      | some n => (assemble op (some n)).map some
  | _ :: _ :: _ :: _ => .error .tooManyWords

/-- A hexadecimal digit, upper case. -/
def hexDigit (v : Nat) : Char := Char.ofNat (if v < 10 then 48 + v else 55 + v)

/-- The `n` low hexadecimal digits of a number, the most significant first. -/
def hex : (n v : Nat) → List Char
  | 0, _ => []
  | n + 1, v => hex n (v / 16) ++ [hexDigit (v % 16)]

/-- The operand as R109's examples write it: two digits for a channel, eight for an identifier. -/
def operandText : Instr → List Char
  | .setIdentity id => [' ', '0', 'x'] ++ hex 8 id.toNat
  | .tune channel => [' ', '0', 'x'] ++ hex 2 channel.toNat
  | .seqLoad id => [' ', '0', 'x'] ++ hex 8 id.toNat
  | .reset => []
  | .configure => []
  | .getIdentity => []
  | .rearm => []
  | .pollReady => []
  | .crcFailed => []
  | .readFrame => []
  | .seqChannel => []
  | .advance => []
  | .strobe _ => []
  | .wreg _ _ => []
  | .rreg _ => []
  | .wburst _ _ => []
  | .rburst4 _ => []
  | .rburst21 _ => []

/-- The line of an operation; a transaction has none (no caller issues one). -/
def lineOf (i : Instr) : Option (List Char) := i.opName?.map fun op => mnemonic op ++ operandText i

end Sys2Proof.Machine.Text
end

