-- ==== Sys2Proof/Safety.lean ====
section
/-! DEFINITION. The terms in which claims about the machine are stated: the event lists of the wire formats
(spec/30_encoding.md R104), what it means that the peer keeps still for a while, the invariant of the machine, runs and
their good ends (spec/70_reset_and_hazards.md R261), and the assumption A_CAL_COMPLETES (spec/20_memory.md R82). -/

namespace Sys2Proof.Safety

open Sys2Proof.Machine

/-! ### Event lists (R104) -/

/-- The events of `STROBE(b)`. -/
def strobeEvents (b : Byte) : List Event := [.csAssert, .xchg b none, .csDeassert]

/-- The events of `WREG(a, v)`. -/
def wregEvents (p : ChipParams) (a : RegAddr) (v : Byte) : List Event :=
  [.csAssert, .xchg (p.wrByte a) none, .xchg v none, .csDeassert]

/-- The events of `WBURST(a, vs)`. -/
def wburstEvents (p : ChipParams) (a : RegAddr) (vs : List Byte) : List Event :=
  [.csAssert, .xchg (p.wrByte a) none] ++ vs.map (fun v => .xchg v none) ++ [.csDeassert]

/-- The events of `RREG(a)` or `RBURST(a, n)` that returned the bytes `bs`. -/
def readEvents (p : ChipParams) (a : RegAddr) (bs : List Byte) : List Event :=
  [.csAssert, .xchg (p.rdByte a) none, .dirIn] ++ bs.map (fun b => .xchg dummyByte (some b)) ++ [.dirOut, .csDeassert]

/-- The events of a write-kind transaction. -/
def writeTxEvents (p : ChipParams) : WriteTx → List Event
  | .strobe b => strobeEvents b
  | .wreg a v => wregEvents p a v
  | .wburst a vs => wburstEvents p a vs

/-- The events of a sequence of write-kind transactions. -/
def writeAllEvents (p : ChipParams) (ts : List WriteTx) : List Event := ts.flatMap (writeTxEvents p)

/-- The events of one entry of the register table: none for a sentinel (spec/41_radio_driver.md R152). -/
def tableEntryEvents (p : ChipParams) : RegAddr × Option Byte → List Event
  | (a, some v) => wregEvents p a v
  | (_, none) => []

/-- The events of the table phase of `configure` (R152). -/
def tableEvents (p : ChipParams) : List Event := p.regTable.flatMap (tableEntryEvents p)

/-- The events of `configure` before its first poll (R152, R153). -/
def configureHeadEvents (p : ChipParams) : List Event :=
  tableEvents p ++ strobeEvents p.strobeStandby ++ writeAllEvents p p.calTriggerSeq

/-- The events of the calibration status reads that returned `bs`, one byte each. -/
def statusEvents (p : ChipParams) (bs : List Byte) : List Event :=
  (p.calStatusRegs.zip bs).flatMap fun ab => readEvents p ab.1 [ab.2]

/-- The events of `configure` after its last poll, the status reads having returned `bs` (R153). -/
def configureTailEvents (p : ChipParams) (bs : List Byte) : List Event :=
  statusEvents p bs ++ wregEvents p p.trim1.1 p.trim1.2 ++ wregEvents p p.trim2.1 p.trim2.2 ++
    strobeEvents p.strobeStandby

/-- The events of `tune channel` (spec/41_radio_driver.md R157). -/
def tuneEvents (p : ChipParams) (channel : Byte) : List Event :=
  strobeEvents p.strobeStandby ++ strobeEvents p.strobeRstRdptr ++ wregEvents p p.channelReg channel ++
    strobeEvents p.strobeRx

/-- The events of `rearm` (R158). -/
def rearmEvents (p : ChipParams) : List Event := strobeEvents p.strobeRstRdptr ++ strobeEvents p.strobeRx

/-! ### The table of spec/30_encoding.md R102, as printed: match, mask, operation of the 32 bits of `arg` -/

/-- R102, row by row. -/
def printedRows : List (CmdWord × CmdWord × (BitVec 32 → Instr)) :=
  [(0x0100000000#40, 0xFFFFFFFFFF#40, fun _ => .reset),
   (0x0200000000#40, 0xFFFFFFFFFF#40, fun _ => .configure),
   (0x0300000000#40, 0xFF00000000#40, fun arg => .setIdentity arg),
   (0x0400000000#40, 0xFFFFFFFFFF#40, fun _ => .getIdentity),
   (0x0500000000#40, 0xFFFFFFFF00#40, fun arg => .tune (arg.extractLsb' 0 8)),
   (0x0600000000#40, 0xFFFFFFFFFF#40, fun _ => .rearm),
   (0x0700000000#40, 0xFFFFFFFFFF#40, fun _ => .pollReady),
   (0x0800000000#40, 0xFFFFFFFFFF#40, fun _ => .crcFailed),
   (0x0900000000#40, 0xFFFFFFFFFF#40, fun _ => .readFrame),
   (0x1000000000#40, 0xFF00000000#40, fun arg => .seqLoad arg),
   (0x1100000000#40, 0xFFFFFFFFFF#40, fun _ => .seqChannel),
   (0x1200000000#40, 0xFFFFFFFFFF#40, fun _ => .advance)]

/-! ### Register writes -/

/-- The register writes of a write-kind transaction, in order: a burst on `ID_REG` writes the identifier bytes and no
register (spec/20_memory.md R83, R87). -/
def txWrites (p : ChipParams) : WriteTx → List (RegAddr × Byte)
  | .strobe _ => []
  | .wreg a v => [(a, v)]
  | .wburst a vs => if a = p.idReg then [] else vs.map fun v => (a, v)

/-- The register writes of `configure` before its first poll: the entries of the table with a byte, then the trigger's
(spec/41_radio_driver.md R152, R153). -/
def headWrites (p : ChipParams) : List (RegAddr × Byte) :=
  (p.regTable.filterMap fun e => e.2.map fun v => (e.1, v)) ++ p.calTriggerSeq.flatMap (txWrites p)

/-- The registers after a list of writes, in order. -/
def applyWrites (ws : List (RegAddr × Byte)) (m : Memory) : Memory :=
  ws.foldl (fun m w => m.write w.1.toNat w.2) m

/-- Every register reads as before. -/
def SameRegs (x y : Peer) : Prop := ∀ b, y.reg.read b = x.reg.read b

/-- Every register but one reads as before. -/
def SameRegsBut (a : RegAddr) (x y : Peer) : Prop := ∀ b, b ≠ a.toNat → y.reg.read b = x.reg.read b

/-! ### The peer -/

/-- `n` places at which the peer may step of its own, and nothing else (spec/20_memory.md R68, R80). -/
def drift : Nat → State → State
  | 0, s => s
  | n + 1, s => drift n (peerTurn s)

/-- The peer takes no step of its own at the next `n` places where it may (spec/20_memory.md R80). -/
def Quiet (n : Nat) (s : State) : Prop := List.replicate n PeerMove.stay <+: s.io.script

/-- The ready pin has the level spec/20_memory.md R85 gives it in `Receiving` and `Filled`. -/
def PinAgrees (x : Peer) : Prop := (x.mode = .receiving → x.ready = false) ∧ (x.mode = .filled → x.ready = true)

/-- Every position below `filled_len` holds a byte, and `filled_len` is 0 or a whole frame (spec/10_state.md R34). -/
def FifoAgrees (x : Peer) : Prop := x.filledLen ≤ x.fifo.length ∧ (x.filledLen = 0 ∨ x.filledLen = frameLen)

/-- The bytes `bs` of a read of `FIFO_REG` that begins in `s` are the FIFO's from the read pointer on: byte `i` where at its
own exchange, the peer's place number `4 + i` of the read, the peer is in `Filled` with no CRC failure and the position
lies below `filled_len` (spec/20_memory.md R86, R68); of any other byte nothing is said. In `Filled` no step of the peer is
enabled (R80), so a peer that is there at the start is as it was at every exchange. -/
def HandsOutFifo (s : State) (bs : List Byte) : Prop :=
  ∀ i b, i < bs.length → (drift (4 + i) s).peer.mode = .filled → (drift (4 + i) s).peer.crcf = false →
    s.peer.rdptr + i < (drift (4 + i) s).peer.filledLen →
    (drift (4 + i) s).peer.fifo[s.peer.rdptr + i]? = some b → bs[i]? = some b

/-- Every register cell is in canonical form and at an address of the chip (spec/20_memory.md R60). -/
def RegsAgree (p : ChipParams) (m : Memory) : Prop := m.wf = true ∧ ∀ c ∈ m, c.1 < 2 ^ p.addrBits

/-! ### Frames -/

/-- `t` comes after `s` by one transaction with the events `es`, standing alone: nothing of the block moves but `upos`,
the trace and the places of the peer, and the line is at rest again (spec/40_transport_primitives.md R125). -/
structure Transacted (s t : State) (es : List Event) : Prop where
  params : t.params = s.params
  seq : t.seq = s.seq
  line : t.line = Line.quiet
  upos : t.upos = s.upos.next
  polls : t.polls = s.polls
  requests : t.io.requests = s.io.requests
  responses : t.io.responses = s.io.responses
  trace : t.io.trace = s.io.trace ++ es

/-- `t` comes after `s` by one operation that emitted the events `es` and has returned `r`: nothing of the block moves but
the trace, the responses and the places of the peer, `upos` is idle and the line at rest (spec/10_state.md R23, R25). -/
structure Returned (s t : State) (es : List Event) (r : Response) : Prop where
  params : t.params = s.params
  seq : t.seq = s.seq
  line : t.line = Line.quiet
  upos : t.upos = .idle
  polls : t.polls = s.polls
  requests : t.io.requests = s.io.requests
  responses : t.io.responses = s.io.responses ++ [r]
  trace : t.io.trace = s.io.trace ++ es

/-- The busy test is met `n` times: the limit is not reached, or there is none (spec/41_radio_driver.md R153). -/
def BelowLimit (p : ChipParams) (n : Nat) : Prop := ∀ l, p.pollLimit = some l → n < l

/-- The machine goes from `s` to `t` by the events `before`, which leave the registers `m` and the faults `fs`, and one
turn of the poll loop that reads `v` after `k` busy answers (spec/41_radio_driver.md R153, R154): it waits for the next
turn, ends stuck (`cfg_ok` false, log 23), or goes on to the end of `configure`. -/
structure PollTurn (s t : State) (before : List Event) (m : Memory) (fs : List FaultRecord) (k : Nat) (v : Byte) :
    Prop where
  params : t.params = s.params
  seq : t.seq = s.seq
  line : t.line = Line.quiet
  requests : t.io.requests = s.io.requests
  waits : v &&& s.params.calBusyMask ≠ 0#8 → BelowLimit s.params (k + 1) →
    t.upos = .running .configure (pollPosition s.params) ∧ t.polls = k + 1 ∧ t.faults = fs ∧ t.peer.reg = m ∧
      t.peer.cfgOk = s.peer.cfgOk ∧ t.io.responses = s.io.responses ∧
      t.io.trace = s.io.trace ++ before ++ readEvents s.params s.params.calPollReg [v]
  stuck : v &&& s.params.calBusyMask ≠ 0#8 → ¬BelowLimit s.params (k + 1) →
    t.upos = .idle ∧ t.faults = insertFault (.calStuck v) fs ∧ t.peer.reg = m ∧ t.peer.cfgOk = false ∧
      t.io.responses = s.io.responses ++ [⟨0x03#8, .empty⟩] ∧
      t.io.trace = s.io.trace ++ before ++ readEvents s.params s.params.calPollReg [v]
  done : v &&& s.params.calBusyMask = 0#8 →
    ∃ bs, bs.length = s.params.calStatusRegs.length ∧ t.upos = .idle ∧ t.faults = fs ∧
      t.peer.reg = applyWrites [s.params.trim1, s.params.trim2] m ∧ t.peer.cfgOk = true ∧
      t.io.responses = s.io.responses ++ [⟨0x00#8, .bytes bs⟩] ∧
      t.io.trace = s.io.trace ++ before ++ readEvents s.params s.params.calPollReg [v] ++
        configureTailEvents s.params bs

/-! ### The invariant -/

/-- What holds between steps: well-formed parameters (spec/00_scope.md R10); the line idle (spec/10_state.md R23,
spec/40_transport_primitives.md R125); `upos` idle or at the poll of `configure` (spec/10_state.md R25); the registers in
canonical form; the pin and the FIFO in agreement with the mode; `FAULTS` a set (R24). -/
structure Inv (s : State) : Prop where
  params : s.params.wf = true
  line : s.line = Line.quiet
  upos : s.upos = .idle ∨ s.upos = .running .configure (pollPosition s.params)
  regs : RegsAgree s.params s.peer.reg
  pin : PinAgrees s.peer
  fifo : FifoAgrees s.peer
  faults : s.faults.Nodup

/-! ### Faults and runs -/

/-- `t` is reached from `s` by `n` steps. -/
def Reaches (n : Nat) (s t : State) : Prop := Host.Core.run Sys2Proof.core n s = .next t

/-- `configure` polls in `s` (R153). -/
def Polling (s : State) : Prop := s.upos = .running .configure (pollPosition s.params)

/-- The operation `i`, issued in `s`, has returned in `t`: its first step, then the steps of the operation still running,
up to the first state in which none runs (spec/10_state.md R25). -/
def Performed (i : Instr) (s t : State) : Prop :=
  ∃ n u, exec i s = .next u ∧ Reaches n u t ∧ (∀ m < n, ∀ v, Reaches m u v → v.upos ≠ .idle) ∧ t.upos = .idle

/-- The operations are performed one after another, each issued when the one before has returned
(spec/70_reset_and_hazards.md R260). -/
def RunsAll : List Instr → State → State → Prop
  | [], s, t => s = t
  | i :: is, s, t => ∃ u, Performed i s u ∧ RunsAll is u t

/-- `configure`, issued in `s`, has run to its successful end in `t`, with the response of status 0 (R153). -/
def ConfigureDone (s t : State) : Prop :=
  Performed .configure s t ∧ ∃ bs, t.io.responses.getLast? = some ⟨0x00#8, .bytes bs⟩

/-- The state after power-on (R230) of a chip with the record `p`, the caller about to issue the command words `ws`, the
peer about to take the choices `script` (log 7, log 8). -/
def poweredOn (p : ChipParams) (script : List PeerMove) (ws : List CmdWord) : State :=
  { State.reset with
    params := p
    io := { State.reset.io with requests := ws.map .command, script := script } }

/-- A run of the operations `ws` ends in `t` (R261): issued from the state after power-on, each of them has returned, and
the caller issues nothing more. An execution in which `configure` never returns has no such `t`. -/
def RunEnds (p : ChipParams) (ws : List CmdWord) (t : State) : Prop :=
  ∃ script n, Reaches n (poweredOn p script ws) t ∧ t.upos = .idle ∧ t.io.requests = []

/-- The end state of a run is good (R261). -/
def GoodEnd (t : State) : Prop := t.upos = .idle ∧ t.line = Line.quiet ∧ t.faults = []

/-- A_CAL_COMPLETES for the execution from `s` on, in which `configure` polls (spec/20_memory.md R82): after some number of
steps the peer is out of `Calibrating`, or `configure` has returned. It is only ever a premise: log 33. -/
def CalibrationCompletes (s : State) : Prop :=
  ∃ n t, Reaches n s t ∧ (Polling t → t.peer.mode ≠ .calibrating)

/-- The peer takes no step of its own from `configure`'s first event on, until it completes the calibration: at a place
behind the trigger's last exchange (`head - 1` events precede it) and not behind the first poll byte (`head + 3` events
precede it), where `head` is the number of events before the first poll. -/
def CompletesBeforeFirstPoll (s : State) : Prop :=
  ∃ n, List.replicate n PeerMove.stay ++ [.calDone] <+: s.io.script ∧
    (configureHeadEvents s.params).length ≤ n + 1 ∧ n ≤ (configureHeadEvents s.params).length + 3

end Sys2Proof.Safety
end

