-- ==== Sys2Proof/Certificates/Slice0/Obligations.lean ====
section
/-! DEFINITION. The statements for the provers. Each says which rule of spec/ it formalises; where one rests on a choice of
the model, it names the row of notes/assumptions/ (log <n>). A statement about the peer's own steps speaks of `drift`
(Sys2Proof/Safety.lean): the peer after so many places at which it may step, whatever it does there. -/

section

open Sys2Proof Sys2Proof.Machine Sys2Proof.Safety

/-! ### Encoding -/

/-- Words written out from spec/30_encoding.md R102 (V42) and frames written out from R104 under the fixture FX (V1, V2,
V5, V6, V7, V8) decode to the instructions they stand for. -/
def Obligations.WrittenWordsDecode : Prop :=
  decodeCommand 0x0100000000#40 = .ok .reset ∧
  decodeCommand 0x0200000000#40 = .ok .configure ∧
  decodeCommand 0x0312345678#40 = .ok (.setIdentity 0x12345678#32) ∧
  decodeCommand 0x0400000000#40 = .ok .getIdentity ∧
  decodeCommand 0x0500000014#40 = .ok (.tune 0x14#8) ∧
  decodeCommand 0x0600000000#40 = .ok .rearm ∧
  decodeCommand 0x0700000000#40 = .ok .pollReady ∧
  decodeCommand 0x0800000000#40 = .ok .crcFailed ∧
  decodeCommand 0x0900000000#40 = .ok .readFrame ∧
  decodeCommand 0x10123456F3#40 = .ok (.seqLoad 0x123456F3#32) ∧
  decodeCommand 0x1100000000#40 = .ok .seqChannel ∧
  decodeCommand 0x1200000000#40 = .ok .advance ∧
  decodeFrame Config.fx [0xA0#8] = .ok (.strobe 0xA0#8) ∧
  decodeFrame Config.fx [0x0F#8, 0x4A#8] = .ok (.wreg 0x0F#8 0x4A#8) ∧
  decodeFrame Config.fx [0x62#8, 0x00#8] = .ok (.rreg 0x22#8) ∧
  decodeFrame Config.fx [0x06#8, 0x12#8, 0x34#8, 0x56#8, 0x78#8] =
    .ok (.wburst 0x06#8 [0x12#8, 0x34#8, 0x56#8, 0x78#8]) ∧
  decodeFrame Config.fx [0x46#8, 0x00#8, 0x00#8, 0x00#8, 0x00#8] = .ok (.rburst4 0x06#8) ∧
  decodeFrame Config.fx (0x45#8 :: List.replicate 21 0x00#8) = .ok (.rburst21 0x05#8)

/-- R102: a word decodes to an instruction exactly where it selects a row of the printed table, and then to that row's
operation on its `arg`; the rows are pairwise disjoint. -/
def Obligations.CommandTableDecides : Prop :=
  (∀ (w : CmdWord) (i : Instr), decodeCommand w = .ok i ↔
    ∃ r ∈ printedRows, w &&& r.2.1 = r.1 ∧ i = r.2.2 (w.extractLsb' 0 32)) ∧
  printedRows.Pairwise fun r q => ∀ w : CmdWord, w &&& r.2.1 = r.1 → w &&& q.2.1 ≠ q.1

/-- R107: a command word that matches no row is refused: no transport event, no change of state but `F_BAD_COMMAND` in
`FAULTS` (and the request taken from the caller's queue, the peer having stepped of its own while the caller waited, log 8
and log 7), response 0x01 with an empty payload. -/
def Obligations.UnmatchedWordRefused : Prop :=
  ∀ (s : State) (w : CmdWord) (rest : List Request), s.params.wf = true → s.upos = .idle →
    s.io.requests = .command w :: rest → (∀ r ∈ printedRows, w &&& r.2.1 ≠ r.1) →
    step s = .next { s with
      faults := insertFault (.badCommand w) s.faults
      peer := (drift 1 s).peer
      io := { (drift 1 s).io with requests := rest, responses := s.io.responses ++ [⟨0x01#8, .empty⟩] } }

/-- Every well-formed instruction comes back from its encoding, whatever its operands, for every well-formed parameter
record; but for a burst write of one byte, whose frame is that of the single write (R104, R105; log 30). -/
def Obligations.DecodeOfEncodeIsInstruction : Prop :=
  ∀ (p : ChipParams) (i : Instr), p.wf = true → i.wf p = true →
    ((∀ a v, i ≠ .wburst a [v]) → decodeRequest p (encode p i) = .ok i) ∧
    (∀ a v, i = .wburst a [v] → decodeRequest p (encode p i) = .ok (.wreg a v))

/-- What decodes is well-formed, and its encoding is what was decoded: no two words stand for one instruction. -/
def Obligations.EncodeOfDecodeIsWord : Prop :=
  ∀ (p : ChipParams) (r : Request) (i : Instr), p.wf = true → decodeRequest p r = .ok i →
    i.wf p = true ∧ encode p i = r

/-- A table word placed by `withFetchWord` is fetched and run by the very next step, as the instruction it decodes to. -/
def Obligations.PlacedWordRuns : Prop :=
  ∀ (s : State) (nbits w : Nat) (i : Instr), s.params.wf = true →
    decodeRequest s.params (requestOfWord s.params nbits w) = .ok i →
    step (s.withFetchWord nbits w) = exec i (drift 1 { s with upos := .idle })

/-! ### Steps -/

/-- A step with the block idle runs the caller's next request: the instruction it decodes to, after the request is taken
from the queue and the peer has had one place to step of its own (R260). -/
def Obligations.StepRunsDecodedInstruction : Prop :=
  ∀ (s : State) (r : Request) (rest : List Request) (i : Instr), s.params.wf = true → s.upos = .idle →
    s.io.requests = r :: rest → decodeRequest s.params r = .ok i →
    step s = exec i { s with
      peer := (drift 1 s).peer
      io := { (drift 1 s).io with requests := rest } }

/-- A step with nothing to issue is the caller's wait: the peer may step, and nothing else happens (R260, log 32). What the
peer's two steps are, at this place as at every other (`drift 1`; that `CalDone` may fall outside `configure` too, as a peer
that calibrates there is enabled to by R82, is the model's choice against R80 and R260's wait, log 38): `CalDone` takes it from `Calibrating` to `Standby`
(R82); `FrameArrive` takes it from `Receiving` to `Filled` with the frame at the FIFO's positions 0 to 20, 21 valid bytes,
the CRC flag drawn with it and the pin true (R84, R85), and moves neither the read pointer nor the bytes behind the frame.
No other field changes, but the pin's level with the mode, and in any other mode neither step is enabled (R80). -/
def Obligations.WaitingStepMovesOnlyPeer : Prop :=
  (∀ s : State, s.params.wf = true → s.upos = .idle → s.io.requests = [] →
    step s = .next { s with
      peer := s.peer.move s.io.nextMove (Config.freeReady .move s.io.tick)
      io := { s.io with script := s.io.script.tail, tick := s.io.tick + 1 } }) ∧
  ∀ s : State,
    drift 1 s = { s with
      peer := s.peer.move s.io.nextMove (Config.freeReady .move s.io.tick)
      io := { s.io with script := s.io.script.tail, tick := s.io.tick + 1 } } ∧
    (s.io.nextMove = .stay → (drift 1 s).peer = s.peer) ∧
    (s.io.nextMove = .calDone →
      (s.peer.mode = .calibrating →
        (drift 1 s).peer = { s.peer with mode := .standby, ready := (drift 1 s).peer.ready }) ∧
      (s.peer.mode ≠ .calibrating → (drift 1 s).peer = s.peer)) ∧
    ∀ f c, s.io.nextMove = .frameArrive f c →
      (s.peer.mode = .receiving →
        (drift 1 s).peer = { s.peer with
          mode := .filled, fifo := f.toList ++ s.peer.fifo.drop 21, filledLen := 21, crcf := c, ready := true }) ∧
      (s.peer.mode ≠ .receiving → (drift 1 s).peer = s.peer)

/-- R10: what a well-formed parameter record is, clause by clause: the types of R9, then (a), (b), (c), (d), (e), (f), (g),
(h). -/
def Obligations.WellFormedParamsMeaning : Prop :=
  ∀ p : ChipParams, p.wf = true ↔
    (1 ≤ p.addrBits ∧ p.addrBits ≤ 8 ∧
      (∀ a ∈ [p.calPollReg, p.trim1.1, p.trim2.1, p.idReg, p.channelReg, p.statusReg, p.fifoReg] ++
        p.calStatusRegs ++ p.plainRegs, a.toNat < 2 ^ p.addrBits) ∧
      (∀ a v, WriteTx.wreg a v ∈ p.resetSeq ++ p.calTriggerSeq → a.toNat < 2 ^ p.addrBits) ∧
      (∀ a vs, WriteTx.wburst a vs ∈ p.resetSeq ++ p.calTriggerSeq → a.toNat < 2 ^ p.addrBits ∧ vs ≠ []) ∧
      p.calStatusRegs ≠ []) ∧
    (∀ a b : RegAddr, a.toNat < 2 ^ p.addrBits → b.toNat < 2 ^ p.addrBits →
      (p.wrByte a = p.wrByte b → a = b) ∧ (p.rdByte a = p.rdByte b → a = b) ∧ p.wrByte a ≠ p.rdByte b) ∧
    ([p.strobeStandby, p.strobeRstRdptr, p.strobeRx].Nodup ∧
      ∀ b ∈ [p.strobeStandby, p.strobeRstRdptr, p.strobeRx], ∀ a : RegAddr, a.toNat < 2 ^ p.addrBits →
        b ≠ p.wrByte a ∧ b ≠ p.rdByte a) ∧
    ((p.regTable.map fun e => e.1.toNat).Pairwise (· < ·) ∧ ∀ e ∈ p.regTable, e.1.toNat < 2 ^ p.addrBits) ∧
    p.calBusyMask ≠ 0#8 ∧ p.crcBit.val ≤ 7 ∧ [p.idReg, p.fifoReg, p.channelReg, p.statusReg].Nodup ∧
    (p.hopTable.toList.length = 16 ∧ ∀ r ∈ p.hopTable.toList, r.toList.length = 16)

/-- A record that fails a clause is refused by every step (R10, log 3). -/
def Obligations.IllFormedParamsStop : Prop :=
  ∀ s : State, s.params.wf = false → step s = .refused .illFormedParams

/-- No step writes the parameter record, the two read-only tables HOP_TABLE and REG_TABLE among it (R27). -/
def Obligations.ParametersNeverWritten : Prop :=
  ∀ s t : State, step s = .next t → t.params = s.params

/-! ### Reset state and invariant -/

/-- The values spec/70_reset_and_hazards.md R230 gives for the state after power-on (V46). -/
def Obligations.ResetStateAsStated : Prop :=
  State.reset.seq.loaded = false ∧ State.reset.seq.cursor = 0 ∧ State.reset.line = ⟨.inactive, .out⟩ ∧
    State.reset.faults = [] ∧ State.reset.upos = .idle ∧ State.reset.peer.filledLen = 0 ∧
    State.reset.peer.cfgOk = false

/-- The invariant holds after reset, so it holds at the end of every run from there (R261): the block is at rest, every
operation has had its one response, and the end is good exactly where `FAULTS` is empty. -/
def Obligations.ResetStateMeetsInvariant : Prop :=
  Inv State.reset ∧
  ∀ (p : ChipParams) (ws : List CmdWord) (t : State), p.wf = true → RunEnds p ws t →
    Inv t ∧ t.upos = .idle ∧ t.line = Line.quiet ∧ t.io.responses.length = ws.length ∧
      (GoodEnd t ↔ t.faults = [])

/-- Every step keeps the invariant: the line idle between operations (R23, R125), `upos` idle or at the poll of `configure`
(R25), the pin and the FIFO in agreement with the mode (R85, R34), registers in canonical form inside the space (R60),
`FAULTS` a set (R24). -/
def Obligations.StepKeepsInvariant : Prop :=
  ∀ s t : State, Inv s → step s = .next t → Inv t

/-! ### The sequencer -/

/-- R22, R187: the row is `id mod 16`, the offset `min(9, (id AND 0xFF) / 16)`: never above 9, 9 for the high nibbles 10 to
15 and the high nibble itself below. Bits 31:8 take no part. -/
def Obligations.RowAndOffset : Prop :=
  ∀ id : Ident, (row id).val = id.toNat % 16 ∧ (row id).val = (id.extractLsb' 0 4).toNat ∧
    offset id = min 9 ((id &&& 0xFF#32).toNat / 16) ∧ offset id ≤ 9 ∧
    (10 ≤ (id.extractLsb' 4 4).toNat → offset id = 9) ∧
    ((id.extractLsb' 4 4).toNat < 10 → offset id = (id.extractLsb' 4 4).toNat) ∧
    ∀ jd : Ident, jd.extractLsb' 0 8 = id.extractLsb' 0 8 → row jd = row id ∧ offset jd = offset id

/-- R184: the channel is the table byte less the offset less one, reduced modulo 256; where the byte is at least `offset +
1` no reduction happens and the result lies in 0 to 254; a table byte 3 with offset 9 yields 249. -/
def Obligations.ChannelFormula : Prop :=
  ∀ (p : ChipParams) (id : Ident) (c : Fin 16),
    ((channel p id c).toNat : Int) = ((p.hopTable[row id][c].toNat : Int) - offset id - 1) % 256 ∧
    (offset id + 1 ≤ p.hopTable[row id][c].toNat →
      (channel p id c).toNat = p.hopTable[row id][c].toNat - offset id - 1 ∧ (channel p id c).toNat ≤ 254) ∧
    (p.hopTable[row id][c] = 3#8 → offset id = 9 → channel p id c = 249#8)

/-- R185 (g): identities that agree in the low byte have the same schedule, and there are 160 plans. -/
def Obligations.LowByteDecidesSchedule : Prop :=
  (∀ (p : ChipParams) (id jd : Ident) (c : Fin 16), id.extractLsb' 0 8 = jd.extractLsb' 0 8 →
    channel p id c = channel p jd c) ∧
  ∃ plans : List (Fin 16 × Nat), plans.Nodup ∧ plans.length = 160 ∧
    ∀ q, q ∈ plans ↔ ∃ id : Ident, q = (row id, offset id)

/-- R181: `seq_load` writes the three registers of the sequencer and answers success; nothing else changes, and no event is
emitted. -/
def Obligations.SeqLoadResult : Prop :=
  ∀ (s : State) (id : Ident), exec (.seqLoad id) s = .next { s with
    seq := ⟨id, 0, true⟩
    upos := .idle
    io := { s.io with responses := s.io.responses ++ [⟨0x00#8, .empty⟩] } }

/-- R182: `seq_channel` answers the channel at the current cursor and changes nothing; before any load it records
`F_SEQ_UNLOADED` and answers 0x02 with an empty payload. -/
def Obligations.SeqChannelResult : Prop :=
  ∀ s : State,
    (s.seq.loaded = true → exec .seqChannel s = .next { s with
      upos := .idle
      io := { s.io with responses := s.io.responses ++ [⟨0x00#8, .byte (channel s.params s.seq.id s.seq.cursor)⟩] } }) ∧
    (s.seq.loaded = false → exec .seqChannel s = .next { s with
      faults := insertFault (.seqUnloaded .seqChannel) s.faults
      upos := .idle
      io := { s.io with responses := s.io.responses ++ [⟨0x02#8, .empty⟩] } })

/-- R183: `advance` moves the cursor by one modulo 16 and answers the channel of the new cursor; before any load it records
`F_SEQ_UNLOADED`, answers 0x02, and the cursor stays. -/
def Obligations.AdvanceResult : Prop :=
  ∀ s : State,
    (s.seq.loaded = true → ∃ c : Fin 16, c.val = (s.seq.cursor.val + 1) % 16 ∧ exec .advance s = .next { s with
      seq := { s.seq with cursor := c }
      upos := .idle
      io := { s.io with responses := s.io.responses ++ [⟨0x00#8, .byte (channel s.params s.seq.id c)⟩] } }) ∧
    (s.seq.loaded = false → exec .advance s = .next { s with
      faults := insertFault (.seqUnloaded .advance) s.faults
      upos := .idle
      io := { s.io with responses := s.io.responses ++ [⟨0x02#8, .empty⟩] } })

/-- R186: sixteen advances in a row from a loaded state bring the cursor back, and the sixteenth answers what `seq_channel`
answered before the first. -/
def Obligations.SixteenAdvancesReturn : Prop :=
  ∀ s u : State, s.seq.loaded = true → exec .seqChannel s = .next u →
    ∃ t, RunsAll (List.replicate 16 .advance) s t ∧ t.seq = s.seq ∧
      t.io.responses.getLast? = u.io.responses.getLast?

/-- R21: in a step only `seq_load` and `advance` write a register of the sequencer. -/
def Obligations.SequencerWrittenOnlyByItsOps : Prop :=
  ∀ s t : State, step s = .next t → t.seq ≠ s.seq →
    ∃ w rest, s.upos = .idle ∧ s.io.requests = .command w :: rest ∧
      (decodeCommand w = .ok .advance ∨ ∃ id, decodeCommand w = .ok (.seqLoad id))

/-! ### The transactions -/

/-- R130: `STROBE` of a strobe byte of the block emits its three events; no register, no identifier byte and no flag but
those of R81 changes, and only a receive-arm strobe can record a fault. A strobe byte that only `RESET_SEQ` or
`CAL_TRIGGER_SEQ` names has no reaction of its own (log 15): the peer changes by its own steps alone. -/
def Obligations.StrobeTransaction : Prop :=
  ∀ (s : State) (b : Byte), s.params.isStrobe b = true → s.line = Line.quiet →
    ∃ t, exec (.strobe b) s = .next t ∧ Transacted s t (strobeEvents b) ∧ SameRegs s.peer t.peer ∧
      t.peer.idb = s.peer.idb ∧ t.peer.cfgOk = s.peer.cfgOk ∧
      t.peer.rdptr = (if b = s.params.strobeRstRdptr ∧ b ≠ s.params.strobeStandby then 0 else s.peer.rdptr) ∧
      (b ≠ s.params.strobeRx → t.faults = s.faults ∧ t.peer.rxChan = s.peer.rxChan) ∧
      (b ∉ [s.params.strobeStandby, s.params.strobeRstRdptr, s.params.strobeRx] → t.peer = (drift 3 s).peer) ∧
      (∀ f ∈ s.faults, f ∈ t.faults) ∧ (∀ f ∈ t.faults, f ∈ s.faults ∨ ∃ m, f = .callOrder s.upos.op? m)

/-- R81, with R204 and R241 where the order is broken (log 14): what each strobe does to a peer that takes no step of its
own meanwhile, every field named; a value the rules leave to a draw is not named. The reception listens on `chan`, where
its value is known (R89). -/
def Obligations.StrobeReactions : Prop :=
  ∀ s : State, s.params.wf = true → Quiet 3 s →
    (∃ t, exec (.strobe s.params.strobeStandby) s = .next t ∧ t.faults = s.faults ∧
      (s.peer.mode ≠ .calibrating → t.peer = { s.peer with mode := .standby, ready := t.peer.ready }) ∧
      (s.peer.mode = .calibrating → t.peer = { s.peer with mode := t.peer.mode, ready := t.peer.ready })) ∧
    (∃ t, exec (.strobe s.params.strobeRstRdptr) s = .next t ∧ t.faults = s.faults ∧
      t.peer = { s.peer with rdptr := 0 }) ∧
    (∃ t, exec (.strobe s.params.strobeRx) s = .next t ∧
      (s.peer.cfgOk = true → s.peer.mode ∈ [Mode.standby, .filled, .receiving] → t.faults = s.faults ∧
        t.peer = { s.peer with
          mode := .receiving, filledLen := 0, crcf := t.peer.crcf, ready := false, rxChan := t.peer.rxChan }) ∧
      (s.peer.cfgOk = false → s.peer.mode ∈ [Mode.standby, .filled, .receiving] →
        t.faults = insertFault (.callOrder s.upos.op? s.peer.mode) s.faults ∧
        t.peer = { s.peer with
          mode := t.peer.mode, filledLen := 0, crcf := t.peer.crcf, ready := t.peer.ready
          rxChan := t.peer.rxChan }) ∧
      (s.peer.mode ∈ [Mode.idle, .calibrating] →
        t.faults = insertFault (.callOrder s.upos.op? s.peer.mode) s.faults ∧
        t.peer = { s.peer with
          mode := t.peer.mode, ready := t.peer.ready, rxChan := t.peer.rxChan }) ∧
      ∀ b, s.peer.chan s.params = some b → t.peer.rxChan = b)

/-- R131, with R83 and R89: `WREG` emits its four events and sets `reg[a]` to any byte; every other register reads as
before, and nothing else of the peer changes but by its own steps. That a single write of `ID_REG` leaves the identifier
bytes alone is the model's reading of R83 and R87 (log 17), and that a `WREG` with the bytes of `RESET_SEQ` or
`CAL_TRIGGER_SEQ` neither resets nor calibrates is the model's choice (log 39). -/
def Obligations.WregTransaction : Prop :=
  ∀ (s : State) (a : RegAddr) (v : Byte), s.params.isReg a = true → s.line = Line.quiet →
    ∃ t, exec (.wreg a v) s = .next t ∧ Transacted s t (wregEvents s.params a v) ∧ t.faults = s.faults ∧
      t.peer.reg.read a.toNat = some v ∧ SameRegsBut a s.peer t.peer ∧
      (a = s.params.channelReg → t.peer.chan s.params = some v) ∧
      t.peer = { (drift 4 s).peer with reg := t.peer.reg }

/-- R132, with R69, R82, R83, R86: `RREG` emits its six events and returns one byte, fixed at its own exchange: the byte
last written to a register of `PLAIN_REGS`; busy bits exactly while the peer calibrates (but where the status register is
polled in `Filled`, log 19); the CRC flag in `Filled`; through `FIFO_REG`, where that is no poll register (log 19), the
FIFO byte at the read pointer in `Filled` with no CRC failure and the pointer below `filled_len` (R86, log 18). Nothing of
the peer changes but by its own steps, and the read pointer where the register is the FIFO (log 18). -/
def Obligations.RregTransaction : Prop :=
  ∀ (s : State) (a : RegAddr), s.params.wf = true → s.params.isReg a = true → s.line = Line.quiet →
    ∃ t v, exec (.rreg a) s = .next t ∧ Transacted s t (readEvents s.params a [v]) ∧ t.faults = s.faults ∧
      t.peer = { (drift 6 s).peer with
        rdptr := if a = s.params.fifoReg then s.peer.rdptr + 1 else s.peer.rdptr } ∧
      (a ∈ s.params.plainRegs → a ∉ [s.params.statusReg, s.params.calPollReg, s.params.idReg, s.params.fifoReg] →
        ∀ b, s.peer.reg.read a.toNat = some b → v = b) ∧
      (a = s.params.calPollReg → (a = s.params.statusReg → (drift 4 s).peer.mode ≠ .filled) →
        (v &&& s.params.calBusyMask ≠ 0#8 ↔ (drift 4 s).peer.mode = .calibrating)) ∧
      (a = s.params.statusReg → (drift 4 s).peer.mode = .filled →
        v.getLsbD s.params.crcBit.val = (drift 4 s).peer.crcf) ∧
      (a = s.params.fifoReg → a ≠ s.params.calPollReg → HandsOutFifo s [v])

/-- R133, with R66, R87: `WBURST` of one byte or more emits its events; on `ID_REG` byte `i` sets `idb[i]` and no register;
on any other address the register keeps the last byte (log 17). Nothing else of the peer changes but by its own steps: that a
`WBURST` with the bytes of `RESET_SEQ` or `CAL_TRIGGER_SEQ` neither resets nor calibrates is the model's choice (log 39). -/
def Obligations.WburstTransaction : Prop :=
  ∀ (s : State) (a : RegAddr) (vs : List Byte), s.params.isReg a = true → vs ≠ [] → s.line = Line.quiet →
    ∃ t, exec (.wburst a vs) s = .next t ∧ Transacted s t (wburstEvents s.params a vs) ∧ t.faults = s.faults ∧
      (a = s.params.idReg → SameRegs s.peer t.peer ∧ ∀ i : Fin 4, t.peer.idb[i] = vs[i.val]?.getD s.peer.idb[i]) ∧
      (a ≠ s.params.idReg → t.peer.idb = s.peer.idb ∧ t.peer.reg.read a.toNat = vs.getLast? ∧
        SameRegsBut a s.peer t.peer) ∧
      t.peer = { (drift (3 + vs.length) s).peer with reg := t.peer.reg, idb := t.peer.idb }

/-- R134, with R86, R87: `RBURST` of 4 or 21 bytes emits its events and returns as many bytes: on `ID_REG` the identifier
bytes, first byte first; on `FIFO_REG` the FIFO's bytes, in `Filled` with no CRC failure and as far as their positions lie
below `filled_len`, each fixed at its own exchange (R68), and the read pointer moves by as many. Nothing else of the peer
changes but by its own steps. -/
def Obligations.RburstTransaction : Prop :=
  ∀ (s : State) (a : RegAddr), s.params.isReg a = true → s.line = Line.quiet →
    (∃ t bs, exec (.rburst4 a) s = .next t ∧ bs.length = 4 ∧ Transacted s t (readEvents s.params a bs) ∧
      t.faults = s.faults ∧ (a = s.params.idReg → bs = s.peer.idb.toList) ∧
      (a = s.params.fifoReg → a ≠ s.params.idReg → HandsOutFifo s bs) ∧
      t.peer = { (drift 9 s).peer with
        rdptr := if a = s.params.fifoReg then s.peer.rdptr + 4 else s.peer.rdptr }) ∧
    (∃ t bs, exec (.rburst21 a) s = .next t ∧ bs.length = 21 ∧ Transacted s t (readEvents s.params a bs) ∧
      t.faults = s.faults ∧ (a = s.params.idReg → bs.take 4 = s.peer.idb.toList) ∧
      (a = s.params.fifoReg → a ≠ s.params.idReg → HandsOutFifo s bs) ∧
      t.peer = { (drift 26 s).peer with
        rdptr := if a = s.params.fifoReg then s.peer.rdptr + 21 else s.peer.rdptr })

/-- Where a transaction standing alone stops (log 15, log 9, log 35): an address outside the space, a byte that is no strobe
of the block, a burst write of nothing. -/
def Obligations.TransactionStops : Prop :=
  ∀ s : State,
    (∀ a v, s.params.isReg a = false → exec (.wreg a v) s = .fault (.noSuchRegister a)) ∧
    (∀ a, s.params.isReg a = false → exec (.rreg a) s = .fault (.noSuchRegister a) ∧
      exec (.rburst4 a) s = .fault (.noSuchRegister a) ∧ exec (.rburst21 a) s = .fault (.noSuchRegister a)) ∧
    (∀ a vs, vs ≠ [] → s.params.isReg a = false → exec (.wburst a vs) s = .fault (.noSuchRegister a)) ∧
    (∀ a, exec (.wburst a []) s = .refused .emptyBurst) ∧
    (∀ b, s.params.isStrobe b = false → exec (.strobe b) s = .refused (.strayCommandByte b))

/-! ### The driver -/

/-- R150, with R88 and R52: `reset` performs `RESET_SEQ` and returns; the chip is then in `Idle` with nothing in the FIFO,
no register value known and `cfg_ok` false, whatever it did meanwhile; `SEQ` and `FAULTS` are not cleared, and `FAULTS`
is unchanged unless `RESET_SEQ` holds a receive-arm strobe. -/
def Obligations.ResetOperationResult : Prop :=
  ∀ s : State, s.line = Line.quiet →
    ∃ t, exec .reset s = .next t ∧ Returned s t (writeAllEvents s.params s.params.resetSeq) ⟨0x00#8, .empty⟩ ∧
      t.peer.mode = .idle ∧ t.peer.filledLen = 0 ∧ t.peer.cfgOk = false ∧ (∀ a, t.peer.reg.read a = none) ∧
      (∀ f ∈ s.faults, f ∈ t.faults) ∧
      (WriteTx.strobe s.params.strobeRx ∉ s.params.resetSeq → t.faults = s.faults)

/-- R152, R153, R154: `configure` writes the table's entries in order and skips the sentinels, strobes standby, performs the
trigger, and reads the poll register once; then it goes on as that poll decides (log 11). Registers are written by these
writes alone (a burst of the trigger on `ID_REG` writes none, log 17); where it ends stuck, `cfg_ok` is false (log 23).
R82: the trigger takes the peer from `Standby` to `Calibrating`: where the peer takes no step of its own
meanwhile, was not calibrating and is not armed by the trigger, the first poll is busy and the peer calibrates (a trigger
that ends in the standby strobe among them, whose reaction comes first, log 36). -/
def Obligations.ConfigureFirstPoll : Prop :=
  ∀ s : State, s.params.wf = true → s.line = Line.quiet →
    ∃ t v fs, exec .configure s = .next t ∧ (∀ f ∈ s.faults, f ∈ fs) ∧
      (WriteTx.strobe s.params.strobeRx ∉ s.params.calTriggerSeq → fs = s.faults) ∧
      PollTurn s t (configureHeadEvents s.params) (applyWrites (headWrites s.params) s.peer.reg) fs 0 v ∧
      (s.peer.mode ≠ .calibrating → s.params.calTriggerSeq ≠ [] →
        WriteTx.strobe s.params.strobeRx ∉ s.params.calTriggerSeq →
        Quiet ((configureHeadEvents s.params).length + 6) s →
        v &&& s.params.calBusyMask ≠ 0#8 ∧ t.peer.mode = .calibrating)

/-- R153, R154: a step while `configure` polls is one more turn of the loop (one poll a step, log 11); where it ends stuck,
`cfg_ok` is false, also where an earlier `configure` had set it (log 23); it leaves the identifier bytes and the channel
of reception alone, and the read pointer where the registers it reads are not the FIFO. -/
def Obligations.ConfigurePollTurn : Prop :=
  ∀ s : State, s.params.wf = true → s.line = Line.quiet → Polling s →
    ∃ t v, step s = .next t ∧ PollTurn s t [] s.peer.reg s.faults s.polls v ∧ t.peer.idb = s.peer.idb ∧
      t.peer.rxChan = s.peer.rxChan ∧
      (s.params.fifoReg ≠ s.params.calPollReg → s.params.fifoReg ∉ s.params.calStatusRegs →
        t.peer.rdptr = s.peer.rdptr)

/-- R151, R153: where the peer ends the calibration after the trigger and before the first poll's answer, having taken no
step of its own before (for a trigger that ends in the standby strobe log 36, for an empty one log 16), `configure` completes in one step (log 11) with one poll: all events in order, the status bytes as
the result, the registers as written, the peer in `Standby` with `cfg_ok` true, no fault. Of the peer's other fields only
the pin is open; the identifier bytes move by a burst of the trigger on `ID_REG` alone (log 17), the read pointer by a strobe of the
trigger or a read of the FIFO register. -/
def Obligations.ConfigureCompletes : Prop :=
  ∀ s : State, s.params.wf = true → s.line = Line.quiet → s.peer.mode ≠ .calibrating →
    WriteTx.strobe s.params.strobeRx ∉ s.params.calTriggerSeq → CompletesBeforeFirstPoll s →
    ∃ t v bs, exec .configure s = .next t ∧ v &&& s.params.calBusyMask = 0#8 ∧
      bs.length = s.params.calStatusRegs.length ∧ t.params = s.params ∧ t.seq = s.seq ∧ t.line = Line.quiet ∧
      t.upos = .idle ∧ t.faults = s.faults ∧ t.io.requests = s.io.requests ∧
      t.io.responses = s.io.responses ++ [⟨0x00#8, .bytes bs⟩] ∧
      t.io.trace = s.io.trace ++ configureHeadEvents s.params ++ readEvents s.params s.params.calPollReg [v] ++
        configureTailEvents s.params bs ∧
      t.peer = { s.peer with
        mode := .standby
        reg := applyWrites (headWrites s.params ++ [s.params.trim1, s.params.trim2]) s.peer.reg
        idb := t.peer.idb
        rdptr := t.peer.rdptr
        ready := t.peer.ready
        cfgOk := true } ∧
      ((∀ vs, WriteTx.wburst s.params.idReg vs ∉ s.params.calTriggerSeq) → t.peer.idb = s.peer.idb) ∧
      (WriteTx.strobe s.params.strobeRstRdptr ∉ s.params.calTriggerSeq → s.params.fifoReg ≠ s.params.calPollReg →
        s.params.fifoReg ∉ s.params.calStatusRegs → t.peer.rdptr = s.peer.rdptr)

/-- R201: with no limit and a peer that stays in `Calibrating` (it takes no step of its own), `configure` polls for as many
steps as one likes, one poll a step (log 11): every turn emits one read of the poll register with a busy answer, and there
is no response. Nothing of the peer changes, but the read pointer where the poll register is the FIFO register: that it then
moves by one a poll, where R69 says both that a FIFO read consumes and that a poll has no side effect, is the model's choice
(logs 18 and 19). -/
def Obligations.CalibrationHangs : Prop :=
  ∀ (n : Nat) (s : State), s.params.wf = true → s.line = Line.quiet → Polling s → s.params.pollLimit = none →
    s.peer.mode = .calibrating → Quiet (6 * n) s →
    ∃ (t : State) (vs : List Byte), Reaches n s t ∧ Polling t ∧ t.faults = s.faults ∧ t.io.responses = s.io.responses ∧
      t.peer = { s.peer with
        rdptr := if s.params.calPollReg = s.params.fifoReg then s.peer.rdptr + n else s.peer.rdptr } ∧
      vs.length = n ∧ (∀ v ∈ vs, v &&& s.params.calBusyMask ≠ 0#8) ∧
      t.io.trace = s.io.trace ++ vs.flatMap fun v => readEvents s.params s.params.calPollReg [v]

/-- R154, R153, R200, R210: with the limit `some l` and a peer that takes no step of its own, the busy answers counted up to `l`,
one a step (log 11), raise `F_CAL_STUCK` with the last polled byte: response 0x03, no read-back, no trim, no final strobe,
the peer still `Calibrating`, and `cfg_ok` false, also where an earlier `configure` had set it (log 23). Where the poll register is
the FIFO register the read pointer moves by one a poll, the model's choice between R69's two sentences (logs 18 and 19). The
limit 0 ends at the first busy answer as the limit 1 does:
that turn is ConfigureFirstPoll's. -/
def Obligations.StuckCalibrationReported : Prop :=
  ∀ (s : State) (l : Nat), s.params.wf = true → s.line = Line.quiet → Polling s → s.params.pollLimit = some l →
    s.polls < l → s.peer.mode = .calibrating → Quiet (6 * (l - s.polls)) s →
    ∃ (t : State) (vs : List Byte) (v : Byte), Reaches (l - s.polls) s t ∧ t.upos = .idle ∧ t.seq = s.seq ∧
      t.peer = { s.peer with
        rdptr := if s.params.calPollReg = s.params.fifoReg then s.peer.rdptr + (l - s.polls) else s.peer.rdptr
        cfgOk := false } ∧
      t.faults = insertFault (.calStuck v) s.faults ∧ t.io.responses = s.io.responses ++ [⟨0x03#8, .empty⟩] ∧
      vs.length = l - s.polls ∧ vs.getLast? = some v ∧ (∀ w ∈ vs, w &&& s.params.calBusyMask ≠ 0#8) ∧
      t.io.trace = s.io.trace ++ vs.flatMap fun w => readEvents s.params s.params.calPollReg [w]

/-- R154, R82: under A_CAL_COMPLETES for this execution (the premise of log 33: the peer is out of `Calibrating` after some
number of steps), and with no limit, a polling `configure` returns: after finitely many steps it has answered success with
as many status bytes as there are registers, and `cfg_ok` is true. Where the status register itself is polled, the CRC bit
must lie outside the busy mask (log 19). -/
def Obligations.ConfigureReturnsIfCalibrationCompletes : Prop :=
  ∀ s : State, s.params.wf = true → s.line = Line.quiet → Polling s → s.params.pollLimit = none →
    (s.params.calPollReg = s.params.statusReg → s.params.calBusyMask.getLsbD s.params.crcBit.val = false) →
    CalibrationCompletes s →
    ∃ n t bs, Reaches n s t ∧ t.upos = .idle ∧ t.line = Line.quiet ∧ t.peer.cfgOk = true ∧ t.faults = s.faults ∧
      t.io.responses = s.io.responses ++ [⟨0x00#8, .bytes bs⟩] ∧ bs.length = s.params.calStatusRegs.length

/-- R70 (S6): writing a byte twice to a register leaves the registers as writing it once; and so do two runs of `configure`
in succession, however often each polls and whatever the peer does meanwhile. -/
def Obligations.WritesAreIdempotent : Prop :=
  (∀ (s t u : State) (a : RegAddr) (v : Byte), exec (.wreg a v) s = .next t → exec (.wreg a v) t = .next u →
    SameRegs t.peer u.peer) ∧
  (∀ s t u : State, s.params.wf = true → ConfigureDone s t → ConfigureDone t u → SameRegs t.peer u.peer)

/-- R155, R62: `set_identity` sends the four bytes most significant first and sets `idb` to them; nothing else changes but
by the peer's own steps. That the burst on `ID_REG` writes no register is the model's reading of R83 and R87 (log 17). -/
def Obligations.SetIdentityResult : Prop :=
  ∀ (s : State) (id : Ident), s.line = Line.quiet →
    ∃ t bs, bs = [id.extractLsb' 24 8, id.extractLsb' 16 8, id.extractLsb' 8 8, id.extractLsb' 0 8] ∧
      exec (.setIdentity id) s = .next t ∧
      Returned s t (wburstEvents s.params s.params.idReg bs) ⟨0x00#8, .empty⟩ ∧ t.faults = s.faults ∧
      t.peer.idb.toList = bs ∧ t.peer = { (drift 7 s).peer with idb := t.peer.idb }

/-- R156, R62: `get_identity` reads the four bytes and answers them assembled with the first in bits 31:24; the peer changes
by its own steps alone. -/
def Obligations.GetIdentityResult : Prop :=
  ∀ s : State, s.params.wf = true → s.line = Line.quiet →
    ∃ t, exec .getIdentity s = .next t ∧
      Returned s t (readEvents s.params s.params.idReg s.peer.idb.toList)
        ⟨0x00#8, .word (s.peer.idb[0] ++ s.peer.idb[1] ++ s.peer.idb[2] ++ s.peer.idb[3])⟩ ∧
      t.faults = s.faults ∧ t.peer = (drift 9 s).peer

/-- R87: only `set_identity`, `reset`, a burst write on `ID_REG` standing alone and such a burst inside the calibration
trigger can change an identifier byte: no strobe, no step of the peer and no other register write does. -/
def Obligations.IdentifierWrittenOnlyBy : Prop :=
  ∀ (i : Instr) (s t : State), exec i s = .next t → t.peer.idb ≠ s.peer.idb →
    (∃ id, i = .setIdentity id) ∨ i = .reset ∨ (∃ vs, i = .wburst s.params.idReg vs) ∨
      (i = .configure ∧ ∃ vs, WriteTx.wburst s.params.idReg vs ∈ s.params.calTriggerSeq)

/-- R87: `get_identity` after `set_identity id` answers `id`, whatever operations the caller issues between them, `reset`
and another `set_identity` apart (the calibration trigger holding no burst on `ID_REG`), over the steps of the machine: once
it has stepped to where they have all returned, a `configure` of many polls among them, the last response is `id`. -/
def Obligations.IdentityRoundTrip : Prop :=
  ∀ (s t : State) (id : Ident) (ops : List Instr) (n : Nat), s.params.wf = true → s.upos = .idle →
    (∀ vs, WriteTx.wburst s.params.idReg vs ∉ s.params.calTriggerSeq) →
    (∀ i ∈ ops, i.isOperation = true ∧ i ≠ .reset ∧ ∀ jd, i ≠ .setIdentity jd) →
    s.io.requests = (Instr.setIdentity id :: ops ++ [Instr.getIdentity]).map (encode s.params) →
    Reaches n s t → t.upos = .idle → t.io.requests = [] →
    t.io.responses.getLast? = some ⟨0x00#8, .word id⟩

/-- R157, R74: `tune` in any state emits the four transactions in their order and returns; the read pointer is 0, `chan` is
the channel and the reception listens on it (R89); every other register, the identifier and `cfg_ok` keep their values, and
no fault but `F_CALL_ORDER` of this operation is added. -/
def Obligations.TuneResult : Prop :=
  ∀ (s : State) (c : Byte), s.params.wf = true → s.line = Line.quiet →
    ∃ t, exec (.tune c) s = .next t ∧ Returned s t (tuneEvents s.params c) ⟨0x00#8, .empty⟩ ∧ t.peer.rdptr = 0 ∧
      t.peer.chan s.params = some c ∧ t.peer.rxChan = c ∧ SameRegsBut s.params.channelReg s.peer t.peer ∧
      t.peer.idb = s.peer.idb ∧ t.peer.cfgOk = s.peer.cfgOk ∧ (∀ f ∈ s.faults, f ∈ t.faults) ∧
      (∀ f ∈ t.faults, f ∈ s.faults ∨ ∃ m, f = .callOrder (some .tune) m)

/-- R157, R163: `tune` on a configured chip that does not calibrate records no fault and arms the receiver: unless a frame
arrives before the last event, the mode is `Receiving`, nothing valid is in the FIFO and the pin is false; if one does, the
mode is `Filled` and the pin true. -/
def Obligations.TuneArmsReceiver : Prop :=
  ∀ (s : State) (c : Byte), s.params.wf = true → s.line = Line.quiet → s.peer.cfgOk = true →
    s.peer.mode ≠ .calibrating →
    ∃ t, exec (.tune c) s = .next t ∧ t.faults = s.faults ∧
      ((t.peer.mode = .receiving ∧ t.peer.filledLen = 0 ∧ t.peer.ready = false) ∨
        (t.peer.mode = .filled ∧ t.peer.filledLen = frameLen ∧ t.peer.ready = true)) ∧
      (s.io.script[12]? = some .stay → t.peer.mode = .receiving)

/-- R241, R204: `tune` with no completed `configure` since the last `reset` emits the same events and answers success, and
records `F_CALL_ORDER` with the operation and the mode at the strobe, which is `Standby` unless the chip was calibrating. -/
def Obligations.TuneBeforeConfigureRecorded : Prop :=
  ∀ (s : State) (c : Byte), s.params.wf = true → s.line = Line.quiet → s.peer.cfgOk = false →
    ∃ t m, exec (.tune c) s = .next t ∧ Returned s t (tuneEvents s.params c) ⟨0x00#8, .empty⟩ ∧
      t.faults = insertFault (.callOrder (some .tune) m) s.faults ∧
      (s.peer.mode ≠ .calibrating → m = .standby) ∧ t.peer.cfgOk = false

/-- R158: `rearm` emits the two strobes and returns; the read pointer is 0, no register and no identifier byte changes, the
reception listens on the channel in force, where one is known; from `Standby`, `Filled` or `Receiving` with `cfg_ok` true no fault is recorded
and the receiver is armed. -/
def Obligations.RearmResult : Prop :=
  ∀ s : State, s.params.wf = true → s.line = Line.quiet →
    ∃ t, exec .rearm s = .next t ∧ Returned s t (rearmEvents s.params) ⟨0x00#8, .empty⟩ ∧ t.peer.rdptr = 0 ∧
      SameRegs s.peer t.peer ∧ t.peer.idb = s.peer.idb ∧ t.peer.cfgOk = s.peer.cfgOk ∧
      (∀ b, s.peer.chan s.params = some b → t.peer.rxChan = b) ∧
      (∀ f ∈ t.faults, f ∈ s.faults ∨ ∃ m, f = .callOrder (some .rearm) m) ∧
      (s.peer.cfgOk = true → s.peer.mode ∈ [Mode.standby, .filled, .receiving] → t.faults = s.faults ∧
        ((t.peer.mode = .receiving ∧ t.peer.filledLen = 0 ∧ t.peer.ready = false) ∨
          (t.peer.mode = .filled ∧ t.peer.filledLen = frameLen ∧ t.peer.ready = true)) ∧
        (s.io.script[5]? = some .stay → t.peer.mode = .receiving))

/-- R204: `rearm` whose receive-arm strobe finds a chip that is not configured, or one in `Idle` or `Calibrating`, records
`F_CALL_ORDER` with the operation and the mode at that strobe, five places on, whatever the peer does meanwhile, and answers
success all the same; otherwise it records nothing. -/
def Obligations.RearmOutOfOrderRecorded : Prop :=
  ∀ s : State, s.params.wf = true →
    ∃ t, exec .rearm s = .next t ∧ t.io.responses = s.io.responses ++ [⟨0x00#8, .empty⟩] ∧
      (s.peer.cfgOk = false ∨ (drift 5 s).peer.mode ∈ [Mode.idle, .calibrating] →
        t.faults = insertFault (.callOrder (some .rearm) (drift 5 s).peer.mode) s.faults) ∧
      (s.peer.cfgOk = true ∧ (drift 5 s).peer.mode ∉ [Mode.idle, .calibrating] → t.faults = s.faults)

/-- R159, R85, R135, R28: `poll_ready` emits one read of the pin and answers its level: false in `Receiving`, true in
`Filled`; the peer changes by its own steps alone. -/
def Obligations.PollReadyResult : Prop :=
  ∀ s : State, s.line = Line.quiet → PinAgrees s.peer →
    ∃ t b, exec .pollReady s = .next t ∧ Returned s t [.gpioRead b] ⟨0x00#8, .bit b⟩ ∧ t.faults = s.faults ∧
      t.peer = (drift 1 s).peer ∧
      ((drift 1 s).peer.mode = .receiving → b = false) ∧ ((drift 1 s).peer.mode = .filled → b = true)

/-- R160, R86: `crc_failed` reads the status register and answers its bit `CRC_BIT`, which is the CRC flag where the peer is
in `Filled` at the data byte; the peer changes by its own steps alone. -/
def Obligations.CrcFailedResult : Prop :=
  ∀ s : State, s.params.wf = true → s.line = Line.quiet →
    ∃ t v, exec .crcFailed s = .next t ∧
      Returned s t (readEvents s.params s.params.statusReg [v])
        ⟨0x00#8, .bit (v &&& (0x01#8 <<< s.params.crcBit.val) != 0#8)⟩ ∧
      t.faults = s.faults ∧ t.peer = (drift 6 s).peer ∧
      ((drift 4 s).peer.mode = .filled →
        (v &&& (0x01#8 <<< s.params.crcBit.val) != 0#8) = (drift 4 s).peer.crcf)

/-- R161, R205: `read_frame` reads 21 bytes from the FIFO register and answers them in order; the read pointer moves by 21
and nothing else of the peer changes but by its own steps; a broken precondition is recorded with the mode, the flag and the
read pointer at entry, and changes nothing else. -/
def Obligations.ReadFrameTransfers : Prop :=
  ∀ s : State, s.line = Line.quiet →
    ∃ t bs, exec .readFrame s = .next t ∧ bs.length = 21 ∧
      Returned s t (readEvents s.params s.params.fifoReg bs) ⟨0x00#8, .bytes bs⟩ ∧
      t.peer = { (drift 26 s).peer with rdptr := s.peer.rdptr + 21 } ∧
      (s.peer.mode = .filled ∧ s.peer.crcf = false → t.faults = s.faults) ∧
      (¬(s.peer.mode = .filled ∧ s.peer.crcf = false) →
        t.faults = insertFault (.precondReadFrame s.peer.mode s.peer.crcf s.peer.rdptr) s.faults)

/-- R86, R63: in `Filled` with no CRC failure, every byte of the frame whose position is below `filled_len` is the FIFO byte
at that position, and from read pointer 0 with a whole frame stored the answer is exactly that frame. -/
def Obligations.ReadFrameReturnsFrame : Prop :=
  ∀ s : State, s.params.wf = true → FifoAgrees s.peer → s.peer.mode = .filled → s.peer.crcf = false →
    ∃ t bs, exec .readFrame s = .next t ∧ t.io.responses = s.io.responses ++ [⟨0x00#8, .bytes bs⟩] ∧
      (∀ i < 21, s.peer.rdptr + i < s.peer.filledLen → bs[i]? = s.peer.fifo[s.peer.rdptr + i]?) ∧
      (s.peer.rdptr = 0 → s.peer.filledLen = frameLen → bs = s.peer.fifo.take 21)

/-- R161, R86, R205, H6 of R240: where R86 fixes no byte or the obligation is broken, `read_frame` answers 21 draws, each a
free value of its own (log 4): in `Filled` from read pointer `filled_len` on, where the stated precondition is met and no
fault is recorded; in `Filled` with a CRC failure, whatever the FIFO stores (V28); and in any other mode (V27), whatever the
peer does meanwhile (log 37 where a frame arrives), `F_PRECOND_READ_FRAME` being recorded. Where the FIFO register is the
calibration poll register too, a draw that no broken obligation asks for keeps its busy bits clear (R82, log 19). -/
def Obligations.SecondReadFrameDraws : Prop :=
  ∀ s : State, s.params.wf = true →
    (s.peer.mode ≠ .filled ∨ s.peer.crcf = true ∨ s.peer.filledLen ≤ s.peer.rdptr) →
    ∃ t, exec .readFrame s = .next t ∧ t.peer.rdptr = s.peer.rdptr + 21 ∧
      (s.peer.mode = .filled ∧ s.peer.crcf = false → t.faults = s.faults) ∧
      (¬(s.peer.mode = .filled ∧ s.peer.crcf = false) →
        t.faults = insertFault (.precondReadFrame s.peer.mode s.peer.crcf s.peer.rdptr) s.faults) ∧
      t.io.responses = s.io.responses ++
        [⟨0x00#8, .bytes ((List.range 21).map fun i =>
          if s.peer.mode = .filled ∧ s.peer.crcf = false ∧ s.params.fifoReg = s.params.calPollReg then
            Config.freeByte (s.io.tick + 4 + i) &&& ~~~s.params.calBusyMask
          else Config.freeByte (s.io.tick + 4 + i))⟩]

/-- R75, R84, R85, R86, R209 (a): the receive cycle. On a configured chip, `tune`; a frame arrives right afterwards, its CRC
failed or not; `poll_ready` then answers true and `crc_failed` whether it failed. A good frame is then read: `read_frame`
answers exactly the frame. A failed one is not: `rearm` arms the receiver again. No fault is recorded either way. -/
def Obligations.ReceiveCycle : Prop :=
  ∀ (s : State) (ch : Byte) (f : Vector Byte 21) (c : Bool), s.params.wf = true → s.line = Line.quiet →
    s.peer.cfgOk = true → s.peer.mode ≠ .calibrating →
    List.replicate 13 PeerMove.stay ++ [.frameArrive f c] <+: s.io.script →
    ∃ t, RunsAll [.tune ch, .pollReady, .crcFailed] s t ∧ t.faults = s.faults ∧ t.peer.mode = .filled ∧
      t.peer.crcf = c ∧ t.peer.rdptr = 0 ∧ t.peer.rxChan = ch ∧
      t.io.responses = s.io.responses ++ [⟨0x00#8, .empty⟩, ⟨0x00#8, .bit true⟩, ⟨0x00#8, .bit c⟩] ∧
      (c = false → ∃ u, Performed .readFrame t u ∧ u.faults = s.faults ∧ u.peer.rdptr = 21 ∧
        u.io.responses = t.io.responses ++ [⟨0x00#8, .bytes f.toList⟩]) ∧
      (c = true → ∃ u, Performed .rearm t u ∧ u.faults = s.faults ∧ u.peer.rdptr = 0 ∧ u.peer.rxChan = ch ∧
        u.peer.mode ∈ [Mode.receiving, .filled] ∧ u.io.responses = t.io.responses ++ [⟨0x00#8, .empty⟩])

/-- R231, R241: after `reset` and a `configure` run to its end, in whatever state the chip was and whatever it does
meanwhile (neither sequence of the record holding a receive-arm strobe), the chip is in `Standby` with `cfg_ok` true, no
fault is recorded, and a `tune` then records none. -/
def Obligations.BootOrderArmsWithoutFault : Prop :=
  ∀ (s t u : State) (c : Byte), s.params.wf = true → s.line = Line.quiet →
    WriteTx.strobe s.params.strobeRx ∉ s.params.resetSeq ++ s.params.calTriggerSeq →
    exec .reset s = .next t → ConfigureDone t u →
    u.peer.mode = .standby ∧ u.peer.cfgOk = true ∧ u.faults = s.faults ∧
      ∃ v, exec (.tune c) u = .next v ∧ v.faults = s.faults

/-! ### Rules of the whole machine -/

/-- R24, R211: `FAULTS` is a set, empty at reset, and no step removes a fault. -/
def Obligations.FaultsNeverRemoved : Prop :=
  State.reset.faults = [] ∧ ∀ s t : State, step s = .next t →
    (∀ f ∈ s.faults, f ∈ t.faults) ∧ (s.faults.Nodup → t.faults.Nodup)

/-- R84, R34: a step changes a byte of the FIFO only where a frame arrives at one of the places the peer has in that step,
or where the step is a `reset`: no strobe, no register write and no read does. -/
def Obligations.FifoWrittenOnlyByFrames : Prop :=
  ∀ s t : State, step s = .next t → t.peer.fifo ≠ s.peer.fifo →
    (∃ rest, s.upos = .idle ∧ s.io.requests = .command 0x0100000000#40 :: rest) ∨
    ∃ n f c, s.io.tick + n < t.io.tick ∧ (drift n s).io.nextMove = .frameArrive f c

/-- R103: a step gives at most one response; its status is 0 or the code of a detected fault that `FAULTS` holds, and then
the payload is empty. A ghost fault never shows in a status. -/
def Obligations.StatusReportsDetectedFaults : Prop :=
  ∀ s t : State, step s = .next t →
    t.io.responses = s.io.responses ∨
    ∃ r, t.io.responses = s.io.responses ++ [r] ∧
      (r.status = 0x00#8 ∨ (r.status ∈ [0x01#8, 0x02#8, 0x03#8] ∧ r.payload = .empty ∧
        ∃ f ∈ t.faults, f.detected = true ∧ f.code = r.status))

/-- R241, R38, R154: `cfg_ok` becomes true only where `configure` ends with success, and false only in `reset` or where
`configure` ends with `F_CAL_STUCK` (log 23). -/
def Obligations.CfgOkDiscipline : Prop :=
  ∀ s t : State, step s = .next t → t.peer.cfgOk ≠ s.peer.cfgOk →
    (t.peer.cfgOk = true ∧ t.upos = .idle ∧ (∃ bs, t.io.responses = s.io.responses ++ [⟨0x00#8, .bytes bs⟩]) ∧
      (Polling s ∨ ∃ rest, s.upos = .idle ∧ s.io.requests = .command 0x0200000000#40 :: rest)) ∨
    (t.peer.cfgOk = false ∧ ∃ rest, s.upos = .idle ∧ s.io.requests = .command 0x0100000000#40 :: rest) ∨
    (t.peer.cfgOk = false ∧ t.upos = .idle ∧ t.io.responses = s.io.responses ++ [⟨0x03#8, .empty⟩] ∧
      (Polling s ∨ ∃ rest, s.upos = .idle ∧ s.io.requests = .command 0x0200000000#40 :: rest))

/-! ### The syntax -/

/-- R109: the line of every operation, with a comment after it or without, reads back as that operation (log 27). -/
def Obligations.LinesReadBack : Prop :=
  ∀ (i : Instr) (comment : List Char), i.isOperation = true →
    ∃ l, Text.lineOf i = some l ∧ Text.parseLine l = .ok (some i) ∧
      Text.parseLine (l ++ ' ' :: ';' :: comment) = .ok (some i)

/-- R110: `hop` is `advance`, then `tune` of the channel that `advance` answered, the channel of the new cursor. -/
def Obligations.HopTunesNewChannel : Prop :=
  ∀ s : State, s.seq.loaded = true →
    Pseudo.issue .hop [] = some .advance ∧
    ∃ t r, exec .advance s = .next t ∧ t.io.responses = s.io.responses ++ [r] ∧
      Pseudo.issue .hop [r] = some (.tune (channel s.params s.seq.id (s.seq.cursor + 1))) ∧
      Pseudo.issue .hop [r, ⟨0x00#8, .empty⟩] = none

/-- R110: `init` is `reset` then `configure`; `hop` is `advance` then `tune` of its answer; `bind_listen` is `tune 0x00`;
`try_receive` polls, then tests the CRC where a frame is ready, then re-arms or reads. What a caller does with a response
of another shape is the model's (log 28) and not said here. -/
def Obligations.PseudoOperationsExpand : Prop :=
  Pseudo.issue .init [] = some .reset ∧ Pseudo.issue .init [⟨0x00#8, .empty⟩] = some .configure ∧
  (∀ r q, Pseudo.issue .init [r, q] = none) ∧
  Pseudo.issue .hop [] = some .advance ∧
  (∀ c, Pseudo.issue .hop [⟨0x00#8, .byte c⟩] = some (.tune c)) ∧
  Pseudo.issue .bindListen [] = some (.tune 0x00#8) ∧
  (∀ r, Pseudo.issue .bindListen [r] = none) ∧
  Pseudo.issue .tryReceive [] = some .pollReady ∧
  Pseudo.issue .tryReceive [⟨0x00#8, .bit false⟩] = none ∧
  Pseudo.issue .tryReceive [⟨0x00#8, .bit true⟩] = some .crcFailed ∧
  Pseudo.issue .tryReceive [⟨0x00#8, .bit true⟩, ⟨0x00#8, .bit true⟩] = some .rearm ∧
  Pseudo.issue .tryReceive [⟨0x00#8, .bit true⟩, ⟨0x00#8, .bit false⟩] = some .readFrame

end
end

