-- ==== Sys2Proof/Laws/State.lean ====
section
/-! SUPPORT. The small lemmas of the state updates of Machine/Ops.lean: one per field per update, true by rfl. -/

namespace Sys2Proof.Machine

@[simp] theorem peerTurn_params (s : State) : (peerTurn s).params = s.params := rfl
@[simp] theorem peerTurn_seq (s : State) : (peerTurn s).seq = s.seq := rfl
@[simp] theorem peerTurn_line (s : State) : (peerTurn s).line = s.line := rfl
@[simp] theorem peerTurn_faults (s : State) : (peerTurn s).faults = s.faults := rfl
@[simp] theorem peerTurn_upos (s : State) : (peerTurn s).upos = s.upos := rfl
@[simp] theorem peerTurn_polls (s : State) : (peerTurn s).polls = s.polls := rfl
@[simp] theorem peerTurn_peer (s : State) : (peerTurn s).peer = s.peer.move s.io.nextMove (Config.freeReady .move s.io.tick) := rfl
@[simp] theorem peerTurn_requests (s : State) : (peerTurn s).io.requests = s.io.requests := rfl
@[simp] theorem peerTurn_responses (s : State) : (peerTurn s).io.responses = s.io.responses := rfl
@[simp] theorem peerTurn_trace (s : State) : (peerTurn s).io.trace = s.io.trace := rfl
@[simp] theorem peerTurn_script (s : State) : (peerTurn s).io.script = s.io.script.tail := rfl
@[simp] theorem peerTurn_tick (s : State) : (peerTurn s).io.tick = s.io.tick + 1 := rfl

@[simp] theorem record_params (e : Event) (s : State) : (record e s).params = s.params := rfl
@[simp] theorem record_seq (e : Event) (s : State) : (record e s).seq = s.seq := rfl
@[simp] theorem record_line (e : Event) (s : State) : (record e s).line = s.line.after e := rfl
@[simp] theorem record_faults (e : Event) (s : State) : (record e s).faults = s.faults := rfl
@[simp] theorem record_upos (e : Event) (s : State) : (record e s).upos = s.upos := rfl
@[simp] theorem record_polls (e : Event) (s : State) : (record e s).polls = s.polls := rfl
@[simp] theorem record_peer (e : Event) (s : State) : (record e s).peer = s.peer := rfl
@[simp] theorem record_requests (e : Event) (s : State) : (record e s).io.requests = s.io.requests := rfl
@[simp] theorem record_responses (e : Event) (s : State) : (record e s).io.responses = s.io.responses := rfl
@[simp] theorem record_trace (e : Event) (s : State) : (record e s).io.trace = s.io.trace ++ [e] := rfl
@[simp] theorem record_script (e : Event) (s : State) : (record e s).io.script = s.io.script := rfl
@[simp] theorem record_tick (e : Event) (s : State) : (record e s).io.tick = s.io.tick := rfl

@[simp] theorem raise_params (f : FaultRecord) (s : State) : (raise f s).params = s.params := rfl
@[simp] theorem raise_seq (f : FaultRecord) (s : State) : (raise f s).seq = s.seq := rfl
@[simp] theorem raise_line (f : FaultRecord) (s : State) : (raise f s).line = s.line := rfl
@[simp] theorem raise_faults (f : FaultRecord) (s : State) : (raise f s).faults = insertFault f s.faults := rfl
@[simp] theorem raise_upos (f : FaultRecord) (s : State) : (raise f s).upos = s.upos := rfl
@[simp] theorem raise_polls (f : FaultRecord) (s : State) : (raise f s).polls = s.polls := rfl
@[simp] theorem raise_peer (f : FaultRecord) (s : State) : (raise f s).peer = s.peer := rfl
@[simp] theorem raise_requests (f : FaultRecord) (s : State) : (raise f s).io.requests = s.io.requests := rfl
@[simp] theorem raise_responses (f : FaultRecord) (s : State) : (raise f s).io.responses = s.io.responses := rfl
@[simp] theorem raise_trace (f : FaultRecord) (s : State) : (raise f s).io.trace = s.io.trace := rfl
@[simp] theorem raise_script (f : FaultRecord) (s : State) : (raise f s).io.script = s.io.script := rfl
@[simp] theorem raise_tick (f : FaultRecord) (s : State) : (raise f s).io.tick = s.io.tick := rfl

@[simp] theorem raiseIf_params (c : Bool) (f : FaultRecord) (s : State) : (raiseIf c f s).params = s.params := rfl
@[simp] theorem raiseIf_seq (c : Bool) (f : FaultRecord) (s : State) : (raiseIf c f s).seq = s.seq := rfl
@[simp] theorem raiseIf_line (c : Bool) (f : FaultRecord) (s : State) : (raiseIf c f s).line = s.line := rfl
@[simp] theorem raiseIf_faults (c : Bool) (f : FaultRecord) (s : State) : (raiseIf c f s).faults = if c then insertFault f s.faults else s.faults := rfl
@[simp] theorem raiseIf_upos (c : Bool) (f : FaultRecord) (s : State) : (raiseIf c f s).upos = s.upos := rfl
@[simp] theorem raiseIf_polls (c : Bool) (f : FaultRecord) (s : State) : (raiseIf c f s).polls = s.polls := rfl
@[simp] theorem raiseIf_peer (c : Bool) (f : FaultRecord) (s : State) : (raiseIf c f s).peer = s.peer := rfl
@[simp] theorem raiseIf_requests (c : Bool) (f : FaultRecord) (s : State) : (raiseIf c f s).io.requests = s.io.requests := rfl
@[simp] theorem raiseIf_responses (c : Bool) (f : FaultRecord) (s : State) : (raiseIf c f s).io.responses = s.io.responses := rfl
@[simp] theorem raiseIf_trace (c : Bool) (f : FaultRecord) (s : State) : (raiseIf c f s).io.trace = s.io.trace := rfl
@[simp] theorem raiseIf_script (c : Bool) (f : FaultRecord) (s : State) : (raiseIf c f s).io.script = s.io.script := rfl
@[simp] theorem raiseIf_tick (c : Bool) (f : FaultRecord) (s : State) : (raiseIf c f s).io.tick = s.io.tick := rfl

@[simp] theorem advanceUpos_params (s : State) : (advanceUpos s).params = s.params := rfl
@[simp] theorem advanceUpos_seq (s : State) : (advanceUpos s).seq = s.seq := rfl
@[simp] theorem advanceUpos_line (s : State) : (advanceUpos s).line = s.line := rfl
@[simp] theorem advanceUpos_faults (s : State) : (advanceUpos s).faults = s.faults := rfl
@[simp] theorem advanceUpos_upos (s : State) : (advanceUpos s).upos = s.upos.next := rfl
@[simp] theorem advanceUpos_polls (s : State) : (advanceUpos s).polls = s.polls := rfl
@[simp] theorem advanceUpos_peer (s : State) : (advanceUpos s).peer = s.peer := rfl
@[simp] theorem advanceUpos_requests (s : State) : (advanceUpos s).io.requests = s.io.requests := rfl
@[simp] theorem advanceUpos_responses (s : State) : (advanceUpos s).io.responses = s.io.responses := rfl
@[simp] theorem advanceUpos_trace (s : State) : (advanceUpos s).io.trace = s.io.trace := rfl
@[simp] theorem advanceUpos_script (s : State) : (advanceUpos s).io.script = s.io.script := rfl
@[simp] theorem advanceUpos_tick (s : State) : (advanceUpos s).io.tick = s.io.tick := rfl

@[simp] theorem begin_params (op : OpName) (s : State) : (begin op s).params = s.params := rfl
@[simp] theorem begin_seq (op : OpName) (s : State) : (begin op s).seq = s.seq := rfl
@[simp] theorem begin_line (op : OpName) (s : State) : (begin op s).line = s.line := rfl
@[simp] theorem begin_faults (op : OpName) (s : State) : (begin op s).faults = s.faults := rfl
@[simp] theorem begin_upos (op : OpName) (s : State) : (begin op s).upos = .running op 0 := rfl
@[simp] theorem begin_polls (op : OpName) (s : State) : (begin op s).polls = s.polls := rfl
@[simp] theorem begin_peer (op : OpName) (s : State) : (begin op s).peer = s.peer := rfl
@[simp] theorem begin_requests (op : OpName) (s : State) : (begin op s).io.requests = s.io.requests := rfl
@[simp] theorem begin_responses (op : OpName) (s : State) : (begin op s).io.responses = s.io.responses := rfl
@[simp] theorem begin_trace (op : OpName) (s : State) : (begin op s).io.trace = s.io.trace := rfl
@[simp] theorem begin_script (op : OpName) (s : State) : (begin op s).io.script = s.io.script := rfl
@[simp] theorem begin_tick (op : OpName) (s : State) : (begin op s).io.tick = s.io.tick := rfl

@[simp] theorem finish_params (r : Response) (s : State) : (finish r s).params = s.params := rfl
@[simp] theorem finish_seq (r : Response) (s : State) : (finish r s).seq = s.seq := rfl
@[simp] theorem finish_line (r : Response) (s : State) : (finish r s).line = s.line := rfl
@[simp] theorem finish_faults (r : Response) (s : State) : (finish r s).faults = s.faults := rfl
@[simp] theorem finish_upos (r : Response) (s : State) : (finish r s).upos = .idle := rfl
@[simp] theorem finish_polls (r : Response) (s : State) : (finish r s).polls = s.polls := rfl
@[simp] theorem finish_peer (r : Response) (s : State) : (finish r s).peer = s.peer := rfl
@[simp] theorem finish_requests (r : Response) (s : State) : (finish r s).io.requests = s.io.requests := rfl
@[simp] theorem finish_responses (r : Response) (s : State) : (finish r s).io.responses = s.io.responses ++ [r] := rfl
@[simp] theorem finish_trace (r : Response) (s : State) : (finish r s).io.trace = s.io.trace := rfl
@[simp] theorem finish_script (r : Response) (s : State) : (finish r s).io.script = s.io.script := rfl
@[simp] theorem finish_tick (r : Response) (s : State) : (finish r s).io.tick = s.io.tick := rfl

@[simp] theorem strobeStandby_params (s : State) : (strobeStandby s).params = s.params := rfl
@[simp] theorem strobeStandby_seq (s : State) : (strobeStandby s).seq = s.seq := rfl
@[simp] theorem strobeStandby_line (s : State) : (strobeStandby s).line = s.line := rfl
@[simp] theorem strobeStandby_faults (s : State) : (strobeStandby s).faults = s.faults := rfl
@[simp] theorem strobeStandby_upos (s : State) : (strobeStandby s).upos = s.upos := rfl
@[simp] theorem strobeStandby_polls (s : State) : (strobeStandby s).polls = s.polls := rfl
@[simp] theorem strobeStandby_mode (s : State) : (strobeStandby s).peer.mode = if s.peer.mode = .calibrating then Config.freeMode .strobe s.io.tick else .standby := rfl
@[simp] theorem strobeStandby_reg (s : State) : (strobeStandby s).peer.reg = s.peer.reg := rfl
@[simp] theorem strobeStandby_idb (s : State) : (strobeStandby s).peer.idb = s.peer.idb := rfl
@[simp] theorem strobeStandby_fifo (s : State) : (strobeStandby s).peer.fifo = s.peer.fifo := rfl
@[simp] theorem strobeStandby_rdptr (s : State) : (strobeStandby s).peer.rdptr = s.peer.rdptr := rfl
@[simp] theorem strobeStandby_filledLen (s : State) : (strobeStandby s).peer.filledLen = s.peer.filledLen := rfl
@[simp] theorem strobeStandby_crcf (s : State) : (strobeStandby s).peer.crcf = s.peer.crcf := rfl
@[simp] theorem strobeStandby_ready (s : State) : (strobeStandby s).peer.ready = pinLevel (if s.peer.mode = .calibrating then Config.freeMode .strobe s.io.tick else .standby) (Config.freeReady .strobe s.io.tick) := rfl
@[simp] theorem strobeStandby_rxChan (s : State) : (strobeStandby s).peer.rxChan = s.peer.rxChan := rfl
@[simp] theorem strobeStandby_cfgOk (s : State) : (strobeStandby s).peer.cfgOk = s.peer.cfgOk := rfl
@[simp] theorem strobeStandby_requests (s : State) : (strobeStandby s).io.requests = s.io.requests := rfl
@[simp] theorem strobeStandby_responses (s : State) : (strobeStandby s).io.responses = s.io.responses := rfl
@[simp] theorem strobeStandby_trace (s : State) : (strobeStandby s).io.trace = s.io.trace := rfl
@[simp] theorem strobeStandby_script (s : State) : (strobeStandby s).io.script = s.io.script := rfl
@[simp] theorem strobeStandby_tick (s : State) : (strobeStandby s).io.tick = s.io.tick := rfl

@[simp] theorem strobeRstRdptr_params (s : State) : (strobeRstRdptr s).params = s.params := rfl
@[simp] theorem strobeRstRdptr_seq (s : State) : (strobeRstRdptr s).seq = s.seq := rfl
@[simp] theorem strobeRstRdptr_line (s : State) : (strobeRstRdptr s).line = s.line := rfl
@[simp] theorem strobeRstRdptr_faults (s : State) : (strobeRstRdptr s).faults = s.faults := rfl
@[simp] theorem strobeRstRdptr_upos (s : State) : (strobeRstRdptr s).upos = s.upos := rfl
@[simp] theorem strobeRstRdptr_polls (s : State) : (strobeRstRdptr s).polls = s.polls := rfl
@[simp] theorem strobeRstRdptr_mode (s : State) : (strobeRstRdptr s).peer.mode = s.peer.mode := rfl
@[simp] theorem strobeRstRdptr_reg (s : State) : (strobeRstRdptr s).peer.reg = s.peer.reg := rfl
@[simp] theorem strobeRstRdptr_idb (s : State) : (strobeRstRdptr s).peer.idb = s.peer.idb := rfl
@[simp] theorem strobeRstRdptr_fifo (s : State) : (strobeRstRdptr s).peer.fifo = s.peer.fifo := rfl
@[simp] theorem strobeRstRdptr_rdptr (s : State) : (strobeRstRdptr s).peer.rdptr = 0 := rfl
@[simp] theorem strobeRstRdptr_filledLen (s : State) : (strobeRstRdptr s).peer.filledLen = s.peer.filledLen := rfl
@[simp] theorem strobeRstRdptr_crcf (s : State) : (strobeRstRdptr s).peer.crcf = s.peer.crcf := rfl
@[simp] theorem strobeRstRdptr_ready (s : State) : (strobeRstRdptr s).peer.ready = s.peer.ready := rfl
@[simp] theorem strobeRstRdptr_rxChan (s : State) : (strobeRstRdptr s).peer.rxChan = s.peer.rxChan := rfl
@[simp] theorem strobeRstRdptr_cfgOk (s : State) : (strobeRstRdptr s).peer.cfgOk = s.peer.cfgOk := rfl
@[simp] theorem strobeRstRdptr_requests (s : State) : (strobeRstRdptr s).io.requests = s.io.requests := rfl
@[simp] theorem strobeRstRdptr_responses (s : State) : (strobeRstRdptr s).io.responses = s.io.responses := rfl
@[simp] theorem strobeRstRdptr_trace (s : State) : (strobeRstRdptr s).io.trace = s.io.trace := rfl
@[simp] theorem strobeRstRdptr_script (s : State) : (strobeRstRdptr s).io.script = s.io.script := rfl
@[simp] theorem strobeRstRdptr_tick (s : State) : (strobeRstRdptr s).io.tick = s.io.tick := rfl

@[simp] theorem strobeRx_params (s : State) : (strobeRx s).params = s.params := rfl
@[simp] theorem strobeRx_seq (s : State) : (strobeRx s).seq = s.seq := rfl
@[simp] theorem strobeRx_line (s : State) : (strobeRx s).line = s.line := rfl
@[simp] theorem strobeRx_faults (s : State) : (strobeRx s).faults = if callOrderBroken s.peer then insertFault (.callOrder s.upos.op? s.peer.mode) s.faults else s.faults := rfl
@[simp] theorem strobeRx_upos (s : State) : (strobeRx s).upos = s.upos := rfl
@[simp] theorem strobeRx_polls (s : State) : (strobeRx s).polls = s.polls := rfl
@[simp] theorem strobeRx_mode (s : State) : (strobeRx s).peer.mode = if callOrderBroken s.peer then Config.freeMode .strobe s.io.tick else .receiving := rfl
@[simp] theorem strobeRx_reg (s : State) : (strobeRx s).peer.reg = s.peer.reg := rfl
@[simp] theorem strobeRx_idb (s : State) : (strobeRx s).peer.idb = s.peer.idb := rfl
@[simp] theorem strobeRx_fifo (s : State) : (strobeRx s).peer.fifo = s.peer.fifo := rfl
@[simp] theorem strobeRx_rdptr (s : State) : (strobeRx s).peer.rdptr = s.peer.rdptr := rfl
@[simp] theorem strobeRx_filledLen (s : State) : (strobeRx s).peer.filledLen = if Mode.armable s.peer.mode then 0 else s.peer.filledLen := rfl
@[simp] theorem strobeRx_crcf (s : State) : (strobeRx s).peer.crcf = if Mode.armable s.peer.mode then Config.freeCrc .strobe s.io.tick else s.peer.crcf := rfl
@[simp] theorem strobeRx_ready (s : State) : (strobeRx s).peer.ready = pinLevel (if callOrderBroken s.peer then Config.freeMode .strobe s.io.tick else .receiving) (Config.freeReady .strobe s.io.tick) := rfl
/-- A reception armed on a known channel listens on it (spec/20_memory.md R89). -/
theorem armedChan_of_chan {s : State} {c : Byte} (h : s.peer.chan s.params = some c) : armedChan s = c := by
  simp [armedChan, h]

@[simp] theorem strobeRx_rxChan (s : State) : (strobeRx s).peer.rxChan = armedChan s := rfl
@[simp] theorem strobeRx_cfgOk (s : State) : (strobeRx s).peer.cfgOk = s.peer.cfgOk := rfl
@[simp] theorem strobeRx_requests (s : State) : (strobeRx s).io.requests = s.io.requests := rfl
@[simp] theorem strobeRx_responses (s : State) : (strobeRx s).io.responses = s.io.responses := rfl
@[simp] theorem strobeRx_trace (s : State) : (strobeRx s).io.trace = s.io.trace := rfl
@[simp] theorem strobeRx_script (s : State) : (strobeRx s).io.script = s.io.script := rfl
@[simp] theorem strobeRx_tick (s : State) : (strobeRx s).io.tick = s.io.tick := rfl

@[simp] theorem writeReg_params (a : RegAddr) (v : Byte) (s : State) : (writeReg a v s).params = s.params := rfl
@[simp] theorem writeReg_seq (a : RegAddr) (v : Byte) (s : State) : (writeReg a v s).seq = s.seq := rfl
@[simp] theorem writeReg_line (a : RegAddr) (v : Byte) (s : State) : (writeReg a v s).line = s.line := rfl
@[simp] theorem writeReg_faults (a : RegAddr) (v : Byte) (s : State) : (writeReg a v s).faults = s.faults := rfl
@[simp] theorem writeReg_upos (a : RegAddr) (v : Byte) (s : State) : (writeReg a v s).upos = s.upos := rfl
@[simp] theorem writeReg_polls (a : RegAddr) (v : Byte) (s : State) : (writeReg a v s).polls = s.polls := rfl
@[simp] theorem writeReg_mode (a : RegAddr) (v : Byte) (s : State) : (writeReg a v s).peer.mode = s.peer.mode := rfl
@[simp] theorem writeReg_reg (a : RegAddr) (v : Byte) (s : State) : (writeReg a v s).peer.reg = s.peer.reg.write a.toNat v := rfl
@[simp] theorem writeReg_idb (a : RegAddr) (v : Byte) (s : State) : (writeReg a v s).peer.idb = s.peer.idb := rfl
@[simp] theorem writeReg_fifo (a : RegAddr) (v : Byte) (s : State) : (writeReg a v s).peer.fifo = s.peer.fifo := rfl
@[simp] theorem writeReg_rdptr (a : RegAddr) (v : Byte) (s : State) : (writeReg a v s).peer.rdptr = s.peer.rdptr := rfl
@[simp] theorem writeReg_filledLen (a : RegAddr) (v : Byte) (s : State) : (writeReg a v s).peer.filledLen = s.peer.filledLen := rfl
@[simp] theorem writeReg_crcf (a : RegAddr) (v : Byte) (s : State) : (writeReg a v s).peer.crcf = s.peer.crcf := rfl
@[simp] theorem writeReg_ready (a : RegAddr) (v : Byte) (s : State) : (writeReg a v s).peer.ready = s.peer.ready := rfl
@[simp] theorem writeReg_rxChan (a : RegAddr) (v : Byte) (s : State) : (writeReg a v s).peer.rxChan = s.peer.rxChan := rfl
@[simp] theorem writeReg_cfgOk (a : RegAddr) (v : Byte) (s : State) : (writeReg a v s).peer.cfgOk = s.peer.cfgOk := rfl
@[simp] theorem writeReg_requests (a : RegAddr) (v : Byte) (s : State) : (writeReg a v s).io.requests = s.io.requests := rfl
@[simp] theorem writeReg_responses (a : RegAddr) (v : Byte) (s : State) : (writeReg a v s).io.responses = s.io.responses := rfl
@[simp] theorem writeReg_trace (a : RegAddr) (v : Byte) (s : State) : (writeReg a v s).io.trace = s.io.trace := rfl
@[simp] theorem writeReg_script (a : RegAddr) (v : Byte) (s : State) : (writeReg a v s).io.script = s.io.script := rfl
@[simp] theorem writeReg_tick (a : RegAddr) (v : Byte) (s : State) : (writeReg a v s).io.tick = s.io.tick := rfl

@[simp] theorem startCalibration_params (s : State) : (startCalibration s).params = s.params := rfl
@[simp] theorem startCalibration_seq (s : State) : (startCalibration s).seq = s.seq := rfl
@[simp] theorem startCalibration_line (s : State) : (startCalibration s).line = s.line := rfl
@[simp] theorem startCalibration_faults (s : State) : (startCalibration s).faults = s.faults := rfl
@[simp] theorem startCalibration_upos (s : State) : (startCalibration s).upos = s.upos := rfl
@[simp] theorem startCalibration_polls (s : State) : (startCalibration s).polls = s.polls := rfl
@[simp] theorem startCalibration_mode (s : State) : (startCalibration s).peer.mode = if s.peer.mode = .standby then .calibrating else Config.freeMode .trigger s.io.tick := rfl
@[simp] theorem startCalibration_reg (s : State) : (startCalibration s).peer.reg = s.peer.reg := rfl
@[simp] theorem startCalibration_idb (s : State) : (startCalibration s).peer.idb = s.peer.idb := rfl
@[simp] theorem startCalibration_fifo (s : State) : (startCalibration s).peer.fifo = s.peer.fifo := rfl
@[simp] theorem startCalibration_rdptr (s : State) : (startCalibration s).peer.rdptr = s.peer.rdptr := rfl
@[simp] theorem startCalibration_filledLen (s : State) : (startCalibration s).peer.filledLen = s.peer.filledLen := rfl
@[simp] theorem startCalibration_crcf (s : State) : (startCalibration s).peer.crcf = s.peer.crcf := rfl
@[simp] theorem startCalibration_ready (s : State) : (startCalibration s).peer.ready = pinLevel (if s.peer.mode = .standby then .calibrating else Config.freeMode .trigger s.io.tick) (Config.freeReady .trigger s.io.tick) := rfl
@[simp] theorem startCalibration_rxChan (s : State) : (startCalibration s).peer.rxChan = s.peer.rxChan := rfl
@[simp] theorem startCalibration_cfgOk (s : State) : (startCalibration s).peer.cfgOk = s.peer.cfgOk := rfl
@[simp] theorem startCalibration_requests (s : State) : (startCalibration s).io.requests = s.io.requests := rfl
@[simp] theorem startCalibration_responses (s : State) : (startCalibration s).io.responses = s.io.responses := rfl
@[simp] theorem startCalibration_trace (s : State) : (startCalibration s).io.trace = s.io.trace := rfl
@[simp] theorem startCalibration_script (s : State) : (startCalibration s).io.script = s.io.script := rfl
@[simp] theorem startCalibration_tick (s : State) : (startCalibration s).io.tick = s.io.tick := rfl

@[simp] theorem softReset_params (s : State) : (softReset s).params = s.params := rfl
@[simp] theorem softReset_seq (s : State) : (softReset s).seq = s.seq := rfl
@[simp] theorem softReset_line (s : State) : (softReset s).line = s.line := rfl
@[simp] theorem softReset_faults (s : State) : (softReset s).faults = s.faults := rfl
@[simp] theorem softReset_upos (s : State) : (softReset s).upos = s.upos := rfl
@[simp] theorem softReset_polls (s : State) : (softReset s).polls = s.polls := rfl
@[simp] theorem softReset_mode (s : State) : (softReset s).peer.mode = .idle := rfl
@[simp] theorem softReset_reg (s : State) : (softReset s).peer.reg = [] := rfl
@[simp] theorem softReset_idb (s : State) : (softReset s).peer.idb = Config.freeIdb s.io.tick := rfl
@[simp] theorem softReset_fifo (s : State) : (softReset s).peer.fifo = [] := rfl
@[simp] theorem softReset_rdptr (s : State) : (softReset s).peer.rdptr = Config.freeRdptr s.io.tick := rfl
@[simp] theorem softReset_filledLen (s : State) : (softReset s).peer.filledLen = 0 := rfl
@[simp] theorem softReset_crcf (s : State) : (softReset s).peer.crcf = Config.freeCrc .reset s.io.tick := rfl
@[simp] theorem softReset_ready (s : State) : (softReset s).peer.ready = Config.freeReady .reset s.io.tick := rfl
@[simp] theorem softReset_rxChan (s : State) : (softReset s).peer.rxChan = Config.freeByte s.io.tick := rfl
@[simp] theorem softReset_cfgOk (s : State) : (softReset s).peer.cfgOk = false := rfl
@[simp] theorem softReset_requests (s : State) : (softReset s).io.requests = s.io.requests := rfl
@[simp] theorem softReset_responses (s : State) : (softReset s).io.responses = s.io.responses := rfl
@[simp] theorem softReset_trace (s : State) : (softReset s).io.trace = s.io.trace := rfl
@[simp] theorem softReset_script (s : State) : (softReset s).io.script = s.io.script := rfl
@[simp] theorem softReset_tick (s : State) : (softReset s).io.tick = s.io.tick := rfl

@[simp] theorem afterRead_params (a : RegAddr) (s : State) : (afterRead a s).params = s.params := rfl
@[simp] theorem afterRead_seq (a : RegAddr) (s : State) : (afterRead a s).seq = s.seq := rfl
@[simp] theorem afterRead_line (a : RegAddr) (s : State) : (afterRead a s).line = s.line := rfl
@[simp] theorem afterRead_faults (a : RegAddr) (s : State) : (afterRead a s).faults = s.faults := rfl
@[simp] theorem afterRead_upos (a : RegAddr) (s : State) : (afterRead a s).upos = s.upos := rfl
@[simp] theorem afterRead_polls (a : RegAddr) (s : State) : (afterRead a s).polls = s.polls := rfl
@[simp] theorem afterRead_mode (a : RegAddr) (s : State) : (afterRead a s).peer.mode = s.peer.mode := rfl
@[simp] theorem afterRead_reg (a : RegAddr) (s : State) : (afterRead a s).peer.reg = s.peer.reg := rfl
@[simp] theorem afterRead_idb (a : RegAddr) (s : State) : (afterRead a s).peer.idb = s.peer.idb := rfl
@[simp] theorem afterRead_fifo (a : RegAddr) (s : State) : (afterRead a s).peer.fifo = s.peer.fifo := rfl
@[simp] theorem afterRead_rdptr (a : RegAddr) (s : State) : (afterRead a s).peer.rdptr = if a = s.params.fifoReg then s.peer.rdptr + 1 else s.peer.rdptr := rfl
@[simp] theorem afterRead_filledLen (a : RegAddr) (s : State) : (afterRead a s).peer.filledLen = s.peer.filledLen := rfl
@[simp] theorem afterRead_crcf (a : RegAddr) (s : State) : (afterRead a s).peer.crcf = s.peer.crcf := rfl
@[simp] theorem afterRead_ready (a : RegAddr) (s : State) : (afterRead a s).peer.ready = s.peer.ready := rfl
@[simp] theorem afterRead_rxChan (a : RegAddr) (s : State) : (afterRead a s).peer.rxChan = s.peer.rxChan := rfl
@[simp] theorem afterRead_cfgOk (a : RegAddr) (s : State) : (afterRead a s).peer.cfgOk = s.peer.cfgOk := rfl
@[simp] theorem afterRead_requests (a : RegAddr) (s : State) : (afterRead a s).io.requests = s.io.requests := rfl
@[simp] theorem afterRead_responses (a : RegAddr) (s : State) : (afterRead a s).io.responses = s.io.responses := rfl
@[simp] theorem afterRead_trace (a : RegAddr) (s : State) : (afterRead a s).io.trace = s.io.trace := rfl
@[simp] theorem afterRead_script (a : RegAddr) (s : State) : (afterRead a s).io.script = s.io.script := rfl
@[simp] theorem afterRead_tick (a : RegAddr) (s : State) : (afterRead a s).io.tick = s.io.tick := rfl

@[simp] theorem Peer.enter_mode (x : Peer) (m : Mode) (d : Bool) : (x.enter m d).mode = m := rfl
@[simp] theorem Peer.enter_reg (x : Peer) (m : Mode) (d : Bool) : (x.enter m d).reg = x.reg := rfl
@[simp] theorem Peer.enter_idb (x : Peer) (m : Mode) (d : Bool) : (x.enter m d).idb = x.idb := rfl
@[simp] theorem Peer.enter_fifo (x : Peer) (m : Mode) (d : Bool) : (x.enter m d).fifo = x.fifo := rfl
@[simp] theorem Peer.enter_rdptr (x : Peer) (m : Mode) (d : Bool) : (x.enter m d).rdptr = x.rdptr := rfl
@[simp] theorem Peer.enter_filledLen (x : Peer) (m : Mode) (d : Bool) : (x.enter m d).filledLen = x.filledLen := rfl
@[simp] theorem Peer.enter_crcf (x : Peer) (m : Mode) (d : Bool) : (x.enter m d).crcf = x.crcf := rfl
@[simp] theorem Peer.enter_ready (x : Peer) (m : Mode) (d : Bool) : (x.enter m d).ready = pinLevel m d := rfl
@[simp] theorem Peer.enter_rxChan (x : Peer) (m : Mode) (d : Bool) : (x.enter m d).rxChan = x.rxChan := rfl
@[simp] theorem Peer.enter_cfgOk (x : Peer) (m : Mode) (d : Bool) : (x.enter m d).cfgOk = x.cfgOk := rfl

end Sys2Proof.Machine
end

