-- ==== Sys2Proof/Laws/Data.lean ====
section
/-! SUPPORT. Laws of the data operations: register memory, flags, operands, the micro-sequence position, fault sets. -/

namespace Sys2Proof.Machine

/-! ### Register memory -/

@[simp] theorem Memory.read_nil (a : Nat) : Memory.read [] a = none := rfl

/-- A register just written reads as the byte written; every other register reads as before. -/
theorem Memory.read_write (m : Memory) (a b : Nat) (v : Byte) :
    (m.write a v).read b = if b = a then some v else m.read b := by
  induction m with
  | nil => simp [Memory.write, Memory.read, eq_comm]
  | cons c cs ih =>
    rcases lt_trichotomy a c.1 with h | h | h
    · simp [Memory.write, Memory.read, h, eq_comm]
    · by_cases hb : c.1 = b
      · simp [Memory.write, Memory.read, h, hb]
      · simp [Memory.write, Memory.read, h, hb, Ne.symm hb]
    · have h1 : ¬a < c.1 := by omega
      have h2 : ¬a = c.1 := by omega
      have hw : Memory.write (c :: cs) a v = c :: Memory.write cs a v := by simp [Memory.write, h1, h2]
      by_cases hb : c.1 = b
      · have h3 : ¬b = a := by omega
        simp [hw, Memory.read, hb, h3]
      · simp [hw, Memory.read, hb, ih]

@[simp] theorem Memory.read_write_same (m : Memory) (a : Nat) (v : Byte) : (m.write a v).read a = some v := by
  simp [Memory.read_write]

theorem Memory.read_write_other (m : Memory) {a b : Nat} (v : Byte) (h : b ≠ a) : (m.write a v).read b = m.read b := by
  simp [Memory.read_write, h]

/-- The addresses listed after a write are those before and the one written. -/
theorem Memory.mem_write {m : Memory} {a : Nat} {v : Byte} {c : Host.Cell} (h : c ∈ m.write a v) :
    c = (a, v) ∨ c ∈ m := by
  induction m with
  | nil => simpa [Memory.write] using h
  | cons d ds ih =>
    simp only [Memory.write] at h
    split_ifs at h with h1 h2
    · simpa using h
    · rcases List.mem_cons.1 h with h | h
      · exact .inl h
      · exact .inr (List.mem_cons_of_mem _ h)
    · rcases List.mem_cons.1 h with h | h
      · exact .inr (h ▸ List.mem_cons_self)
      · exact (ih h).imp id (List.mem_cons_of_mem _)

theorem Memory.wf_cons {c : Host.Cell} {m : Memory} :
    Memory.wf (c :: m) = true ↔ (∀ d ∈ m, c.1 < d.1) ∧ m.wf = true := by
  simp [Memory.wf]

/-- A write keeps the canonical form. -/
theorem Memory.wf_write {m : Memory} (a : Nat) (v : Byte) (h : m.wf = true) : (m.write a v).wf = true := by
  induction m with
  | nil => rfl
  | cons c cs ih =>
    obtain ⟨h1, h2⟩ := Memory.wf_cons.1 h
    simp only [Memory.write]
    split_ifs with hlt heq
    · refine Memory.wf_cons.2 ⟨fun d hd => ?_, h⟩
      rcases List.mem_cons.1 hd with rfl | hd
      · exact hlt
      · exact lt_trans hlt (h1 d hd)
    · exact Memory.wf_cons.2 ⟨fun d hd => heq ▸ h1 d hd, h2⟩
    · refine Memory.wf_cons.2 ⟨fun d hd => ?_, ih h2⟩
      rcases Memory.mem_write hd with rfl | hd
      · simp only
        omega
      · exact h1 d hd

@[simp] theorem Memory.wf_nil : Memory.wf [] = true := rfl

/-! ### Flags -/

/-- The bit `crc_failed` tests in a status byte is the flag the byte was made with, whatever the drawn bits
(spec/20_memory.md R86, spec/41_radio_driver.md R160). -/
@[simp] theorem crcTest_statusAnswer (p : ChipParams) (c : Bool) (d : Byte) : crcTest p (statusAnswer p c d) = c := by
  have hne : crcMask p ≠ 0#8 := by
    have : ∀ k : Fin 8, (0x01#8 <<< k.val) ≠ 0#8 := by decide
    exact this p.crcBit
  cases c
  · have : d &&& ~~~crcMask p &&& crcMask p = 0#8 := by
      ext i hi
      simp
    simp [crcTest, statusAnswer, this]
  · have : (d ||| crcMask p) &&& crcMask p = crcMask p := by
      ext i hi
      simp only [BitVec.getElem_and, BitVec.getElem_or]
      cases (crcMask p)[i] <;> simp
    simp [crcTest, statusAnswer, this, hne]

/-- An idle poll byte is not busy (spec/20_memory.md R82). -/
@[simp] theorem pollBusy_idleAnswer (p : ChipParams) (d : Byte) : pollBusy p (idleAnswer p d) = false := by
  have : d &&& ~~~p.calBusyMask &&& p.calBusyMask = 0#8 := by
    ext i hi
    simp
  simp [pollBusy, idleAnswer, this]

/-- An idle poll byte with the CRC flag laid over it is not busy, the CRC bit lying outside the mask (R82, R86). -/
theorem pollBusy_statusAnswer {p : ChipParams} (h : p.calBusyMask.getLsbD p.crcBit.val = false) (c : Bool) (d : Byte) :
    pollBusy p (statusAnswer p c (idleAnswer p d)) = false := by
  have hbit : ∀ i, (crcMask p).getLsbD i = true → i = p.crcBit.val := by
    intro i hi
    have hk := p.crcBit.isLt
    simp only [crcMask, BitVec.getLsbD_shiftLeft] at hi
    have : (1#8).getLsbD (i - p.crcBit.val) = true := by simp_all
    rw [BitVec.getLsbD_one] at this
    simp at hi this
    omega
  have : statusAnswer p c (idleAnswer p d) &&& p.calBusyMask = 0#8 := by
    apply BitVec.eq_of_getLsbD_eq
    intro i hi
    by_cases hc : (crcMask p).getLsbD i = true
    · rw [BitVec.getLsbD_and, hbit i hc, h, Bool.and_false, BitVec.getLsbD_zero]
    · rw [Bool.not_eq_true] at hc
      cases c <;> cases hb : p.calBusyMask.getLsbD i <;>
        simp only [statusAnswer, idleAnswer, BitVec.getLsbD_and, BitVec.getLsbD_or, BitVec.getLsbD_not, hb, hc, hi,
          BitVec.getLsbD_zero, decide_true, Bool.not_true, Bool.and_false, Bool.or_false, Bool.false_and, if_true,
          Bool.false_eq_true, if_false]
  simp [pollBusy, this]

/-- A busy poll byte is busy, the mask not being 0 (R82, spec/00_scope.md R10 clause e). -/
theorem pollBusy_busyAnswer (p : ChipParams) (d : Byte) (h : p.maskOk = true) : pollBusy p (busyAnswer p d) = true := by
  unfold busyAnswer
  split_ifs with hd
  · exact hd
  · have : (d ||| p.calBusyMask) &&& p.calBusyMask = p.calBusyMask := by
      ext i hi
      simp only [BitVec.getElem_and, BitVec.getElem_or]
      cases p.calBusyMask[i] <;> simp
    simpa [pollBusy, this, ChipParams.maskOk] using h

@[simp] theorem pinLevel_receiving (d : Bool) : pinLevel .receiving d = false := rfl

@[simp] theorem pinLevel_filled (d : Bool) : pinLevel .filled d = true := rfl

/-! ### Operands -/

/-- A concatenation as a number. -/
theorem toNat_append_byte {n : Nat} (x : BitVec n) (y : Byte) : (x ++ y).toNat = 256 * x.toNat + y.toNat := by
  rw [BitVec.toNat_append, ← Nat.shiftLeft_add_eq_or_of_lt y.isLt, Nat.shiftLeft_eq]
  omega

/-- Four bytes assemble with the first most significant (spec/20_memory.md R62). -/
theorem identOfBytes_four (a b c d : Byte) : identOfBytes [a, b, c, d] = (a ++ b ++ c ++ d : BitVec 32) := by
  apply BitVec.eq_of_toNat_eq
  have ha := a.isLt
  have hb := b.isLt
  have hc := c.isLt
  have hd := d.isLt
  simp only [identOfBytes, List.foldl, toNat_append_byte, BitVec.toNat_ofNat]
  omega

/-- Splitting an identifier and assembling it again gives it back (R62). -/
theorem identOfBytes_identBytes (id : Ident) : identOfBytes (identBytes id) = id := by
  apply BitVec.eq_of_toNat_eq
  have h := id.isLt
  simp only [identOfBytes, identBytes, List.foldl, BitVec.toNat_ofNat, BitVec.extractLsb'_toNat, Nat.shiftRight_eq_div_pow]
  omega

theorem identBytes_length (id : Ident) : (identBytes id).length = idBytes := rfl

/-- `row` is the low nibble (spec/42_hop_sequencer.md R185 a). -/
theorem row_val (id : Ident) : (row id).val = id.toNat % 16 := rfl

theorem offset_le (id : Ident) : offset id ≤ offsetMax := Nat.min_le_left _ _

/-! ### Positions and fault sets -/

@[simp] theorem Upos.next_idle : Upos.idle.next = .idle := rfl

@[simp] theorem Upos.next_running (op : OpName) (k : Nat) : (Upos.running op k).next = .running op (k + 1) := rfl

@[simp] theorem mem_insertFault {f g : FaultRecord} {fs : List FaultRecord} :
    f ∈ insertFault g fs ↔ f = g ∨ f ∈ fs := by
  unfold insertFault
  split_ifs with h
  · constructor
    · exact .inr
    · rintro (rfl | h') <;> assumption
  · simp [or_comm]

theorem insertFault_nodup {g : FaultRecord} {fs : List FaultRecord} (h : fs.Nodup) : (insertFault g fs).Nodup := by
  unfold insertFault
  split_ifs with hg
  · exact h
  · exact List.nodup_append.2 ⟨h, by simp, by
      rintro a ha b hb rfl
      exact hg (List.mem_singleton.1 hb ▸ ha)⟩

end Sys2Proof.Machine
end

