-- ==== Sys2Proof/Laws/Transactions.lean ====
section
/-! SUPPORT. Laws of the transactions. One lemma per transaction says how any view of the state that follows the events
one by one comes out of it (`Tracks`); what a transaction leaves alone, its trace, its line and its position are
instances. -/

namespace Sys2Proof.Machine

open Sys2Proof.Safety

/-! ### Views of the state -/

/-- `g` is a view of the state that no step of the peer and no change of `upos` moves, and that follows the recorded
events by `f`. -/
structure Tracks {α : Type} (g : State → α) (f : α → Event → α) : Prop where
  turn : ∀ s, g (peerTurn s) = g s
  record : ∀ e s, g (record e s) = f (g s) e
  advance : ∀ s, g (advanceUpos s) = g s

variable {α : Type} {g : State → α} {f : α → Event → α}

theorem Tracks.emit (h : Tracks g f) (e : Event) (s : State) : g (emit e s) = f (g s) e := by
  rw [Machine.emit, h.record, h.turn]

theorem Tracks.send (h : Tracks g f) {effect : State → State} (he : ∀ s, g (effect s) = g s) (o : Byte) (s : State) :
    g (send o effect s) = f (g s) (.xchg o none) := by
  rw [Machine.send, he, h.record, h.turn]

theorem Tracks.sendId (h : Tracks g f) (o : Byte) (s : State) : g (Machine.send o id s) = f (g s) (.xchg o none) :=
  h.send (effect := id) (fun _ => rfl) o s

theorem Tracks.receive (h : Tracks g f) {effect : State → State} (he : ∀ s, g (effect s) = g s)
    (answer : State → Byte) (s : State) :
    g (receive answer effect s).2 = f (g s) (.xchg dummyByte (some (receive answer effect s).1)) := by
  rw [Machine.receive, he, h.record, h.turn]

/-! ### The parameters never change -/

@[simp] theorem emit_params (e : Event) (s : State) : (emit e s).params = s.params := rfl

@[simp] theorem applyStrobe_params (b : Byte) (s : State) : (applyStrobe b s).params = s.params := by
  unfold applyStrobe
  split_ifs <;> rfl

@[simp] theorem writeBurstByte_params (a : RegAddr) (i : Nat) (v : Byte) (s : State) :
    (writeBurstByte a i v s).params = s.params := by
  unfold writeBurstByte
  split_ifs <;> rfl

theorem send_params {effect : State → State} (he : ∀ s, (effect s).params = s.params) (o : Byte) (s : State) :
    (send o effect s).params = s.params := by simp [send, he]

/-! ### The transactions under a view -/

theorem strobeTx_tracks (h : Tracks g f) {b : Byte} {last : State → State}
    (he : ∀ s, g (applyStrobe b s) = g s) (hl : ∀ s, g (last s) = g s) (s : State) :
    g (strobeTx b last s) = (strobeEvents b).foldl f (g s) := by
  rw [strobeTx, h.advance, h.emit, hl, h.send he, h.emit]
  rfl

theorem wregTx_tracks (h : Tracks g f) {a : RegAddr} {v : Byte} {last : State → State}
    (he : ∀ s, g (writeReg a v s) = g s) (hl : ∀ s, g (last s) = g s) (s : State) :
    g (wregTx a v last s) = (wregEvents s.params a v).foldl f (g s) := by
  rw [wregTx, h.advance, h.emit, hl, h.send he, h.sendId, h.emit]
  rfl

theorem sendBytes_tracks (h : Tracks g f) {a : RegAddr} (he : ∀ i v s, g (writeBurstByte a i v s) = g s)
    (vs : List Byte) : ∀ (i : Nat) (s : State),
    g (sendBytes a i vs s) = (vs.map (fun v => Event.xchg v none)).foldl f (g s) := by
  induction vs with
  | nil => intro i s; rfl
  | cons v vs ih => intro i s; rw [sendBytes, ih, h.send (he i v)]; rfl

theorem wburstTx_tracks (h : Tracks g f) {a : RegAddr} {vs : List Byte} {last : State → State}
    (he : ∀ i v s, g (writeBurstByte a i v s) = g s) (hl : ∀ s, g (last s) = g s) (s : State) :
    g (wburstTx a vs last s) = (wburstEvents s.params a vs).foldl f (g s) := by
  rw [wburstTx, h.advance, h.emit, hl, sendBytes_tracks h he, h.sendId, h.emit]
  simp [wburstEvents]

theorem rregTx_tracks (h : Tracks g f) {a : RegAddr} (he : ∀ s, g (afterRead a s) = g s) (s : State) :
    g (rregTx a s).2 = (readEvents s.params a [(rregTx a s).1]).foldl f (g s) := by
  simp only [rregTx]
  rw [h.advance, h.emit, h.emit, h.receive he, h.emit, h.sendId, h.emit]
  rfl

theorem receiveBytes_tracks {ans : Nat → State → Byte} (h : Tracks g f) {a : RegAddr} (he : ∀ s, g (afterRead a s) = g s) (n : Nat) :
    ∀ (i : Nat) (s : State), g (receiveBytes ans a n i s).2 =
      ((receiveBytes ans a n i s).1.map (fun b => Event.xchg dummyByte (some b))).foldl f (g s) := by
  induction n with
  | zero => intro i s; rfl
  | succ n ih => intro i s; simp only [receiveBytes]; rw [ih, h.receive he]; rfl

theorem rburstTx_tracks {ans : Nat → State → Byte} (h : Tracks g f) {a : RegAddr} (he : ∀ s, g (afterRead a s) = g s) (n : Nat) (s : State) :
    g (rburstTx ans a n s).2 = (readEvents s.params a (rburstTx ans a n s).1).foldl f (g s) := by
  simp only [rburstTx]
  rw [h.advance, h.emit, h.emit, receiveBytes_tracks h he, h.emit, h.sendId, h.emit]
  simp [readEvents]

/-! ### Views no effect moves -/

/-- A view that follows the events and that no reaction of the peer to a transaction moves. -/
structure Deaf {α : Type} (g : State → α) (f : α → Event → α) : Prop extends Tracks g f where
  strobe : ∀ b s, g (applyStrobe b s) = g s
  write : ∀ a v s, g (writeReg a v s) = g s
  burst : ∀ a i v s, g (writeBurstByte a i v s) = g s
  read : ∀ a s, g (afterRead a s) = g s

theorem performTx_deaf (h : Deaf g f) {t : WriteTx} {last : State → State} (hl : ∀ s, g (last s) = g s) (s : State) :
    g (performTx t last s) = (writeTxEvents s.params t).foldl f (g s) := by
  cases t with
  | strobe b => exact strobeTx_tracks h.toTracks (h.strobe b) hl s
  | wreg a v => exact wregTx_tracks h.toTracks (h.write a v) hl s
  | wburst a vs => exact wburstTx_tracks h.toTracks (h.burst a) hl s

theorem foldl_const (es : List Event) (x : α) : es.foldl (fun y _ => y) x = x := by
  induction es with
  | nil => rfl
  | cons e es ih => exact ih

theorem foldl_append_each (es xs : List Event) : es.foldl (fun ys e => ys ++ [e]) xs = xs ++ es := by
  induction es generalizing xs with
  | nil => simp
  | cons e es ih => simp [ih]

/-! The instances: what no event and no reaction moves, and the trace. -/

theorem deaf_params : Deaf (fun s => s.params) (fun x _ => x) :=
  ⟨⟨fun _ => rfl, fun _ _ => rfl, fun _ => rfl⟩, applyStrobe_params, fun _ _ _ => rfl, writeBurstByte_params,
    fun _ _ => rfl⟩

/-- A view built from fields that only the sequencer, the caller's interface and the operations themselves write. -/
theorem deaf_of_fields (k : ChipParams → Seq → Nat → List Request → List Response → α) :
    Deaf (fun s => k s.params s.seq s.polls s.io.requests s.io.responses) (fun x _ => x) where
  turn _ := rfl
  record _ _ := rfl
  advance _ := rfl
  strobe b s := by unfold applyStrobe; split_ifs <;> rfl
  write _ _ _ := rfl
  burst a i v s := by unfold writeBurstByte; split_ifs <;> rfl
  read _ _ := rfl

theorem deaf_seq : Deaf (fun s => s.seq) (fun x _ => x) := deaf_of_fields fun _ x _ _ _ => x

theorem deaf_polls : Deaf (fun s => s.polls) (fun x _ => x) := deaf_of_fields fun _ _ x _ _ => x

theorem deaf_requests : Deaf (fun s => s.io.requests) (fun x _ => x) := deaf_of_fields fun _ _ _ x _ => x

theorem deaf_responses : Deaf (fun s => s.io.responses) (fun x _ => x) := deaf_of_fields fun _ _ _ _ x => x

/-- No step of the peer touches `cfg_ok`. -/
@[simp] theorem Peer.move_cfgOk (x : Peer) (m : PeerMove) (d : Bool) : (x.move m d).cfgOk = x.cfgOk := by
  cases m with
  | stay => rfl
  | calDone => simp only [Peer.move, Peer.calDone]; split_ifs <;> rfl
  | frameArrive f c => simp only [Peer.move, Peer.frameArrive]; split_ifs <;> rfl

/-- No step of the peer touches a register (spec/20_memory.md R83). -/
@[simp] theorem Peer.move_reg (x : Peer) (m : PeerMove) (d : Bool) : (x.move m d).reg = x.reg := by
  cases m with
  | stay => rfl
  | calDone => simp only [Peer.move, Peer.calDone]; split_ifs <;> rfl
  | frameArrive f c => simp only [Peer.move, Peer.frameArrive]; split_ifs <;> rfl

/-- No step of the peer touches an identifier byte (R87). -/
@[simp] theorem Peer.move_idb (x : Peer) (m : PeerMove) (d : Bool) : (x.move m d).idb = x.idb := by
  cases m with
  | stay => rfl
  | calDone => simp only [Peer.move, Peer.calDone]; split_ifs <;> rfl
  | frameArrive f c => simp only [Peer.move, Peer.frameArrive]; split_ifs <;> rfl

/-- No step of the peer touches the read pointer (R84). -/
@[simp] theorem Peer.move_rdptr (x : Peer) (m : PeerMove) (d : Bool) : (x.move m d).rdptr = x.rdptr := by
  cases m with
  | stay => rfl
  | calDone => simp only [Peer.move, Peer.calDone]; split_ifs <;> rfl
  | frameArrive f c => simp only [Peer.move, Peer.frameArrive]; split_ifs <;> rfl

/-- No step of the peer touches the channel the reception listens on (R89). -/
@[simp] theorem Peer.move_rxChan (x : Peer) (m : PeerMove) (d : Bool) : (x.move m d).rxChan = x.rxChan := by
  cases m with
  | stay => rfl
  | calDone => simp only [Peer.move, Peer.calDone]; split_ifs <;> rfl
  | frameArrive f c => simp only [Peer.move, Peer.frameArrive]; split_ifs <;> rfl

theorem deaf_cfgOk : Deaf (fun s => s.peer.cfgOk) (fun x _ => x) where
  turn s := by simp
  record _ _ := rfl
  advance _ := rfl
  strobe b s := by unfold applyStrobe; split_ifs <;> rfl
  write _ _ _ := rfl
  burst a i v s := by unfold writeBurstByte; split_ifs <;> rfl
  read _ _ := rfl

theorem deaf_trace : Deaf (fun s => s.io.trace) (fun es e => es ++ [e]) where
  turn _ := rfl
  record _ _ := rfl
  advance _ := rfl
  strobe b s := by unfold applyStrobe; split_ifs <;> rfl
  write _ _ _ := rfl
  burst a i v s := by unfold writeBurstByte; split_ifs <;> rfl
  read _ _ := rfl

theorem deaf_line : Deaf (fun s => s.line) Line.after where
  turn _ := rfl
  record _ _ := rfl
  advance _ := rfl
  strobe b s := by unfold applyStrobe; split_ifs <;> rfl
  write _ _ _ := rfl
  burst a i v s := by unfold writeBurstByte; split_ifs <;> rfl
  read _ _ := rfl

/-! ### Sequences of transactions -/

theorem performTx_params {t : WriteTx} {last : State → State} (hl : ∀ s, (last s).params = s.params) (s : State) :
    (performTx t last s).params = s.params :=
  (performTx_deaf deaf_params hl s).trans (foldl_const _ _)

theorem performAll_deaf (h : Deaf g f) (ts : List WriteTx) {last : State → State} (hl : ∀ s, g (last s) = g s) :
    ∀ s : State, g (performAll ts last s) = (writeAllEvents s.params ts).foldl f (g s) := by
  induction ts with
  | nil => intro s; rfl
  | cons t ts ih =>
    intro s
    cases ts with
    | nil => simpa [performAll, writeAllEvents] using performTx_deaf h hl s
    | cons u us =>
      rw [performAll, ih, performTx_deaf h (last := id) (fun _ => rfl), performTx_params (last := id) (fun _ => rfl)]
      simp [writeAllEvents]

theorem wregTx_params {a : RegAddr} {v : Byte} {last : State → State} (hl : ∀ s, (last s).params = s.params)
    (s : State) : (wregTx a v last s).params = s.params :=
  performTx_params (t := .wreg a v) hl s

theorem strobeTx_params {b : Byte} {last : State → State} (hl : ∀ s, (last s).params = s.params)
    (s : State) : (strobeTx b last s).params = s.params :=
  performTx_params (t := .strobe b) hl s

theorem configureTable_deaf (h : Deaf g f) (es : List (RegAddr × Option Byte)) :
    ∀ s : State, g (configureTable es s) = (es.flatMap (tableEntryEvents s.params)).foldl f (g s) := by
  induction es with
  | nil => intro s; rfl
  | cons e es ih =>
    intro s
    rcases e with ⟨a, _ | v⟩
    · rw [configureTable, ih, h.advance]; rfl
    · rw [configureTable, ih, wregTx_tracks h.toTracks (h.write a v) (last := id) (fun _ => rfl),
        wregTx_params (last := id) (fun _ => rfl)]
      simp [tableEntryEvents]

theorem readStatus_deaf (h : Deaf g f) (rs : List RegAddr) :
    ∀ s : State, g (readStatus rs s).2 =
      ((rs.zip (readStatus rs s).1).flatMap fun ab => readEvents s.params ab.1 [ab.2]).foldl f (g s) := by
  induction rs with
  | nil => intro s; rfl
  | cons a rs ih =>
    intro s
    have hp : (rregTx a s).2.params = s.params :=
      (rregTx_tracks deaf_params.toTracks (deaf_params.read a) s).trans (foldl_const _ _)
    simp only [readStatus, List.zip_cons_cons, List.flatMap_cons, List.foldl_append]
    rw [ih, rregTx_tracks h.toTracks (h.read a), hp]

theorem readStatus_length (rs : List RegAddr) : ∀ s : State, (readStatus rs s).1.length = rs.length := by
  induction rs with
  | nil => intro s; rfl
  | cons a rs ih => intro s; simp [readStatus, ih]

theorem receiveBytes_length {ans : Nat → State → Byte} (a : RegAddr) (n : Nat) : ∀ (i : Nat) (s : State),
    (receiveBytes ans a n i s).1.length = n := by
  induction n with
  | zero => intro i s; rfl
  | succ n ih => intro i s; simp [receiveBytes, ih]

theorem rburstTx_length {ans : Nat → State → Byte} (a : RegAddr) (n : Nat) (s : State) : (rburstTx ans a n s).1.length = n :=
  receiveBytes_length a n 0 _

/-! ### The line comes to rest -/

/-- Every write-kind transaction that starts with the line idle ends with it idle (spec/40_transport_primitives.md
R125). -/
theorem line_after_write (p : ChipParams) (t : WriteTx) : (writeTxEvents p t).foldl Line.after Line.quiet = Line.quiet := by
  cases t with
  | strobe b => rfl
  | wreg a v => rfl
  | wburst a vs =>
    have : ∀ (ws : List Byte) (l : Line), (ws.map fun v => Event.xchg v none).foldl Line.after l = l := by
      intro ws
      induction ws with
      | nil => intro l; rfl
      | cons w ws ih => intro l; exact ih l
    simp [writeTxEvents, wburstEvents, this]
    rfl

theorem line_after_read (p : ChipParams) (a : RegAddr) (bs : List Byte) :
    (readEvents p a bs).foldl Line.after Line.quiet = Line.quiet := by
  have : ∀ (ws : List Byte) (l : Line), (ws.map fun v => Event.xchg dummyByte (some v)).foldl Line.after l = l := by
    intro ws
    induction ws with
    | nil => intro l; rfl
    | cons w ws ih => intro l; exact ih l
  simp [readEvents, this]
  rfl

/-! ### The micro-sequence position advances by one per transaction (spec/10_state.md R25) -/

@[simp] theorem applyStrobe_upos (b : Byte) (s : State) : (applyStrobe b s).upos = s.upos := by
  unfold applyStrobe
  split_ifs <;> rfl

@[simp] theorem writeBurstByte_upos (a : RegAddr) (i : Nat) (v : Byte) (s : State) :
    (writeBurstByte a i v s).upos = s.upos := by
  unfold writeBurstByte
  split_ifs <;> rfl

theorem sendBytes_upos (a : RegAddr) (vs : List Byte) : ∀ (i : Nat) (s : State),
    (sendBytes a i vs s).upos = s.upos := by
  induction vs with
  | nil => intro i s; rfl
  | cons v vs ih => intro i s; simp [sendBytes, ih, send]

theorem receiveBytes_upos {ans : Nat → State → Byte} (a : RegAddr) (n : Nat) : ∀ (i : Nat) (s : State),
    (receiveBytes ans a n i s).2.upos = s.upos := by
  induction n with
  | zero => intro i s; rfl
  | succ n ih => intro i s; simp [receiveBytes, ih, receive]

theorem performTx_upos {t : WriteTx} {last : State → State} (hl : ∀ s, (last s).upos = s.upos) (s : State) :
    (performTx t last s).upos = s.upos.next := by
  cases t with
  | strobe b => simp [performTx, strobeTx, emit, send, hl]
  | wreg a v => simp [performTx, wregTx, emit, send, hl]
  | wburst a vs => simp [performTx, wburstTx, emit, send, hl, sendBytes_upos]

theorem rregTx_upos (a : RegAddr) (s : State) : (rregTx a s).2.upos = s.upos.next := by
  simp [rregTx, emit, send, receive]

theorem rburstTx_upos {ans : Nat → State → Byte} (a : RegAddr) (n : Nat) (s : State) : (rburstTx ans a n s).2.upos = s.upos.next := by
  simp [rburstTx, emit, send, receiveBytes_upos]

/-- The position `n` transactions on. -/
def Upos.plus : Upos → Nat → Upos
  | .idle, _ => .idle
  | .running op k, n => .running op (k + n)

theorem Upos.plus_next (u : Upos) (n : Nat) : (u.next).plus n = u.plus (n + 1) := by
  cases u with
  | idle => rfl
  | running op k => simp [Upos.plus, Upos.next]; omega

@[simp] theorem Upos.plus_zero (u : Upos) : u.plus 0 = u := by cases u <;> rfl

theorem performAll_upos (ts : List WriteTx) {last : State → State} (hl : ∀ s, (last s).upos = s.upos) :
    ∀ s : State, (performAll ts last s).upos = s.upos.plus ts.length := by
  induction ts with
  | nil => intro s; simp [performAll]
  | cons t ts ih =>
    intro s
    cases ts with
    | nil => rw [performAll, performTx_upos hl, ← Upos.plus_zero s.upos.next, Upos.plus_next]; rfl
    | cons u us => rw [performAll, ih, performTx_upos (last := id) (fun _ => rfl), Upos.plus_next]; rfl

theorem configureTable_upos (es : List (RegAddr × Option Byte)) :
    ∀ s : State, (configureTable es s).upos = s.upos.plus es.length := by
  induction es with
  | nil => intro s; simp [configureTable]
  | cons e es ih =>
    intro s
    rcases e with ⟨a, _ | v⟩
    · rw [configureTable, ih, advanceUpos_upos, Upos.plus_next]; rfl
    · rw [configureTable, ih]
      show (performTx (.wreg a v) id s).upos.plus _ = _
      rw [performTx_upos (last := id) (fun _ => rfl), Upos.plus_next]
      rfl

end Sys2Proof.Machine
end

