-- ==== Sys2Proof/Laws/Stable.lean ====
section
/-! SUPPORT. The induction over what a step does, packaged once: a property kept by each elementary update of the state is
kept by every transaction, every instruction and every step. -/

namespace Sys2Proof.Machine

open Sys2Proof.Safety

/-- `P` is kept by every elementary update of Machine/Ops.lean but the soft reset, which only `reset` makes; a register write
counts only at a register of the chip. -/
structure Stable (P : State → Prop) : Prop where
  turn : ∀ s, P s → P (peerTurn s)
  record : ∀ e s, P s → P (record e s)
  advance : ∀ s, P s → P (advanceUpos s)
  standby : ∀ s, P s → P (strobeStandby s)
  rstRdptr : ∀ s, P s → P (strobeRstRdptr s)
  rx : ∀ s, P s → P (strobeRx s)
  write : ∀ a v s, s.params.isReg a = true → P s → P (writeReg a v s)
  idb : ∀ x s, P s → P { s with peer := { s.peer with idb := x } }
  calibrate : ∀ s, P s → P (startCalibration s)
  read : ∀ a s, P s → P (afterRead a s)
  raise : ∀ f s, P s → P (raise f s)
  seq : ∀ q s, P s → P { s with seq := q }
  control : ∀ u n s, P s → P { s with upos := u, polls := n }
  configured : ∀ b s, P s → P { s with peer := { s.peer with cfgOk := b } }
  caller : ∀ rq rp s, P s → P { s with io := { s.io with requests := rq, responses := rp } }

variable {P : State → Prop}

namespace Stable

theorem upos (h : Stable P) (u : Upos) (s : State) (hs : P s) : P { s with upos := u } := h.control u s.polls s hs

theorem start (h : Stable P) (op : OpName) (s : State) (hs : P s) : P (begin op s) := h.upos _ s hs

theorem answered (h : Stable P) (r : Response) (s : State) (hs : P s) : P (finish r s) :=
  h.upos .idle _ (h.caller s.io.requests (s.io.responses ++ [r]) s hs)

theorem raisedIf (h : Stable P) (c : Bool) (f : FaultRecord) (s : State) (hs : P s) : P (raiseIf c f s) := by
  cases c
  · exact hs
  · exact h.raise f s hs

theorem failed (h : Stable P) (f : FaultRecord) (s : State) (hs : P s) : P (failWith f s) :=
  h.answered _ _ (h.raise f s hs)

theorem event (h : Stable P) (e : Event) (s : State) (hs : P s) : P (emit e s) := h.record e _ (h.turn s hs)

theorem sent (h : Stable P) {effect : State → State} (o : Byte) (s : State)
    (he : ∀ t, t.params = s.params → P t → P (effect t)) (hs : P s) : P (send o effect s) :=
  he _ rfl (h.record _ _ (h.turn s hs))

theorem received (h : Stable P) (answer : State → Byte) (a : RegAddr) (s : State) (hs : P s) :
    P (receive answer (afterRead a) s).2 :=
  h.read a _ (h.record _ _ (h.turn s hs))

theorem gpio (h : Stable P) (s : State) (hs : P s) : P (gpioTx s).2 := h.record _ _ (h.turn s hs)

theorem strobe (h : Stable P) (b : Byte) (s : State) (hs : P s) : P (applyStrobe b s) := by
  unfold applyStrobe
  split_ifs
  · exact h.standby s hs
  · exact h.rstRdptr s hs
  · exact h.rx s hs
  · exact hs

theorem burstByte (h : Stable P) (a : RegAddr) (i : Nat) (v : Byte) (s : State) (ha : s.params.isReg a = true)
    (hs : P s) : P (writeBurstByte a i v s) := by
  unfold writeBurstByte
  split_ifs
  · exact h.idb _ s hs
  · exact h.write a v s ha hs

theorem strobeTx (h : Stable P) (b : Byte) {last : State → State} (hl : ∀ t, P t → P (last t)) (s : State)
    (hs : P s) : P (strobeTx b last s) :=
  h.advance _ (h.event _ _ (hl _ (h.sent b _ (fun t _ ht => h.strobe b t ht) (h.event _ s hs))))

theorem wregTx (h : Stable P) (a : RegAddr) (v : Byte) {last : State → State} (hl : ∀ t, P t → P (last t)) (s : State)
    (ha : s.params.isReg a = true) (hs : P s) : P (wregTx a v last s) :=
  h.advance _ (h.event _ _ (hl _ (h.sent v _ (fun t ht => h.write a v t (by rw [ht]; exact ha))
    (h.sent (effect := id) _ _ (fun _ _ ht => ht) (h.event _ s hs)))))

theorem sendBytes (h : Stable P) (a : RegAddr) (vs : List Byte) : ∀ (i : Nat) (s : State), s.params.isReg a = true →
    P s → P (sendBytes a i vs s) := by
  induction vs with
  | nil => intro i s _ hs; exact hs
  | cons v vs ih =>
    intro i s ha hs
    refine ih _ _ ?_ (h.sent v s (fun t ht => h.burstByte a i v t (by rw [ht]; exact ha)) hs)
    rw [send_params (writeBurstByte_params a i v)]
    exact ha

theorem wburstTx (h : Stable P) (a : RegAddr) (vs : List Byte) {last : State → State} (hl : ∀ t, P t → P (last t))
    (s : State) (ha : s.params.isReg a = true) (hs : P s) : P (wburstTx a vs last s) :=
  h.advance _ (h.event _ _ (hl _ (h.sendBytes a vs 0 _ (by simpa [Machine.send] using ha)
    (h.sent (effect := id) _ _ (fun _ _ ht => ht) (h.event _ s hs)))))

theorem rregTx (h : Stable P) (a : RegAddr) (s : State) (hs : P s) : P (rregTx a s).2 :=
  h.advance _ (h.event _ _ (h.event _ _ (h.received _ a _ (h.event _ _
    (h.sent (effect := id) _ _ (fun _ _ ht => ht) (h.event _ s hs))))))

theorem receiveBytes {ans : Nat → State → Byte} (h : Stable P) (a : RegAddr) (n : Nat) : ∀ (i : Nat) (s : State), P s →
    P (receiveBytes ans a n i s).2 := by
  induction n with
  | zero => intro i s hs; exact hs
  | succ n ih => intro i s hs; exact ih _ _ (h.received _ a s hs)

theorem rburstTx {ans : Nat → State → Byte} (h : Stable P) (a : RegAddr) (n : Nat) (s : State) (hs : P s) : P (rburstTx ans a n s).2 :=
  h.advance _ (h.event _ _ (h.event _ _ (h.receiveBytes a n 0 _ (h.event _ _
    (h.sent (effect := id) _ _ (fun _ _ ht => ht) (h.event _ s hs))))))

theorem strobeTx_alone (h : Stable P) (b : Byte) (s : State) (hs : P s) : P (Machine.strobeTx b id s) :=
  h.strobeTx b (last := id) (fun _ ht => ht) s hs

theorem wregTx_alone (h : Stable P) (a : RegAddr) (v : Byte) (s : State) (ha : s.params.isReg a = true) (hs : P s) :
    P (Machine.wregTx a v id s) :=
  h.wregTx a v (last := id) (fun _ ht => ht) s ha hs

theorem wburstTx_alone (h : Stable P) (a : RegAddr) (vs : List Byte) (s : State) (ha : s.params.isReg a = true)
    (hs : P s) : P (Machine.wburstTx a vs id s) :=
  h.wburstTx a vs (last := id) (fun _ ht => ht) s ha hs

theorem performTx (h : Stable P) (t : WriteTx) {last : State → State} (hl : ∀ t, P t → P (last t)) (s : State)
    (ht : s.params.txOk t = true) (hs : P s) : P (performTx t last s) := by
  cases t with
  | strobe b => exact h.strobeTx b hl s hs
  | wreg a v => exact h.wregTx a v hl s ht hs
  | wburst a vs =>
    have : s.params.isReg a = true := by
      simp only [ChipParams.txOk, Bool.and_eq_true] at ht
      exact ht.1
    exact h.wburstTx a vs hl s this hs

theorem performAll (h : Stable P) (ts : List WriteTx) {last : State → State} (hl : ∀ t, P t → P (last t)) :
    ∀ s : State, ts.all s.params.txOk = true → P s → P (performAll ts last s) := by
  induction ts with
  | nil => intro s _ hs; exact hs
  | cons t ts ih =>
    intro s ht hs
    simp only [List.all_cons, Bool.and_eq_true] at ht
    cases ts with
    | nil => exact h.performTx t hl s ht.1 hs
    | cons u us =>
      refine ih _ ?_ (h.performTx t (last := id) (fun _ h => h) s ht.1 hs)
      rw [performTx_params (last := id) (fun _ => rfl)]
      exact ht.2

theorem configureTable (h : Stable P) (es : List (RegAddr × Option Byte)) : ∀ s : State,
    (es.all fun e => s.params.isReg e.1) = true → P s → P (configureTable es s) := by
  induction es with
  | nil => intro s _ hs; exact hs
  | cons e es ih =>
    intro s he hs
    simp only [List.all_cons, Bool.and_eq_true] at he
    rcases e with ⟨a, _ | v⟩
    · exact ih _ he.2 (h.advance s hs)
    · refine ih _ ?_ (h.wregTx_alone a v s he.1 hs)
      rw [wregTx_params (last := id) (fun _ => rfl)]
      exact he.2

theorem readStatus (h : Stable P) (rs : List RegAddr) : ∀ s : State, P s → P (readStatus rs s).2 := by
  induction rs with
  | nil => intro s hs; exact hs
  | cons a rs ih => intro s hs; exact ih _ (h.rregTx a s hs)

end Stable

/-! ### Params through the phases of configure -/

@[simp] theorem configureTable_params (es : List (RegAddr × Option Byte)) (s : State) :
    (configureTable es s).params = s.params :=
  (configureTable_deaf deaf_params es s).trans (foldl_const _ _)

@[simp] theorem readStatus_params (rs : List RegAddr) (s : State) : (readStatus rs s).2.params = s.params :=
  (readStatus_deaf deaf_params rs s).trans (foldl_const _ _)

@[simp] theorem rregTx_params (a : RegAddr) (s : State) : (rregTx a s).2.params = s.params :=
  (rregTx_tracks deaf_params.toTracks (deaf_params.read a) s).trans (foldl_const _ _)

@[simp] theorem rburstTx_params {ans : Nat → State → Byte} (a : RegAddr) (n : Nat) (s : State) : (rburstTx ans a n s).2.params = s.params :=
  (rburstTx_tracks deaf_params.toTracks (deaf_params.read a) n s).trans (foldl_const _ _)

@[simp] theorem strobeTx_id_params (b : Byte) (s : State) : (strobeTx b id s).params = s.params :=
  strobeTx_params (fun _ => rfl) s

@[simp] theorem wregTx_id_params (a : RegAddr) (v : Byte) (s : State) : (wregTx a v id s).params = s.params :=
  wregTx_params (fun _ => rfl) s

@[simp] theorem wburstTx_id_params (a : RegAddr) (vs : List Byte) (s : State) :
    (wburstTx a vs id s).params = s.params :=
  performTx_params (t := .wburst a vs) (fun _ => rfl) s

theorem performAll_params (ts : List WriteTx) {last : State → State} (hl : ∀ s, (last s).params = s.params)
    (s : State) : (performAll ts last s).params = s.params :=
  (performAll_deaf deaf_params ts hl s).trans (foldl_const _ _)

@[simp] theorem enterCalibration_params (s : State) : (enterCalibration s).params = s.params := by
  show (performAll _ startCalibration _).params = _
  rw [performAll_params (last := startCalibration) _ (fun _ => rfl), strobeTx_id_params]

/-! ### What well-formed parameters give (spec/00_scope.md R9) -/

theorem ChipParams.wf_types {p : ChipParams} (h : p.wf = true) : p.typesOk = true := by
  simp [ChipParams.wf] at h
  exact h.1

theorem ChipParams.typesOk_roles {p : ChipParams} (h : p.typesOk = true) :
    p.isReg p.calPollReg = true ∧ p.isReg p.trim1.1 = true ∧ p.isReg p.trim2.1 = true ∧ p.isReg p.idReg = true ∧
      p.isReg p.channelReg = true ∧ p.isReg p.statusReg = true ∧ p.isReg p.fifoReg = true := by
  simp [ChipParams.typesOk] at h
  tauto

theorem ChipParams.typesOk_seqs {p : ChipParams} (h : p.typesOk = true) :
    p.resetSeq.all p.txOk = true ∧ p.calTriggerSeq.all p.txOk = true := by
  simp only [ChipParams.typesOk, List.all_cons, List.all_nil, id, Bool.and_eq_true] at h
  tauto

theorem ChipParams.wf_table {p : ChipParams} (h : p.wf = true) : (p.regTable.all fun e => p.isReg e.1) = true := by
  simp only [ChipParams.wf, ChipParams.tableOk, List.all_cons, List.all_nil, id, Bool.and_eq_true] at h
  tauto

theorem ChipParams.wf_mask {p : ChipParams} (h : p.wf = true) : p.maskOk = true := by
  simp only [ChipParams.wf, List.all_cons, List.all_nil, id, Bool.and_eq_true] at h
  tauto

/-! ### The poll loop, case by case (spec/41_radio_driver.md R153) -/

theorem configurePoll_done {s : State} (h : pollBusy s.params (rregTx s.params.calPollReg s).1 = false) :
    configurePoll s = configureTail (rregTx s.params.calPollReg s).2 := by
  simp [configurePoll, h]

theorem configurePoll_wait {s : State} (h : pollBusy s.params (rregTx s.params.calPollReg s).1 = true)
    (hl : limitReached s.params (s.polls + 1) = false) :
    configurePoll s = { (rregTx s.params.calPollReg s).2 with upos := s.upos, polls := s.polls + 1 } := by
  simp [configurePoll, h, hl]

theorem configurePoll_stuck {s : State} (h : pollBusy s.params (rregTx s.params.calPollReg s).1 = true)
    (hl : limitReached s.params (s.polls + 1) = true) :
    configurePoll s = failWith (.calStuck (rregTx s.params.calPollReg s).1)
      { (rregTx s.params.calPollReg s).2 with
        peer := { (rregTx s.params.calPollReg s).2.peer with cfgOk := false }
        polls := 0 } := by
  simp [configurePoll, h, hl]

/-- The mode in which the data byte of a single read is answered: what the four places up to it made of the mode. -/
def answerState (a : RegAddr) (s : State) : State :=
  peerTurn (emit .dirIn (send (s.params.rdByte a) id (emit .csAssert s)))

theorem rregTx_fst (a : RegAddr) (s : State) : (rregTx a s).1 = answerSingle a (answerState a s) := rfl

/-- A poll byte is busy exactly where it is answered in `Calibrating` (spec/20_memory.md R82); where the status register is
polled in `Filled`, the CRC bit must lie outside the mask (log 19). -/
theorem pollBusy_answer {s : State} (hw : s.params.maskOk = true)
    (h : s.params.calPollReg = s.params.statusReg → s.peer.mode = .filled →
      s.params.calBusyMask.getLsbD s.params.crcBit.val = false) :
    pollBusy s.params (answerSingle s.params.calPollReg s) = decide (s.peer.mode = .calibrating) := by
  by_cases hm : s.peer.mode = .calibrating
  · simp [answerSingle, hm, pollAnswer, pollBusy_busyAnswer _ _ hw]
  · by_cases hc : s.params.calPollReg = s.params.statusReg ∧ s.peer.mode = .filled
    · simp [answerSingle, hc, pollAnswer, pollBusy_statusAnswer (h hc.1 hc.2)]
    · simp [answerSingle, hc, hm, pollAnswer]

theorem poll_idle_of_mode {s : State} (hw : s.params.maskOk = true)
    (h : s.params.calPollReg = s.params.statusReg → s.params.calBusyMask.getLsbD s.params.crcBit.val = false)
    (hm : (answerState s.params.calPollReg s).peer.mode ≠ .calibrating) :
    pollBusy s.params (rregTx s.params.calPollReg s).1 = false := by
  have := pollBusy_answer (s := answerState s.params.calPollReg s) hw fun e _ => h e
  rw [decide_eq_false hm] at this
  exact this

theorem poll_busy_of_mode {s : State} (hw : s.params.maskOk = true)
    (hm : (answerState s.params.calPollReg s).peer.mode = .calibrating) :
    pollBusy s.params (rregTx s.params.calPollReg s).1 = true := by
  have := pollBusy_answer (s := answerState s.params.calPollReg s) hw fun _ e => by simp [hm] at e
  rw [decide_eq_true hm] at this
  exact this

/-! ### Instructions and steps -/

theorem Stable.configureTail (h : Stable P) (s : State) (hw : s.params.wf = true) (hs : P s) :
    P (configureTail s) := by
  have hr := ChipParams.typesOk_roles (ChipParams.wf_types hw)
  refine h.answered _ _ (h.control _ 0 _ (h.configured true _ (h.strobeTx_alone _ _
    (h.wregTx_alone _ _ _ ?_ (h.wregTx_alone _ _ _ ?_
      (h.readStatus _ s hs))))))
  · simp [hr.2.2.1]
  · simp [hr.2.1]

theorem Stable.configurePoll (h : Stable P) (s : State) (hw : s.params.wf = true) (hs : P s) :
    P (configurePoll s) := by
  have hr := h.rregTx s.params.calPollReg s hs
  simp only [Machine.configurePoll]
  split_ifs
  · exact h.failed _ _ (h.control _ 0 _ (h.configured false _ hr))
  · exact h.control _ _ _ hr
  · exact h.configureTail _ (by simpa using hw) hr

theorem Stable.enterCalibration (h : Stable P) (s : State) (hw : s.params.wf = true) (hs : P s) :
    P (enterCalibration s) := by
  refine h.control _ 0 _ (h.performAll _ h.calibrate _ ?_ (h.strobeTx_alone _ s hs))
  simpa using (ChipParams.typesOk_seqs (ChipParams.wf_types hw)).2

theorem Stable.resetPeer (h : Stable P) (soft : ∀ s, P s → P (softReset s)) (s : State) (hw : s.params.wf = true)
    (hs : P s) : P (resetPeer s) := by
  unfold Machine.resetPeer
  split
  · exact soft _ (h.turn _ hs)
  · rename_i t ts heq
    refine h.performAll _ soft s ?_ hs
    have := (ChipParams.typesOk_seqs (ChipParams.wf_types hw)).1
    rwa [heq] at this

/-- Every instruction keeps a stable property, `reset` where the soft reset keeps it too. -/
theorem exec_stable (h : Stable P) {i : Instr} {s t : State} (soft : i = .reset → ∀ s, P s → P (softReset s))
    (hw : s.params.wf = true) (hs : P s) (he : exec i s = .next t) : P t := by
  have hr := ChipParams.typesOk_roles (ChipParams.wf_types hw)
  cases i with
  | reset =>
    simp only [exec, execReset, Host.Outcome.next.injEq] at he
    subst he
    exact h.answered _ _ (h.resetPeer (soft rfl) _ hw (h.start _ s hs))
  | configure =>
    simp only [exec, execConfigure, Host.Outcome.next.injEq] at he
    subst he
    refine h.configurePoll _ (by simpa using hw) (h.enterCalibration _ (by simpa using hw)
      (h.configureTable _ _ ?_ (h.start _ s hs)))
    simpa using ChipParams.wf_table hw
  | setIdentity ident =>
    simp only [exec, execSetIdentity, Host.Outcome.next.injEq] at he
    subst he
    exact h.answered _ _ (h.wburstTx_alone _ _ _ hr.2.2.2.1 (h.start _ s hs))
  | getIdentity =>
    simp only [exec, execGetIdentity, Host.Outcome.next.injEq] at he
    subst he
    exact h.answered _ _ (h.rburstTx _ _ _ (h.start _ s hs))
  | tune channel =>
    simp only [exec, execTune, Host.Outcome.next.injEq] at he
    subst he
    refine h.answered _ _ (h.strobeTx_alone _ _ (h.wregTx_alone _ _ _ ?_
      (h.strobeTx_alone _ _ (h.strobeTx_alone _ _ (h.start _ s hs)))))
    simpa using hr.2.2.2.2.1
  | rearm =>
    simp only [exec, execRearm, Host.Outcome.next.injEq] at he
    subst he
    exact h.answered _ _ (h.strobeTx_alone _ _
      (h.strobeTx_alone _ _ (h.start _ s hs)))
  | pollReady =>
    simp only [exec, execPollReady, Host.Outcome.next.injEq] at he
    subst he
    exact h.answered _ _ (h.gpio _ (h.start _ s hs))
  | crcFailed =>
    simp only [exec, execCrcFailed, Host.Outcome.next.injEq] at he
    subst he
    exact h.answered _ _ (h.rregTx _ _ (h.start _ s hs))
  | readFrame =>
    simp only [exec, execReadFrame, Host.Outcome.next.injEq] at he
    subst he
    exact h.answered _ _ (h.rburstTx _ _ _ (h.raisedIf _ _ _ (h.start _ s hs)))
  | seqLoad id =>
    simp only [exec, execSeqLoad, Host.Outcome.next.injEq] at he
    subst he
    exact h.answered _ _ (h.seq _ _ (h.start _ s hs))
  | seqChannel =>
    simp only [exec, execSeqChannel, Host.Outcome.next.injEq] at he
    subst he
    split_ifs
    · exact h.failed _ _ (h.start _ s hs)
    · exact h.answered _ _ (h.start _ s hs)
  | advance =>
    simp only [exec, execAdvance, Host.Outcome.next.injEq] at he
    subst he
    split_ifs
    · exact h.failed _ _ (h.start _ s hs)
    · exact h.answered _ _ (h.seq _ _ (h.start _ s hs))
  | strobe b =>
    simp only [exec, execStrobe] at he
    split_ifs at he
    cases he
    exact h.strobeTx_alone _ s hs
  | wreg a v =>
    simp only [exec, execWreg] at he
    split_ifs at he with ha
    cases he
    exact h.wregTx_alone _ _ s ha hs
  | rreg a =>
    simp only [exec, execRreg] at he
    split_ifs at he
    cases he
    exact h.rregTx _ s hs
  | wburst a vs =>
    simp only [exec, execWburst] at he
    split_ifs at he with hv ha
    cases he
    exact h.wburstTx_alone _ _ s ha hs
  | rburst4 a =>
    simp only [exec, execRburst4] at he
    split_ifs at he
    cases he
    exact h.rburstTx _ _ s hs
  | rburst21 a =>
    simp only [exec, execRburst21] at he
    split_ifs at he
    cases he
    exact h.rburstTx _ _ s hs

/-- What one step can be (Machine/Step.lean): the caller waits; a decoded request runs; a command word is refused; a placed
burst read of another length runs; or `configure` polls once more. -/
theorem step_cases {s t : State} (h : step s = .next t) :
    s.params.wf = true ∧
      ((s.upos = .idle ∧ s.io.requests = [] ∧ t = peerTurn s) ∨
       (∃ r rs i, s.upos = .idle ∧ s.io.requests = r :: rs ∧ decodeRequest s.params r = .ok i ∧
          exec i (afterFetch s) = .next t) ∨
       (∃ w rs e, s.upos = .idle ∧ s.io.requests = .command w :: rs ∧ decodeCommand w = .error e ∧
          t = refuseCommand w (afterFetch s)) ∨
       (∃ bs rs a n, s.upos = .idle ∧ s.io.requests = .frame bs :: rs ∧ t = (rburstTx (answerBurst a) a n (afterFetch s)).2) ∨
       (Polling s ∧ t = configurePoll s)) := by
  unfold step at h
  split_ifs at h with hw
  refine ⟨hw, ?_⟩
  split at h
  · rename_i hu
    unfold idleStep nextRequest at h
    split at h
    · rename_i hq
      cases h
      exact .inl ⟨hu, List.head?_eq_none_iff.1 hq, rfl⟩
    · rename_i r hq
      obtain ⟨rs, hrs⟩ := List.head?_eq_some_iff.1 hq
      unfold serve at h
      split at h
      · rename_i w
        split at h
        · rename_i i hd
          exact .inr (.inl ⟨_, rs, i, hu, hrs, hd, h⟩)
        · rename_i e hd
          cases h
          exact .inr (.inr (.inl ⟨w, rs, e, hu, hrs, hd, rfl⟩))
      · rename_i bs
        split at h
        · rename_i i hd
          exact .inr (.inl ⟨_, rs, i, hu, hrs, hd, h⟩)
        · cases h
          exact .inr (.inr (.inr (.inl ⟨bs, rs, _, _, hu, hrs, rfl⟩)))
        · cases h
  · rename_i op k hu
    unfold runningStep at h
    split_ifs at h with hk
    cases h
    exact .inr (.inr (.inr (.inr ⟨by rw [Polling, hu, hk.1, hk.2], rfl⟩)))

/-- Every step keeps a stable property that the soft reset keeps. -/
theorem step_stable (h : Stable P) (soft : ∀ s, P s → P (softReset s)) {s t : State} (hs : P s)
    (ht : step s = .next t) : P t := by
  have hf : P (afterFetch s) := h.turn _ (h.caller s.io.requests.tail s.io.responses s hs)
  obtain ⟨hw, ⟨_, _, rfl⟩ | ⟨r, rs, i, _, _, _, he⟩ | ⟨w, rs, e, _, _, _, rfl⟩ | ⟨_, _, a, n, _, _, rfl⟩ | ⟨_, rfl⟩⟩ :=
    step_cases ht
  · exact h.turn s hs
  · exact exec_stable h (s := afterFetch s) (fun _ => soft) hw hf he
  · exact h.failed _ _ hf
  · exact h.rburstTx a n _ hf
  · exact h.configurePoll s hw hs

end Sys2Proof.Machine
end

