-- ==== Sys2Proof/Laws/Peer.lean ====
section
/-! SUPPORT. Laws of the peer: what its own steps can do, and the properties of the peer and of the fault set that every
elementary update keeps. -/

namespace Sys2Proof.Machine

open Sys2Proof.Safety

/-- What the peer can do of its own: nothing, complete a calibration, or fill the FIFO (spec/20_memory.md R80). -/
theorem Peer.move_cases (x : Peer) (m : PeerMove) (d : Bool) :
    x.move m d = x ∨ (x.mode = .calibrating ∧ x.move m d = x.enter .standby d) ∨
      (∃ (f : Vector Byte 21) (c : Bool), x.mode = .receiving ∧ x.move m d =
        { x.enter .filled true with fifo := f.toList ++ x.fifo.drop 21, filledLen := 21, crcf := c }) := by
  cases m with
  | stay => exact .inl rfl
  | calDone =>
    by_cases h : x.mode = .calibrating
    · exact .inr (.inl ⟨h, by simp [Peer.move, Peer.calDone, h]⟩)
    · exact .inl (by simp [Peer.move, Peer.calDone, h])
  | frameArrive f c =>
    by_cases h : x.mode = .receiving
    · exact .inr (.inr ⟨f, c, h, by simp [Peer.move, Peer.frameArrive, h]⟩)
    · exact .inl (by simp [Peer.move, Peer.frameArrive, h])

/-- In `Idle`, `Standby` and `Filled` the peer does nothing of its own (R82, R84). -/
theorem Peer.move_still {x : Peer} (m : PeerMove) (d : Bool) (h1 : x.mode ≠ .calibrating) (h2 : x.mode ≠ .receiving) :
    x.move m d = x := by
  rcases Peer.move_cases x m d with h | ⟨h, _⟩ | ⟨_, _, h, _⟩
  · exact h
  · exact absurd h h1
  · exact absurd h h2

theorem pinAgrees_enter (x : Peer) (m : Mode) (d : Bool) : PinAgrees (x.enter m d) := by
  cases m <;> simp [PinAgrees, pinLevel]

theorem pinAgrees_move {x : Peer} (m : PeerMove) (d : Bool) (h : PinAgrees x) : PinAgrees (x.move m d) := by
  rcases Peer.move_cases x m d with h' | ⟨_, h'⟩ | ⟨_, _, _, h'⟩ <;> rw [h']
  · exact h
  · exact pinAgrees_enter _ _ _
  · simp [PinAgrees]

theorem fifoAgrees_move {x : Peer} (m : PeerMove) (d : Bool) (h : FifoAgrees x) : FifoAgrees (x.move m d) := by
  rcases Peer.move_cases x m d with h' | ⟨_, h'⟩ | ⟨f, _, _, h'⟩ <;> rw [h']
  · exact h
  · exact h
  · exact ⟨by simp, .inr rfl⟩

/-- The ready pin agrees with the mode: kept by every update (spec/20_memory.md R85). -/
theorem stable_pin : Stable fun s => PinAgrees s.peer where
  turn s hs := pinAgrees_move _ _ hs
  record _ _ hs := hs
  advance _ hs := hs
  standby s _ := pinAgrees_enter _ _ _
  rstRdptr _ hs := hs
  rx s _ := pinAgrees_enter s.peer (if callOrderBroken s.peer then Config.freeMode .strobe s.io.tick else .receiving)
    (Config.freeReady .strobe s.io.tick)
  write _ _ _ _ hs := hs
  idb _ _ hs := hs
  calibrate s _ := pinAgrees_enter _ _ _
  read _ _ hs := hs
  raise _ _ hs := hs
  seq _ _ hs := hs
  control _ _ _ hs := hs
  configured _ _ hs := hs
  caller _ _ _ hs := hs

/-- The FIFO agrees with `filled_len`: kept by every update (spec/10_state.md R34). -/
theorem stable_fifo : Stable fun s => FifoAgrees s.peer where
  turn s hs := fifoAgrees_move _ _ hs
  record _ _ hs := hs
  advance _ hs := hs
  standby _ hs := hs
  rstRdptr _ hs := hs
  rx s hs := by
    show (if Mode.armable s.peer.mode then 0 else s.peer.filledLen) ≤ s.peer.fifo.length ∧
      ((if Mode.armable s.peer.mode then 0 else s.peer.filledLen) = 0 ∨
        (if Mode.armable s.peer.mode then 0 else s.peer.filledLen) = frameLen)
    split_ifs
    · exact ⟨Nat.zero_le _, .inl rfl⟩
    · exact hs
  write _ _ _ _ hs := hs
  idb _ _ hs := hs
  calibrate _ hs := hs
  read _ _ hs := hs
  raise _ _ hs := hs
  seq _ _ hs := hs
  control _ _ _ hs := hs
  configured _ _ hs := hs
  caller _ _ _ hs := hs

/-- The registers stay in canonical form and inside the space: kept by every update (spec/20_memory.md R60). -/
theorem stable_regs : Stable fun s => RegsAgree s.params s.peer.reg where
  turn s hs := by simpa using hs
  record _ _ hs := hs
  advance _ hs := hs
  standby _ hs := hs
  rstRdptr _ hs := hs
  rx _ hs := hs
  write a v s ha hs := by
    refine ⟨Memory.wf_write _ _ hs.1, fun c hc => ?_⟩
    rcases Memory.mem_write hc with rfl | hc
    · simpa [ChipParams.isReg, Nat.blt_eq] using ha
    · exact hs.2 c hc
  idb _ _ hs := hs
  calibrate _ hs := hs
  read _ _ hs := hs
  raise _ _ hs := hs
  seq _ _ hs := hs
  control _ _ _ hs := hs
  configured _ _ hs := hs
  caller _ _ _ hs := hs

/-- `FAULTS` has no repeats: kept by every update (spec/10_state.md R24). -/
theorem stable_faults : Stable fun s => s.faults.Nodup where
  turn _ hs := hs
  record _ _ hs := hs
  advance _ hs := hs
  standby _ hs := hs
  rstRdptr _ hs := hs
  rx s hs := by
    rw [strobeRx_faults]
    split_ifs
    · exact insertFault_nodup hs
    · exact hs
  write _ _ _ _ hs := hs
  idb _ _ hs := hs
  calibrate _ hs := hs
  read _ _ hs := hs
  raise _ _ hs := insertFault_nodup hs
  seq _ _ hs := hs
  control _ _ _ hs := hs
  configured _ _ hs := hs
  caller _ _ _ hs := hs

/-! The soft reset brings a chip in which all of that holds (spec/10_state.md R52). -/

theorem pinAgrees_softReset (s : State) : PinAgrees (softReset s).peer := by simp [PinAgrees, softReset]

theorem fifoAgrees_softReset (s : State) : FifoAgrees (softReset s).peer := ⟨Nat.zero_le _, .inl rfl⟩

theorem regsAgree_softReset (s : State) : RegsAgree (softReset s).params (softReset s).peer.reg :=
  ⟨rfl, by simp [softReset]⟩

end Sys2Proof.Machine
end

