-- ==== Sys2Proof/Laws/Quiet.lean ====
section
/-! SUPPORT. While the peer keeps still, a run of events is one update of the state (`quietly`), and each transaction is
that update around its effect. The hypothesis is `Quiet n`: the next `n` choices of the peer are to do nothing. -/

namespace Sys2Proof.Machine

open Sys2Proof.Safety

/-- The state after the events `es` with a peer that keeps still. -/
def quietly (es : List Event) (s : State) : State :=
  { s with
    line := es.foldl Line.after s.line
    io := { s.io with
      trace := s.io.trace ++ es
      script := s.io.script.drop es.length
      tick := s.io.tick + es.length } }

@[simp] theorem quietly_params (es : List Event) (s : State) : (quietly es s).params = s.params := rfl
@[simp] theorem quietly_seq (es : List Event) (s : State) : (quietly es s).seq = s.seq := rfl
@[simp] theorem quietly_line (es : List Event) (s : State) : (quietly es s).line = es.foldl Line.after s.line := rfl
@[simp] theorem quietly_faults (es : List Event) (s : State) : (quietly es s).faults = s.faults := rfl
@[simp] theorem quietly_upos (es : List Event) (s : State) : (quietly es s).upos = s.upos := rfl
@[simp] theorem quietly_polls (es : List Event) (s : State) : (quietly es s).polls = s.polls := rfl
@[simp] theorem quietly_peer (es : List Event) (s : State) : (quietly es s).peer = s.peer := rfl
@[simp] theorem quietly_requests (es : List Event) (s : State) : (quietly es s).io.requests = s.io.requests := rfl
@[simp] theorem quietly_responses (es : List Event) (s : State) : (quietly es s).io.responses = s.io.responses := rfl
@[simp] theorem quietly_trace (es : List Event) (s : State) : (quietly es s).io.trace = s.io.trace ++ es := rfl
@[simp] theorem quietly_script (es : List Event) (s : State) :
    (quietly es s).io.script = s.io.script.drop es.length := rfl
@[simp] theorem quietly_tick (es : List Event) (s : State) : (quietly es s).io.tick = s.io.tick + es.length := rfl

theorem quietly_quietly (es fs : List Event) (s : State) : quietly fs (quietly es s) = quietly (es ++ fs) s := by
  simp [quietly, Nat.add_assoc]

end Sys2Proof.Machine

namespace Sys2Proof.Safety

open Sys2Proof.Machine

theorem Quiet.mono {m n : Nat} {s : State} (h : Quiet n s) (hm : m ≤ n) : Quiet m s := by
  refine List.IsPrefix.trans ?_ h
  rw [show n = m + (n - m) by omega, List.replicate_add]
  exact List.prefix_append _ _

/-- The rest of a quiet stretch is quiet. -/
theorem Quiet.rest {m n : Nat} {s : State} (h : Quiet (m + n) s) : List.replicate n PeerMove.stay <+: s.io.script.drop m := by
  obtain ⟨r, hr⟩ := h
  refine ⟨r, ?_⟩
  rw [← hr, List.replicate_add, List.append_assoc, List.drop_append_of_le_length (by simp)]
  simp

/-- A quiet stretch concerns the script alone. -/
theorem Quiet.congr {n : Nat} {s t : State} (h : Quiet n s) (ht : t.io.script = s.io.script) : Quiet n t := by
  unfold Quiet
  rw [ht]
  exact h

theorem Quiet.after {m n : Nat} {s t : State} (h : Quiet (m + n) s) (ht : t.io.script = s.io.script.drop m) :
    Quiet n t := by
  unfold Quiet
  rw [ht]
  exact h.rest

end Sys2Proof.Safety

namespace Sys2Proof.Machine

open Sys2Proof.Safety

/-- One place where the peer keeps still. -/
theorem peerTurn_quiet {s : State} (h : Quiet 1 s) :
    peerTurn s = { s with io := { s.io with script := s.io.script.drop 1, tick := s.io.tick + 1 } } := by
  obtain ⟨r, hr⟩ := h
  have : s.io.nextMove = .stay := by
    simp only [Io.nextMove, ← hr, List.replicate_one, List.singleton_append]
  simp [peerTurn, this, Peer.move, List.drop_one]

theorem emit_quiet {s : State} (h : Quiet 1 s) (e : Event) : emit e s = quietly [e] s := by
  simp [emit, peerTurn_quiet h, record, quietly]

theorem send_quiet {s : State} (h : Quiet 1 s) (o : Byte) (effect : State → State) :
    send o effect s = effect (quietly [.xchg o none] s) := by
  simp [send, peerTurn_quiet h, record, quietly]

/-- The state in which a read byte is answered: the peer's place has gone by, the event is not recorded yet. -/
def answering (s : State) : State :=
  { s with io := { s.io with script := s.io.script.drop 1, tick := s.io.tick + 1 } }

theorem receive_quiet {s : State} (h : Quiet 1 s) (answer : State → Byte) (effect : State → State) :
    receive answer effect s =
      (answer (answering s), effect (quietly [.xchg dummyByte (some (answer (answering s)))] s)) := by
  simp [receive, peerTurn_quiet h, record, quietly, answering]

/-- What a transaction's last effect must leave alone for the quiet laws: the script. -/
def KeepsScript (f : State → State) : Prop := ∀ s, (f s).io.script = s.io.script

theorem keepsScript_strobe (b : Byte) : KeepsScript (applyStrobe b) := by
  intro s
  unfold applyStrobe
  split_ifs <;> rfl

theorem strobeTx_quiet {s : State} (h : Quiet 3 s) {b : Byte} {last : State → State} (hl : KeepsScript last) :
    strobeTx b last s = advanceUpos (quietly [.csDeassert]
      (last (applyStrobe b (quietly [.csAssert, .xchg b none] s)))) := by
  have h1 : Quiet 1 s := h.mono (by omega)
  have h2 : Quiet 1 (quietly [.csAssert] s) := (h.mono (m := 1 + 1) (by omega)).after rfl
  rw [strobeTx, emit_quiet h1, send_quiet h2, quietly_quietly]
  rw [emit_quiet]
  · rfl
  · have : Quiet 1 (quietly [.csAssert, .xchg b none] s) := (h.mono (m := 2 + 1) (by omega)).after rfl
    exact this.congr (by rw [hl]; exact keepsScript_strobe b _)

theorem wregTx_quiet {s : State} (h : Quiet 4 s) {a : RegAddr} {v : Byte} {last : State → State}
    (hl : KeepsScript last) :
    wregTx a v last s = advanceUpos (quietly [.csDeassert]
      (last (writeReg a v (quietly [.csAssert, .xchg (s.params.wrByte a) none, .xchg v none] s)))) := by
  have h1 : Quiet 1 s := h.mono (by omega)
  have h2 : Quiet 1 (quietly [.csAssert] s) := (h.mono (m := 1 + 1) (by omega)).after rfl
  have h3 : Quiet 1 (quietly [.csAssert, .xchg (s.params.wrByte a) none] s) :=
    (h.mono (m := 2 + 1) (by omega)).after rfl
  have h4 : Quiet 1 (quietly [.csAssert, .xchg (s.params.wrByte a) none, .xchg v none] s) :=
    (h.mono (m := 3 + 1) (by omega)).after rfl
  rw [wregTx, emit_quiet h1, send_quiet h2, quietly_quietly, id, List.singleton_append, send_quiet h3,
    quietly_quietly]
  rw [emit_quiet]
  · rfl
  · exact h4.congr (by rw [hl]; rfl)

theorem rregTx_quiet {s : State} (h : Quiet 6 s) {a : RegAddr} {v : Byte}
    (hv : answerSingle a (answering (quietly [.csAssert, .xchg (s.params.rdByte a) none, .dirIn] s)) = v) :
    rregTx a s = (v, advanceUpos (quietly [.dirOut, .csDeassert] (afterRead a
      (quietly [.csAssert, .xchg (s.params.rdByte a) none, .dirIn, .xchg dummyByte (some v)] s)))) := by
  have h1 : Quiet 1 s := h.mono (by omega)
  have h2 : Quiet 1 (quietly [.csAssert] s) := (h.mono (m := 1 + 1) (by omega)).after rfl
  have h3 : Quiet 1 (quietly [.csAssert, .xchg (s.params.rdByte a) none] s) :=
    (h.mono (m := 2 + 1) (by omega)).after rfl
  have h4 : Quiet 1 (quietly [.csAssert, .xchg (s.params.rdByte a) none, .dirIn] s) :=
    (h.mono (m := 3 + 1) (by omega)).after rfl
  have h5 : Quiet 1 (afterRead a (quietly [.csAssert, .xchg (s.params.rdByte a) none, .dirIn,
      .xchg dummyByte (some v)] s)) := (h.mono (m := 4 + 1) (by omega)).after rfl
  have h6 : Quiet 1 (quietly [.dirOut] (afterRead a (quietly [.csAssert, .xchg (s.params.rdByte a) none, .dirIn,
      .xchg dummyByte (some v)] s))) := (h.mono (m := 5 + 1) (by omega)).after (by simp)
  simp only [rregTx]
  rw [emit_quiet h1, send_quiet h2, quietly_quietly, id, List.singleton_append, emit_quiet h3, quietly_quietly,
    List.cons_append, List.singleton_append, receive_quiet h4, hv, quietly_quietly]
  simp only [List.cons_append, List.nil_append]
  rw [emit_quiet h5, emit_quiet h6, quietly_quietly]
  rfl

end Sys2Proof.Machine
end

