-- ==== Sys2Proof/Laws/Drift.lean ====
section
/-! SUPPORT. A transaction as one update of the state, whatever the peer does of its own: `passing es` is the run of the
events `es` with the peer's own steps, and every effect that the peer's own steps do not look at commutes with it. -/

namespace Sys2Proof.Machine

open Sys2Proof.Safety

/-! ### The peer left to itself -/

@[simp] theorem drift_zero (s : State) : drift 0 s = s := rfl

theorem drift_succ (n : Nat) (s : State) : drift (n + 1) s = drift n (peerTurn s) := rfl

theorem drift_add (m n : Nat) : ∀ s : State, drift (m + n) s = drift n (drift m s) := by
  induction m with
  | zero => intro s; simp
  | succ m ih => intro s; rw [Nat.succ_add]; exact ih _

/-- The peer's own steps touch the peer and the places alone. -/
theorem drift_eq (n : Nat) : ∀ s : State, drift n s =
    { s with peer := (drift n s).peer, io := { s.io with script := s.io.script.drop n, tick := s.io.tick + n } } := by
  induction n with
  | zero => intro s; simp
  | succ n ih =>
    intro s
    rw [drift_succ, ih]
    simp [peerTurn, Nat.add_comm, Nat.add_left_comm]

@[simp] theorem drift_params (n : Nat) (s : State) : (drift n s).params = s.params := by rw [drift_eq]
@[simp] theorem drift_script (n : Nat) (s : State) : (drift n s).io.script = s.io.script.drop n := by rw [drift_eq]
@[simp] theorem drift_tick (n : Nat) (s : State) : (drift n s).io.tick = s.io.tick + n := by rw [drift_eq]

/-- The peer's own steps look at the peer and the places alone. -/
theorem drift_congr {s t : State} (hp : t.peer = s.peer) (hs : t.io.script = s.io.script)
    (ht : t.io.tick = s.io.tick) (n : Nat) : (drift n t).peer = (drift n s).peer := by
  induction n generalizing s t with
  | zero => exact hp
  | succ n ih => exact ih (by simp [peerTurn, Io.nextMove, hp, hs, ht]) (by simp [peerTurn, hs]) (by simp [peerTurn, ht])

/-- A property of the peer kept by each of its own steps. -/
theorem drift_keeps {P : Peer → Prop} (h : ∀ x m d, P x → P (x.move m d)) (n : Nat) :
    ∀ s : State, P s.peer → P (drift n s).peer := by
  induction n with
  | zero => intro s hs; exact hs
  | succ n ih => intro s hs; exact ih _ (h _ _ _ hs)

@[simp] theorem drift_reg (n : Nat) (s : State) : (drift n s).peer.reg = s.peer.reg :=
  drift_keeps (P := fun x => x.reg = s.peer.reg) (fun _ _ _ h => by simpa using h) n s rfl

@[simp] theorem drift_idb (n : Nat) (s : State) : (drift n s).peer.idb = s.peer.idb :=
  drift_keeps (P := fun x => x.idb = s.peer.idb) (fun _ _ _ h => by simpa using h) n s rfl

@[simp] theorem drift_rdptr (n : Nat) (s : State) : (drift n s).peer.rdptr = s.peer.rdptr :=
  drift_keeps (P := fun x => x.rdptr = s.peer.rdptr) (fun _ _ _ h => by simpa using h) n s rfl

@[simp] theorem drift_rxChan (n : Nat) (s : State) : (drift n s).peer.rxChan = s.peer.rxChan :=
  drift_keeps (P := fun x => x.rxChan = s.peer.rxChan) (fun _ _ _ h => by simpa using h) n s rfl

@[simp] theorem drift_cfgOk (n : Nat) (s : State) : (drift n s).peer.cfgOk = s.peer.cfgOk :=
  drift_keeps (P := fun x => x.cfgOk = s.peer.cfgOk) (fun _ _ _ h => by simpa using h) n s rfl

/-- In `Idle`, `Standby` and `Filled` the peer does nothing of its own. -/
theorem drift_still {s : State} (n : Nat) (h1 : s.peer.mode ≠ .calibrating) (h2 : s.peer.mode ≠ .receiving) :
    (drift n s).peer = s.peer :=
  drift_keeps (P := fun x => x = s.peer) (fun x m d h => by subst h; exact Peer.move_still m d h1 h2) n s rfl

/-- The peer does not begin to calibrate of its own (spec/20_memory.md R80). -/
theorem drift_not_calibrating {s : State} (n : Nat) (h : s.peer.mode ≠ .calibrating) :
    (drift n s).peer.mode ≠ .calibrating := by
  refine drift_keeps (P := fun x => x.mode ≠ .calibrating) (fun x m d hx => ?_) n s h
  rcases Peer.move_cases x m d with h' | ⟨_, h'⟩ | ⟨_, _, _, h'⟩ <;> rw [h']
  · exact hx
  · simp
  · simp

/-- A peer that may be armed stays one that may be armed. -/
theorem drift_armable {s : State} (n : Nat) (h : Mode.armable s.peer.mode = true) :
    Mode.armable (drift n s).peer.mode = true := by
  refine drift_keeps (P := fun x => Mode.armable x.mode = true) (fun x m d hx => ?_) n s h
  rcases Peer.move_cases x m d with h' | ⟨_, h'⟩ | ⟨_, _, _, h'⟩ <;> rw [h']
  · exact hx
  · rfl
  · rfl

theorem drift_quiet {n : Nat} {s : State} (h : Quiet n s) : (drift n s).peer = s.peer := by
  induction n generalizing s with
  | zero => rfl
  | succ n ih =>
    have h1 : Quiet 1 s := h.mono (by omega)
    have hp : (peerTurn s).peer = s.peer := by rw [peerTurn_quiet h1]
    rw [drift_succ, ih, hp]
    exact (h.mono (m := 1 + n) (by omega)).after (by rw [peerTurn_quiet h1])

/-! ### A run of events -/

/-- The state after the events `es`, the peer having stepped of its own before each. -/
def passing (es : List Event) (s : State) : State :=
  { s with
    line := es.foldl Line.after s.line
    peer := (drift es.length s).peer
    io := { s.io with
      trace := s.io.trace ++ es
      script := s.io.script.drop es.length
      tick := s.io.tick + es.length } }

@[simp] theorem passing_params (es : List Event) (s : State) : (passing es s).params = s.params := rfl
@[simp] theorem passing_seq (es : List Event) (s : State) : (passing es s).seq = s.seq := rfl
@[simp] theorem passing_line (es : List Event) (s : State) : (passing es s).line = es.foldl Line.after s.line := rfl
@[simp] theorem passing_faults (es : List Event) (s : State) : (passing es s).faults = s.faults := rfl
@[simp] theorem passing_upos (es : List Event) (s : State) : (passing es s).upos = s.upos := rfl
@[simp] theorem passing_polls (es : List Event) (s : State) : (passing es s).polls = s.polls := rfl
@[simp] theorem passing_peer (es : List Event) (s : State) : (passing es s).peer = (drift es.length s).peer := rfl
@[simp] theorem passing_requests (es : List Event) (s : State) : (passing es s).io.requests = s.io.requests := rfl
@[simp] theorem passing_responses (es : List Event) (s : State) : (passing es s).io.responses = s.io.responses := rfl
@[simp] theorem passing_trace (es : List Event) (s : State) : (passing es s).io.trace = s.io.trace ++ es := rfl
@[simp] theorem passing_script (es : List Event) (s : State) :
    (passing es s).io.script = s.io.script.drop es.length := rfl
@[simp] theorem passing_tick (es : List Event) (s : State) : (passing es s).io.tick = s.io.tick + es.length := rfl

theorem passing_passing (es fs : List Event) (s : State) : passing fs (passing es s) = passing (es ++ fs) s := by
  have h : (drift fs.length (passing es s)).peer = (drift (es ++ fs).length s).peer := by
    rw [List.length_append, drift_add]
    exact drift_congr (by simp) (by simp) (by simp) _
  simp only [passing] at h ⊢
  simp [h, Nat.add_assoc]

theorem emit_passing (e : Event) (s : State) : emit e s = passing [e] s := by
  simp [emit, record, passing, drift, peerTurn, List.drop_one]

theorem send_passing (o : Byte) (effect : State → State) (s : State) :
    send o effect s = effect (passing [.xchg o none] s) := by
  simp [send, record, passing, drift, peerTurn, List.drop_one]

theorem receive_passing (answer : State → Byte) (effect : State → State) (s : State) :
    receive answer effect s =
      (answer (peerTurn s), effect (passing [.xchg dummyByte (some (answer (peerTurn s)))] s)) := by
  simp [receive, record, passing, drift, peerTurn, List.drop_one]

/-! ### Effects the peer's own steps do not look at -/

/-- The peer updated, and nothing else. -/
def onPeer (up : Peer → Peer) (s : State) : State := { s with peer := up s.peer }

/-- An update of the peer that commutes with its own steps. -/
def Free (up : Peer → Peer) : Prop := ∀ x m d, (up x).move m d = up (x.move m d)

theorem free_fields (fr : Memory → Memory) (fi : Vector Byte 4 → Vector Byte 4) (fp : Nat → Nat) :
    Free fun x => { x with reg := fr x.reg, idb := fi x.idb, rdptr := fp x.rdptr } := by
  intro x m d
  cases m with
  | stay => rfl
  | calDone => simp only [Peer.move, Peer.calDone]; split_ifs <;> rfl
  | frameArrive f c => simp only [Peer.move, Peer.frameArrive]; split_ifs <;> rfl

theorem Free.comp {f g : Peer → Peer} (hf : Free f) (hg : Free g) : Free fun x => f (g x) := by
  intro x m d
  rw [hf, hg]

theorem drift_onPeer {up : Peer → Peer} (h : Free up) (n : Nat) : ∀ s : State,
    (drift n (onPeer up s)).peer = up (drift n s).peer := by
  induction n with
  | zero => intro s; rfl
  | succ n ih =>
    intro s
    rw [drift_succ, drift_succ, ← ih]
    congr 2
    simp [peerTurn, onPeer, h _ _ _]

theorem passing_onPeer {up : Peer → Peer} (h : Free up) (es : List Event) (s : State) :
    passing es (onPeer up s) = onPeer up (passing es s) := by
  have := drift_onPeer h es.length s
  simp only [passing, this]
  rfl

theorem onPeer_onPeer (f g : Peer → Peer) (s : State) : onPeer f (onPeer g s) = onPeer (fun x => f (g x)) s := rfl

/-! ### The transactions -/

/-- What a register write does to the peer. -/
def upWrite (a : RegAddr) (v : Byte) (x : Peer) : Peer := { x with reg := x.reg.write a.toNat v }

theorem upWrite_free (a : RegAddr) (v : Byte) : Free (upWrite a v) :=
  free_fields (fun m => m.write a.toNat v) id id

theorem writeReg_eq (a : RegAddr) (v : Byte) : writeReg a v = onPeer (upWrite a v) := rfl

/-- What data byte `i` of a burst write does to the peer. -/
def upByte (p : ChipParams) (a : RegAddr) (i : Nat) (v : Byte) (x : Peer) : Peer :=
  if a = p.idReg then { x with idb := x.idb.setIfInBounds i v } else upWrite a v x

theorem upByte_free (p : ChipParams) (a : RegAddr) (i : Nat) (v : Byte) : Free (upByte p a i v) := by
  intro x m d
  unfold upByte
  split_ifs
  · exact free_fields id (fun w => w.setIfInBounds i v) id x m d
  · exact upWrite_free a v x m d

theorem writeBurstByte_eq (a : RegAddr) (i : Nat) (v : Byte) (s : State) :
    writeBurstByte a i v s = onPeer (upByte s.params a i v) s := by
  unfold writeBurstByte onPeer upByte
  split_ifs <;> rfl

/-- What the data bytes of a burst write do to the peer, from byte `i` on. -/
def upBurst (p : ChipParams) (a : RegAddr) : Nat → List Byte → Peer → Peer
  | _, [], x => x
  | i, v :: vs, x => upBurst p a (i + 1) vs (upByte p a i v x)

theorem upBurst_free (p : ChipParams) (a : RegAddr) (vs : List Byte) : ∀ i, Free (upBurst p a i vs) := by
  induction vs with
  | nil => intro i x m d; rfl
  | cons v vs ih =>
    intro i
    exact (ih (i + 1)).comp (upByte_free p a i v)

/-- What the reading of `n` data bytes does to the peer. -/
def upRead (p : ChipParams) (a : RegAddr) (n : Nat) (x : Peer) : Peer :=
  { x with rdptr := if a = p.fifoReg then x.rdptr + n else x.rdptr }

theorem upRead_free (p : ChipParams) (a : RegAddr) (n : Nat) : Free (upRead p a n) :=
  free_fields id id fun k => if a = p.fifoReg then k + n else k

theorem strobeTx_passing (b : Byte) (last : State → State) (s : State) :
    strobeTx b last s = advanceUpos (passing [.csDeassert]
      (last (applyStrobe b (passing [.csAssert, .xchg b none] s)))) := by
  rw [strobeTx, emit_passing, emit_passing, send_passing, passing_passing]
  rfl

/-- A single write, whatever the peer does of its own. -/
theorem wregTx_passing (a : RegAddr) (v : Byte) (s : State) :
    wregTx a v id s = advanceUpos (onPeer (upWrite a v) (passing (wregEvents s.params a v) s)) := by
  simp only [wregTx, emit_passing, send_passing, passing_passing, id, writeReg_eq, passing_onPeer (upWrite_free a v)]
  rfl

theorem sendBytes_passing (a : RegAddr) (vs : List Byte) : ∀ (i : Nat) (s : State),
    sendBytes a i vs s = onPeer (upBurst s.params a i vs) (passing (vs.map fun v => .xchg v none) s) := by
  induction vs with
  | nil => intro i s; simp [sendBytes, passing, onPeer, upBurst]
  | cons v vs ih =>
    intro i s
    rw [sendBytes, send_passing, writeBurstByte_eq, ih, passing_onPeer (upByte_free _ a i v), passing_passing,
      onPeer_onPeer]
    rfl

/-- A burst write, whatever the peer does of its own. -/
theorem wburstTx_passing (a : RegAddr) (vs : List Byte) (s : State) :
    wburstTx a vs id s = advanceUpos (onPeer (upBurst s.params a 0 vs) (passing (wburstEvents s.params a vs) s)) := by
  simp only [wburstTx, emit_passing, send_passing, passing_passing, id, sendBytes_passing, passing_params,
    passing_onPeer (upBurst_free s.params a vs 0)]
  simp [wburstEvents]

theorem afterRead_eq (a : RegAddr) (s : State) : afterRead a s = onPeer (upRead s.params a 1) s := rfl

/-- The places before a byte is answered, in a single read. -/
theorem rregTx_answer (a : RegAddr) (s : State) :
    (rregTx a s).1 = answerSingle a (peerTurn (passing [.csAssert, .xchg (s.params.rdByte a) none, .dirIn] s)) := by
  simp only [rregTx, emit_passing, send_passing, receive_passing, passing_passing, id]
  rfl

/-- A single read, whatever the peer does of its own. -/
theorem rregTx_passing (a : RegAddr) (s : State) :
    (rregTx a s).2 = advanceUpos (onPeer (upRead s.params a 1)
      (passing (readEvents s.params a [(rregTx a s).1]) s)) := by
  rw [rregTx_answer]
  simp only [rregTx, emit_passing, send_passing, receive_passing, passing_passing, id, afterRead_eq, passing_params,
    passing_onPeer (upRead_free s.params a 1)]
  simp [readEvents]

theorem upRead_upRead (p : ChipParams) (a : RegAddr) (m n : Nat) (x : Peer) :
    upRead p a n (upRead p a m x) = upRead p a (m + n) x := by
  simp only [upRead]
  split_ifs
  · simp [Nat.add_assoc]
  · rfl

theorem receiveBytes_passing {ans : Nat → State → Byte} (a : RegAddr) (n : Nat) : ∀ (i : Nat) (s : State),
    (receiveBytes ans a n i s).2 = onPeer (upRead s.params a n)
      (passing ((receiveBytes ans a n i s).1.map fun b => .xchg dummyByte (some b)) s) := by
  induction n with
  | zero =>
    intro i s
    simp only [receiveBytes, List.map_nil, passing, onPeer, upRead]
    split_ifs <;> simp
  | succ n ih =>
    intro i s
    simp only [receiveBytes]
    rw [ih, receive_passing]
    simp only [afterRead_eq]
    generalize (receiveBytes ans a n (i + 1) _).1 = bs
    rw [passing_onPeer (upRead_free _ a 1), passing_passing, onPeer_onPeer]
    simp only [passing_params, onPeer, upRead_upRead, Nat.add_comm 1 n, List.singleton_append, List.map_cons]

/-- A burst read, whatever the peer does of its own. -/
theorem rburstTx_passing {ans : Nat → State → Byte} (a : RegAddr) (n : Nat) (s : State) :
    (rburstTx ans a n s).2 = advanceUpos (onPeer (upRead s.params a n)
      (passing (readEvents s.params a (rburstTx ans a n s).1) s)) := by
  simp only [rburstTx, emit_passing, send_passing, passing_passing, id]
  rw [receiveBytes_passing]
  simp only [passing_params, passing_onPeer (upRead_free s.params a n), passing_passing]
  simp [readEvents]

end Sys2Proof.Machine
end

