-- ==== Sys2Proof/Laws/Moves.lean ====
section
/-! SUPPORT. Every transaction, every sequence of them and the two halves of `configure` as one move of the block: the
fields of the block that stay, the position, the line and the trace. -/

namespace Sys2Proof.Machine

open Sys2Proof.Safety

/-! ### A stretch of transactions as the block sees it -/

/-- `t` comes after `s` by `n` transactions with the events `es`: what the block keeps and what moves. -/
structure Moved (s t : State) (es : List Event) (n : Nat) : Prop where
  params : t.params = s.params
  seq : t.seq = s.seq
  line : s.line = Line.quiet → t.line = Line.quiet
  upos : t.upos = s.upos.plus n
  polls : t.polls = s.polls
  requests : t.io.requests = s.io.requests
  responses : t.io.responses = s.io.responses
  trace : t.io.trace = s.io.trace ++ es

/-- Positions add up. -/
theorem plus_plus (u : Upos) (m n : Nat) : (u.plus m).plus n = u.plus (m + n) := by
  cases u <;> simp [Upos.plus, Nat.add_assoc]

/-- Stretches follow one another. -/
theorem Moved.trans {s t u : State} {es fs : List Event} {m n : Nat} (h : Moved s t es m) (k : Moved t u fs n) :
    Moved s u (es ++ fs) (m + n) where
  params := k.params.trans h.params
  seq := k.seq.trans h.seq
  line hs := k.line (h.line hs)
  upos := by rw [k.upos, h.upos, plus_plus]
  polls := k.polls.trans h.polls
  requests := k.requests.trans h.requests
  responses := k.responses.trans h.responses
  trace := by rw [k.trace, h.trace, List.append_assoc]

/-! ### The transactions -/

/-- A write-kind transaction whose last effect touches the peer alone. -/
theorem performTx_moved (t : WriteTx) {last : State → State} (s : State)
    (hl : ∀ s, last s = { s with peer := (last s).peer }) :
    Moved s (performTx t last s) (writeTxEvents s.params t) 1 := by
  have off : ∀ {α : Type} (g : State → α), (∀ s x, g { s with peer := x } = g s) → ∀ s, g (last s) = g s := by
    intro α g hg s
    rw [hl s, hg]
  exact {
    params := performTx_params (off (·.params) fun _ _ => rfl) s
    seq := (performTx_deaf deaf_seq (off (·.seq) fun _ _ => rfl) s).trans (foldl_const _ _)
    line := fun hs => by
      have := performTx_deaf (t := t) deaf_line (off (·.line) fun _ _ => rfl) s
      rw [this, hs, line_after_write]
    upos := by rw [performTx_upos (off (·.upos) fun _ _ => rfl), ← Upos.plus_zero s.upos.next, Upos.plus_next]
    polls := (performTx_deaf deaf_polls (off (·.polls) fun _ _ => rfl) s).trans (foldl_const _ _)
    requests := (performTx_deaf deaf_requests (off (·.io.requests) fun _ _ => rfl) s).trans (foldl_const _ _)
    responses := (performTx_deaf deaf_responses (off (·.io.responses) fun _ _ => rfl) s).trans (foldl_const _ _)
    trace := (performTx_deaf deaf_trace (off (·.io.trace) fun _ _ => rfl) s).trans (foldl_append_each _ _) }

/-- A write-kind transaction (spec/40_transport_primitives.md R130, R131, R133). -/
theorem tx_moved (t : WriteTx) (s : State) : Moved s (performTx t id s) (writeTxEvents s.params t) 1 :=
  performTx_moved t s fun _ => rfl

theorem strobe_moved (b : Byte) (s : State) : Moved s (strobeTx b id s) (strobeEvents b) 1 := tx_moved (.strobe b) s

theorem wreg_moved (a : RegAddr) (v : Byte) (s : State) : Moved s (wregTx a v id s) (wregEvents s.params a v) 1 :=
  tx_moved (.wreg a v) s

theorem wburst_moved (a : RegAddr) (vs : List Byte) (s : State) :
    Moved s (wburstTx a vs id s) (wburstEvents s.params a vs) 1 := tx_moved (.wburst a vs) s

/-- A single read (R132). -/
theorem rreg_moved (a : RegAddr) (s : State) : Moved s (rregTx a s).2 (readEvents s.params a [(rregTx a s).1]) 1 where
  params := by simp
  seq := (rregTx_tracks deaf_seq.toTracks (deaf_seq.read a) s).trans (foldl_const _ _)
  line hs := by
    have := rregTx_tracks deaf_line.toTracks (deaf_line.read a) s
    rw [this, hs, line_after_read]
  upos := by rw [rregTx_upos, ← Upos.plus_zero s.upos.next, Upos.plus_next]
  polls := (rregTx_tracks deaf_polls.toTracks (deaf_polls.read a) s).trans (foldl_const _ _)
  requests := (rregTx_tracks deaf_requests.toTracks (deaf_requests.read a) s).trans (foldl_const _ _)
  responses := (rregTx_tracks deaf_responses.toTracks (deaf_responses.read a) s).trans (foldl_const _ _)
  trace := (rregTx_tracks deaf_trace.toTracks (deaf_trace.read a) s).trans (foldl_append_each _ _)

/-- A burst read (R134). -/
theorem rburst_moved {ans : Nat → State → Byte} (a : RegAddr) (n : Nat) (s : State) :
    Moved s (rburstTx ans a n s).2 (readEvents s.params a (rburstTx ans a n s).1) 1 where
  params := by simp
  seq := (rburstTx_tracks deaf_seq.toTracks (deaf_seq.read a) n s).trans (foldl_const _ _)
  line hs := by
    have := rburstTx_tracks (ans := ans) deaf_line.toTracks (deaf_line.read a) n s
    rw [this, hs, line_after_read]
  upos := by rw [rburstTx_upos, ← Upos.plus_zero s.upos.next, Upos.plus_next]
  polls := (rburstTx_tracks deaf_polls.toTracks (deaf_polls.read a) n s).trans (foldl_const _ _)
  requests := (rburstTx_tracks deaf_requests.toTracks (deaf_requests.read a) n s).trans (foldl_const _ _)
  responses := (rburstTx_tracks deaf_responses.toTracks (deaf_responses.read a) n s).trans (foldl_const _ _)
  trace := (rburstTx_tracks deaf_trace.toTracks (deaf_trace.read a) n s).trans (foldl_append_each _ _)

/-! ### Sequences -/

/-- A sequence of write-kind transactions, with an effect of the peer at the last exchange. -/
theorem performAll_moved (ts : List WriteTx) {last : State → State}
    (hl : ∀ s, last s = { s with peer := (last s).peer }) :
    ∀ s : State, Moved s (performAll ts last s) (writeAllEvents s.params ts) ts.length := by
  induction ts with
  | nil => intro s; exact ⟨rfl, rfl, id, by simp [performAll], rfl, rfl, rfl, by simp [performAll, writeAllEvents]⟩
  | cons t ts ih =>
    intro s
    cases ts with
    | nil =>
      simpa [performAll, writeAllEvents] using performTx_moved t s hl
    | cons u us =>
      have h1 := tx_moved t s
      have h2 := h1.trans (ih (performTx t id s))
      rw [h1.params] at h2
      rw [performAll]
      have e1 : writeTxEvents s.params t ++ writeAllEvents s.params (u :: us) =
          writeAllEvents s.params (t :: u :: us) := by
        simp [writeAllEvents]
      have e2 : 1 + (u :: us).length = (t :: u :: us).length := by simp; omega
      rw [e1, e2] at h2
      exact h2

/-- The table phase of `configure` (spec/41_radio_driver.md R152). -/
theorem table_moved (es : List (RegAddr × Option Byte)) : ∀ s : State,
    Moved s (configureTable es s) (es.flatMap (tableEntryEvents s.params)) es.length := by
  induction es with
  | nil => intro s; exact ⟨rfl, rfl, id, by simp [configureTable], rfl, rfl, rfl, by simp [configureTable]⟩
  | cons e es ih =>
    intro s
    rcases e with ⟨a, _ | v⟩
    · have h1 : Moved s (advanceUpos s) [] 1 :=
        ⟨rfl, rfl, id, by rw [advanceUpos_upos, ← Upos.plus_zero s.upos.next, Upos.plus_next], rfl, rfl, rfl, by simp⟩
      have := h1.trans (ih _)
      simpa [configureTable, tableEntryEvents, Nat.add_comm] using this
    · have h1 := wreg_moved a v s
      have := h1.trans (ih _)
      rw [h1.params] at this
      simpa [configureTable, tableEntryEvents, Nat.add_comm] using this

/-- The read-back of the calibration status registers (R153). -/
theorem status_moved (rs : List RegAddr) : ∀ s : State,
    Moved s (readStatus rs s).2 ((rs.zip (readStatus rs s).1).flatMap fun ab => readEvents s.params ab.1 [ab.2]) rs.length := by
  induction rs with
  | nil => intro s; exact ⟨rfl, rfl, id, by simp [readStatus], rfl, rfl, rfl, by simp [readStatus]⟩
  | cons a rs ih =>
    intro s
    have h1 := rreg_moved a s
    have := h1.trans (ih _)
    rw [h1.params] at this
    simpa [readStatus, Nat.add_comm] using this

/-! ### Operations made of them -/

/-- An operation that is one stretch returns as `Returned` says. -/
theorem returned_of {op : OpName} {s t : State} {es : List Event} {n : Nat} (h : Moved (begin op s) t es n)
    (hl : s.line = Line.quiet) (r : Response) : Returned s (finish r t) es r where
  params := h.params
  seq := h.seq
  line := h.line hl
  upos := rfl
  polls := h.polls
  requests := h.requests
  responses := by simp [h.responses]
  trace := by simp [h.trace]

/-- A transaction standing alone is `Transacted`. -/
theorem transacted_of {s t : State} {es : List Event} (h : Moved s t es 1) (hl : s.line = Line.quiet) :
    Transacted s t es where
  params := h.params
  seq := h.seq
  line := h.line hl
  upos := by rw [h.upos, ← Upos.plus_zero s.upos.next, Upos.plus_next]
  polls := h.polls
  requests := h.requests
  responses := h.responses
  trace := h.trace

/-- The state of `configure`, issued in `s`, at its first poll. -/
def atPoll (s : State) : State := enterCalibration (configureTable s.params.regTable (begin .configure s))

/-- `configure` up to its first poll (R152, R153). -/
theorem head_moved (s : State) : Moved (begin .configure s) { atPoll s with polls :=
    s.polls } (configureHeadEvents s.params)
    (pollPosition s.params) := by
  have h1 := table_moved s.params.regTable (begin .configure s)
  have h2 := strobe_moved s.params.strobeStandby (configureTable s.params.regTable (begin .configure s))
  have h3 := performAll_moved s.params.calTriggerSeq (last := startCalibration) (fun _ => rfl)
    (strobeTx s.params.strobeStandby id (configureTable s.params.regTable (begin .configure s)))
  have := (h1.trans h2).trans h3
  rw [(h1.trans h2).params] at this
  have hc : (configureTable s.params.regTable (begin .configure s)).params = s.params := h1.params
  refine ⟨?_, ?_, ?_, ?_, ?_, ?_, ?_, ?_⟩
  · simp [atPoll]
  · have := this.seq; simpa [atPoll, enterCalibration, hc] using this
  · have := this.line; simpa [atPoll, enterCalibration, hc] using this
  · have := this.upos
    simpa [atPoll, enterCalibration, hc, pollPosition, Nat.add_assoc] using this
  · simp
  · have := this.requests; simpa [atPoll, enterCalibration, hc] using this
  · have := this.responses; simpa [atPoll, enterCalibration, hc] using this
  · have := this.trace
    simpa [atPoll, enterCalibration, hc, configureHeadEvents, tableEvents] using this

/-- `configure` after its last poll (R153). -/
theorem tail_moved (s : State) : ∃ t bs,
    configureTail s =
      finish (success (.bytes bs)) { t with peer := { t.peer with cfgOk := true }, polls := 0 } ∧
    bs.length = s.params.calStatusRegs.length ∧ Moved s t (configureTailEvents s.params bs)
        (s.params.calStatusRegs.length + 1 + 1 + 1) := by
  have h1 := status_moved s.params.calStatusRegs s
  have hp := h1.params
  refine ⟨_, _, rfl, readStatus_length _ _, ?_⟩
  have h2 := wreg_moved s.params.trim1.1 s.params.trim1.2 (readStatus s.params.calStatusRegs s).2
  have h3 := wreg_moved s.params.trim2.1 s.params.trim2.2 (wregTx s.params.trim1.1 s.params.trim1.2 id (readStatus s.params.calStatusRegs s).2)
  have h4 := strobe_moved s.params.strobeStandby (wregTx s.params.trim2.1 s.params.trim2.2 id (wregTx s.params.trim1.1 s.params.trim1.2 id (readStatus s.params.calStatusRegs s).2))
  have h23 := h2.trans h3
  rw [h2.params, hp] at h23
  have := (h1.trans h23).trans h4
  simpa [configureTailEvents, statusEvents, List.append_assoc, Nat.add_assoc] using this

end Sys2Proof.Machine
end

