-- ==== Sys2Proof/Laws/Effects.lean ====
section
/-! SUPPORT. What each transaction does to the peer, whatever the peer does of its own meanwhile, and what each read
answers. -/

namespace Sys2Proof.Machine

open Sys2Proof.Safety

/-! ### Strobes (spec/20_memory.md R81) -/

/-- A strobe is its reaction between two stretches of the peer's own steps. -/
theorem strobeTx_id (b : Byte) (s : State) : strobeTx b id s = advanceUpos (passing [.csDeassert]
    (applyStrobe b (passing [.csAssert, .xchg b none] s))) := strobeTx_passing b id s

theorem applyStrobe_reg (b : Byte) (s : State) : (applyStrobe b s).peer.reg = s.peer.reg := by
  unfold applyStrobe; split_ifs <;> rfl

theorem applyStrobe_idb (b : Byte) (s : State) : (applyStrobe b s).peer.idb = s.peer.idb := by
  unfold applyStrobe; split_ifs <;> rfl

theorem applyStrobe_cfgOk (b : Byte) (s : State) : (applyStrobe b s).peer.cfgOk = s.peer.cfgOk := by
  unfold applyStrobe; split_ifs <;> rfl

/-- Only the reset-read-pointer strobe moves the read pointer. -/
theorem applyStrobe_rdptr (b : Byte) (s : State) : (applyStrobe b s).peer.rdptr =
    if b = s.params.strobeRstRdptr ∧ b ≠ s.params.strobeStandby then 0 else s.peer.rdptr := by
  unfold applyStrobe
  split_ifs <;> simp_all

/-- Only the receive-arm strobe records a fault or sets the channel of reception. -/
theorem applyStrobe_other (b : Byte) (s : State) (h : b ≠ s.params.strobeRx) :
    (applyStrobe b s).faults = s.faults ∧ (applyStrobe b s).peer.rxChan = s.peer.rxChan := by
  unfold applyStrobe
  split_ifs <;> simp_all

@[simp] theorem strobe_reg (b : Byte) (s : State) : (strobeTx b id s).peer.reg = s.peer.reg := by
  simp [strobeTx_id, applyStrobe_reg]

@[simp] theorem strobe_idb (b : Byte) (s : State) : (strobeTx b id s).peer.idb = s.peer.idb := by
  simp [strobeTx_id, applyStrobe_idb]

@[simp] theorem strobe_cfgOk (b : Byte) (s : State) : (strobeTx b id s).peer.cfgOk = s.peer.cfgOk := by
  simp [strobeTx_id, applyStrobe_cfgOk]

theorem strobe_rdptr (b : Byte) (s : State) : (strobeTx b id s).peer.rdptr =
    if b = s.params.strobeRstRdptr ∧ b ≠ s.params.strobeStandby then 0 else s.peer.rdptr := by
  simp only [strobeTx_id, advanceUpos_peer, passing_peer, drift_rdptr, applyStrobe_rdptr, passing_params]

theorem strobe_other (b : Byte) (s : State) (h : b ≠ s.params.strobeRx) :
    (strobeTx b id s).faults = s.faults ∧ (strobeTx b id s).peer.rxChan = s.peer.rxChan := by
  have := applyStrobe_other b (passing [.csAssert, .xchg b none] s) h
  simp only [strobeTx_id, advanceUpos_peer, passing_peer, drift_rxChan, advanceUpos_faults, passing_faults, this]
  simp

/-- What a strobe can record. -/
theorem strobe_faults (b : Byte) (s : State) : (strobeTx b id s).faults = s.faults ∨
    ∃ m, (strobeTx b id s).faults = insertFault (.callOrder s.upos.op? m) s.faults := by
  simp only [strobeTx_id, advanceUpos_faults, passing_faults]
  unfold applyStrobe
  split_ifs
  · exact .inl rfl
  · exact .inl rfl
  · rw [strobeRx_faults]
    split_ifs
    · exact .inr ⟨_, rfl⟩
    · exact .inl rfl
  · exact .inl rfl

/-- The three strobe bytes differ (spec/00_scope.md R10 c). -/
theorem strobes_ne {p : ChipParams} (h : p.wf = true) :
    p.strobeStandby ≠ p.strobeRstRdptr ∧ p.strobeStandby ≠ p.strobeRx ∧ p.strobeRstRdptr ≠ p.strobeRx := by
  have hs : p.strobesOk = true := by
    simp only [ChipParams.wf, List.all_cons, List.all_nil, id, Bool.and_eq_true] at h
    tauto
  have hn : ChipParams.noRepeat p.strobes = true := by
    simp only [ChipParams.strobesOk, List.all_cons (f := id), id, Bool.and_eq_true] at hs
    exact hs.1
  refine ⟨fun e => ?_, fun e => ?_, fun e => ?_⟩ <;>
    simp [ChipParams.noRepeat, ChipParams.holds, ChipParams.strobes, e] at hn

/-- The four roles lie at four addresses (R10 g). -/
theorem roles_ne {p : ChipParams} (h : p.wf = true) :
    p.idReg ≠ p.fifoReg ∧ p.idReg ≠ p.channelReg ∧ p.idReg ≠ p.statusReg ∧
      p.fifoReg ≠ p.channelReg ∧ p.fifoReg ≠ p.statusReg ∧ p.channelReg ≠ p.statusReg := by
  have hn : p.rolesOk = true := by
    simp only [ChipParams.wf, List.all_cons, List.all_nil, id, Bool.and_eq_true] at h
    tauto
  refine ⟨fun e => ?_, fun e => ?_, fun e => ?_, fun e => ?_, fun e => ?_, fun e => ?_⟩ <;>
    simp [ChipParams.rolesOk, ChipParams.noRepeat, ChipParams.holds, e] at hn

/-- A peer that keeps still is unchanged by a run of events. -/
theorem passing_quiet {es : List Event} {s : State} (h : Quiet es.length s) : (passing es s).peer = s.peer :=
    drift_quiet h

/-- In `Standby` the peer stays. -/
theorem drift_standby {s : State} (n : Nat) (hm : s.peer.mode = .standby) : (drift n s).peer.mode = .standby := by
  rw [drift_still n (by simp [hm]) (by simp [hm]), hm]

/-- The standby strobe outside `Calibrating`. -/
theorem standby_mode {s : State} (h : s.peer.mode ≠ .calibrating) :
    (strobeTx s.params.strobeStandby id s).peer.mode = .standby := by
  rw [strobeTx_id, advanceUpos_peer]
  refine drift_standby _ ?_
  have : (passing [.csAssert, .xchg s.params.strobeStandby none] s).peer.mode ≠ .calibrating :=
      drift_not_calibrating _ h
  simp only [applyStrobe, passing_params, if_true]
  rw [strobeStandby_mode, if_neg this]

/-- The reset-read-pointer strobe leaves the mode to the peer. -/
theorem rst_mode (s : State) (h : s.params.strobeStandby ≠ s.params.strobeRstRdptr) :
    (strobeTx s.params.strobeRstRdptr id s).peer.mode = (drift 3 s).peer.mode := by
  rw [strobeTx_id]
  simp only [applyStrobe, passing_params, h.symm, if_true, if_false]
  have : (strobeRstRdptr (passing [.csAssert, .xchg s.params.strobeRstRdptr none] s)) =
      onPeer (fun x => { x with rdptr := 0 }) (passing [.csAssert, .xchg s.params.strobeRstRdptr none] s) := rfl
  have hf : Free (fun x : Peer => { x with rdptr := 0 }) := free_fields id id fun _ => 0
  rw [this, passing_onPeer hf, passing_passing]
  rfl

/-- The reset-read-pointer strobe zeroes the read pointer. -/
theorem rdptr_rst (s : State) (h : s.params.strobeStandby ≠ s.params.strobeRstRdptr) :
    (strobeTx s.params.strobeRstRdptr id s).peer.rdptr = 0 := by
  rw [strobe_rdptr, if_pos ⟨rfl, h.symm⟩]

/-- The reception listens on the channel of the strobe, where it is known (R89). -/
theorem strobeTx_rxChan (s : State) (h1 : s.params.strobeStandby ≠ s.params.strobeRx)
    (h2 : s.params.strobeRstRdptr ≠ s.params.strobeRx) {c : Byte} (hc : s.peer.chan s.params = some c) :
    (strobeTx s.params.strobeRx id s).peer.rxChan = c := by
  rw [strobeTx_id, advanceUpos_peer, passing_peer, drift_rxChan]
  simp only [applyStrobe, passing_params, h1.symm, h2.symm, if_true, if_false]
  rw [strobeRx_rxChan]
  exact armedChan_of_chan (by simpa [Peer.chan] using hc)

/-- The receive-arm strobe on a configured chip that may be armed. -/
theorem strobeRx_arms (s : State) (hw : s.params.wf = true) (hc : s.peer.cfgOk = true)
    (hm : Mode.armable s.peer.mode = true) :
   (strobeTx s.params.strobeRx id s).faults = s.faults ∧
   (((strobeTx s.params.strobeRx id s).peer.mode = .receiving ∧
       (strobeTx s.params.strobeRx id s).peer.filledLen = 0 ∧ (strobeTx s.params.strobeRx id s).peer.ready = false) ∨
    ((strobeTx s.params.strobeRx id s).peer.mode = .filled ∧ (strobeTx s.params.strobeRx id s).peer.filledLen =
        frameLen ∧ (strobeTx s.params.strobeRx id s).peer.ready = true)) ∧
   (s.io.script[2]? = some .stay → (strobeTx s.params.strobeRx id s).peer.mode = .receiving) := by
  obtain ⟨-, h1, h2⟩ := strobes_ne hw
  have e : strobeTx s.params.strobeRx id s = advanceUpos (passing [.csDeassert] (strobeRx (passing [.csAssert,
      .xchg s.params.strobeRx none] s))) := by
    rw [strobeTx_id]
    simp only [applyStrobe, passing_params, h1.symm, h2.symm, if_true, if_false]
  have hx : callOrderBroken (passing [.csAssert, .xchg s.params.strobeRx none] s).peer = false := by
    have := drift_armable 2 hm
    simp [callOrderBroken, hc, this]
  have ha : Mode.armable (passing [.csAssert, .xchg s.params.strobeRx none] s).peer.mode = true := drift_armable 2 hm
  have hs : (passing [.csAssert, .xchg s.params.strobeRx none] s).io.script = s.io.script.drop 2 := rfl
  rw [e]
  have hf : (passing [.csAssert, .xchg s.params.strobeRx none] s).faults = s.faults := rfl
  generalize (passing [.csAssert, .xchg s.params.strobeRx none] s) = x at *
  have hx1 : (strobeRx x).peer.mode = .receiving ∧ (strobeRx x).peer.filledLen = 0 ∧ (strobeRx x).peer.ready =
      false ∧ (strobeRx x).faults = x.faults ∧ (strobeRx x).io.script = x.io.script := by
    simp [hx, ha]
  generalize strobeRx x = y at *
  obtain ⟨y1, y2, y3, y4, y5⟩ := hx1
  have hp : (advanceUpos (passing [.csDeassert] y)).peer =
      y.peer.move y.io.nextMove (Config.freeReady .move y.io.tick) := rfl
  rw [hp]
  refine ⟨by show y.faults = _; rw [y4, hf], ?_, ?_⟩
  · rcases Peer.move_cases y.peer y.io.nextMove (Config.freeReady .move y.io.tick) with h | ⟨h, _⟩ | ⟨f, c, h, h'⟩
    · rw [h]; exact .inl ⟨y1, y2, y3⟩
    · rw [y1] at h; cases h
    · rw [h']; exact .inr ⟨rfl, rfl, rfl⟩
  · intro h
    have : y.io.nextMove = .stay := by
      have h0 : y.io.script[0]? = some .stay := by rw [y5, hs]; simpa using h
      unfold Io.nextMove
      cases hh : y.io.script with
      | nil => rw [hh] at h0; cases h0
      | cons a as => rw [hh] at h0; simp at h0; rw [h0]
    rw [this]; exact y1

/-- The receive-arm strobe where the order is broken (spec/60_exceptions.md R204). -/
theorem strobeRx_broken (s : State) (hw : s.params.wf = true) (hc : s.peer.cfgOk =
    false ∨ Mode.armable (drift 2 s).peer.mode = false) :
   (strobeTx s.params.strobeRx id s).faults = insertFault (.callOrder s.upos.op? (drift 2 s).peer.mode) s.faults := by
  obtain ⟨-, h1, h2⟩ := strobes_ne hw
  have e : strobeTx s.params.strobeRx id s = advanceUpos (passing [.csDeassert] (strobeRx (passing [.csAssert,
      .xchg s.params.strobeRx none] s))) := by
    rw [strobeTx_id]
    simp only [applyStrobe, passing_params, h1.symm, h2.symm, if_true, if_false]
  rw [e, advanceUpos_faults, passing_faults, strobeRx_faults]
  have hb : callOrderBroken (passing [.csAssert, .xchg s.params.strobeRx none] s).peer = true := by
    rcases hc with h | h
    · simp [callOrderBroken, h]
    · simp [callOrderBroken, h]
  rw [if_pos hb]; rfl

/-! ### Single accesses (R83, R82, R86) -/

theorem wreg_peer (a : RegAddr) (v : Byte) (s : State) : (wregTx a v id s).peer = upWrite a v (drift 4 s).peer :=
    by rw [wregTx_passing]; rfl

theorem wreg_faults (a : RegAddr) (v : Byte) (s : State) : (wregTx a v id s).faults = s.faults := by
  rw [wregTx_passing]; rfl

theorem wreg_reg (a : RegAddr) (v : Byte) (s : State) :
    (wregTx a v id s).peer.reg = s.peer.reg.write a.toNat v := by
  rw [wreg_peer]; simp [upWrite]

theorem rreg_peer (a : RegAddr) (s : State) : (rregTx a s).2.peer = upRead s.params a 1 (drift 6 s).peer := by
  rw [rregTx_passing]; rfl

theorem rreg_faults (a : RegAddr) (s : State) : (rregTx a s).2.faults = s.faults := by
  rw [rregTx_passing]; rfl

theorem rreg_reg (a : RegAddr) (s : State) : (rregTx a s).2.peer.reg = s.peer.reg := by rw [rreg_peer]; simp [upRead]

theorem rreg_cfgOk (a : RegAddr) (s : State) : (rregTx a s).2.peer.cfgOk = s.peer.cfgOk :=
    by rw [rreg_peer]; simp [upRead]

/-- The state at the data byte of a single read. -/
def atByte (a : RegAddr) (s : State) : State := peerTurn (passing [.csAssert, .xchg (s.params.rdByte a) none,
    .dirIn] s)

/-- A single read answers at its data byte. -/
theorem rreg_val (a : RegAddr) (s : State) : (rregTx a s).1 = answerSingle a (atByte a s) := rregTx_answer a s

@[simp] theorem atByte_params (a : RegAddr) (s : State) : (atByte a s).params = s.params := rfl

@[simp] theorem atByte_peer (a : RegAddr) (s : State) : (atByte a s).peer = (drift 4 s).peer := by
  rw [show (4:Nat) = 3 + 1 from rfl, drift_add]
  exact drift_congr (s := drift 3 s) (t := passing [.csAssert, .xchg (s.params.rdByte a) none, .dirIn] s)
      (by simp) (by simp) (by simp) 1

@[simp] theorem atByte_tick (a : RegAddr) (s : State) : (atByte a s).io.tick = s.io.tick + 4 := rfl

theorem mask_ne {p : ChipParams} (h : p.wf = true) : p.maskOk = true := by
  simp [ChipParams.wf] at h; tauto

/-- A poll byte is busy exactly in `Calibrating` (R82). -/
theorem pollAnswer_busy {s : State} (h : s.params.wf = true) : pollBusy s.params (pollAnswer s) =
    decide (s.peer.mode = .calibrating) := by
  unfold pollAnswer
  split_ifs with hm
  · rw [pollBusy_busyAnswer _ _ (mask_ne h)]; simp [hm]
  · simp [hm]

/-- The one bit of the CRC mask. -/
theorem crcMask_bit (p : ChipParams) (j : Nat) (hj : j < 8) : (crcMask p).getLsbD j = decide (j = p.crcBit.val) := by
  unfold crcMask
  rcases p.crcBit with ⟨k, hk⟩
  interval_cases k <;> interval_cases j <;> simp

/-- The status byte shows the flag (R86). -/
theorem statusAnswer_bit (p : ChipParams) (c : Bool) (d : Byte) : (statusAnswer p c d).getLsbD p.crcBit.val = c := by
  have hlt := p.crcBit.isLt
  have := crcMask_bit p p.crcBit.val hlt
  unfold statusAnswer
  split_ifs with h
  · simp [this, h]
  · simp [this, h]

theorem poll_notcal {a : RegAddr} {s : State} (h : (drift 4 s).peer.mode ≠ .calibrating) :
    (rregTx a s).2.peer.mode ≠ .calibrating := by
  rw [rreg_peer]
  show (drift 6 s).peer.mode ≠ _
  rw [show (6:Nat) = 4 + 2 from rfl, drift_add]
  exact drift_not_calibrating 2 h

/-- A poll answered outside `Calibrating` (R82, log 19). -/
theorem poll_idle {s : State} (hw : s.params.wf = true)
    (h : s.params.calPollReg = s.params.statusReg → (drift 4 s).peer.mode = .filled →
      s.params.calBusyMask.getLsbD s.params.crcBit.val = false)
    (hm : (drift 4 s).peer.mode ≠ .calibrating) : pollBusy s.params (rregTx s.params.calPollReg s).1 = false := by
  rw [rreg_val]
  have := pollBusy_answer (s := atByte s.params.calPollReg s) (mask_ne hw) (by simpa using h)
  simpa [hm] using this

/-- A poll answered in `Calibrating` (R82). -/
theorem poll_calibrating {s : State} (hw : s.params.wf = true) (hm : (drift 4 s).peer.mode = .calibrating) :
    pollBusy s.params (rregTx s.params.calPollReg s).1 = true := by
  rw [rreg_val]
  have := pollBusy_answer (s := atByte s.params.calPollReg s) (mask_ne hw) (by simp [hm])
  simpa [hm] using this

/-! ### Bursts (R66, R86, R87) -/

/-- A burst write on `ID_REG`: byte `i` goes to `idb[i]`, no register changes (R87). -/
theorem upBurst_id {p : ChipParams} (vs : List Byte) : ∀ (i : Nat) (x : Peer),
    (upBurst p p.idReg i vs x).reg = x.reg ∧ ∀ j : Fin 4, (upBurst p p.idReg i vs x).idb[j] =
      if i ≤ j.val then vs[j.val - i]?.getD x.idb[j] else x.idb[j] := by
  induction vs with
  | nil => intro i x; simp [upBurst]
  | cons v vs ih =>
    intro i x
    obtain ⟨h1, h2⟩ := ih (i + 1) (upByte p p.idReg i v x)
    refine ⟨by rw [upBurst, h1]; simp [upByte], fun j => ?_⟩
    rw [upBurst, h2]
    have : (upByte p p.idReg i v x).idb = x.idb.setIfInBounds i v := by simp [upByte]
    rw [this]
    have hj := j.isLt
    by_cases hij : i = j.val
    · subst hij; simp
    · by_cases hlt : i ≤ j.val
      · have : i + 1 ≤ j.val := by omega
        rw [if_pos this, if_pos hlt]
        have e : j.val - i = (j.val - (i+1)) + 1 := by omega
        rw [e, List.getElem?_cons_succ]
        simp [hij]
      · rw [if_neg (by omega), if_neg hlt]; simp [hij]

/-- A burst write elsewhere: the last byte stays in the register (R66). -/
theorem upBurst_other {p : ChipParams} {a : RegAddr} (h : a ≠ p.idReg) (vs : List Byte) : ∀ (i : Nat) (x : Peer),
    (upBurst p a i vs x).idb = x.idb ∧ ((upBurst p a i vs x).reg.read a.toNat =
        (vs.getLast?).or (x.reg.read a.toNat)) ∧
     ∀ b, b ≠ a.toNat → (upBurst p a i vs x).reg.read b = x.reg.read b := by
  induction vs with
  | nil => intro i x; simp [upBurst]
  | cons v vs ih =>
    intro i x
    obtain ⟨h1, h2, h3⟩ := ih (i + 1) (upByte p a i v x)
    have e : upByte p a i v x = upWrite a v x := by simp [upByte, h]
    refine ⟨by rw [upBurst, h1, e]; rfl, ?_, fun b hb => ?_⟩
    · rw [upBurst, h2, e]
      cases vs with
      | nil => simp [upWrite]
      | cons w ws =>
        rw [List.getLast?_cons_cons]
        simp [List.getLast?_cons]
    · rw [upBurst, h3 b hb, e]; simp [upWrite, Memory.read_write_other _ _ hb]

/-- A burst write touches registers and identifier bytes alone. -/
theorem upBurst_rest {p : ChipParams} {a : RegAddr} (vs : List Byte) : ∀ (i : Nat) (x : Peer),
   upBurst p a i vs x = { x with reg := (upBurst p a i vs x).reg, idb := (upBurst p a i vs x).idb } := by
  induction vs with
  | nil => intro i x; rfl
  | cons v vs ih =>
    intro i x
    rw [upBurst, ih]
    unfold upByte upWrite
    split_ifs <;> rfl

theorem wburst_peer (a : RegAddr) (vs : List Byte) (s : State) : (wburstTx a vs id s).peer =
    upBurst s.params a 0 vs (drift (3 + vs.length) s).peer := by
  rw [wburstTx_passing]
  have : (wburstEvents s.params a vs).length = 3 + vs.length := by simp [wburstEvents]; omega
  show upBurst s.params a 0 vs (drift _ s).peer = _
  rw [this]

theorem rburst_peer {ans : Nat → State → Byte} (a : RegAddr) (n : Nat) (s : State) : (rburstTx ans a n s).2.peer =
    upRead s.params a n (drift (5 + n) s).peer := by
  rw [rburstTx_passing]
  have : (readEvents s.params a (rburstTx ans a n s).1).length = 5 + n := by simp [readEvents, rburstTx_length]; omega
  show upRead s.params a n (drift _ s).peer = _
  rw [this]

theorem rburst_faults {ans : Nat → State → Byte} (a : RegAddr) (n : Nat) (s : State) : (rburstTx ans a n s).2.faults = s.faults := by
  rw [rburstTx_passing]; rfl

/-- Byte `k` of a burst read, and the state in which it is answered. -/
theorem receiveBytes_val {ans : Nat → State → Byte} (a : RegAddr) (n : Nat) : ∀ (i : Nat) (s : State) (k : Nat), k < n →
   ∃ u : State, (receiveBytes ans a n i s).1[k]? = some (ans (i + k) u) ∧ u.params = s.params ∧
     u.peer = upRead s.params a k (drift (k + 1) s).peer ∧ u.io.tick = s.io.tick + k + 1 := by
  induction n with
  | zero => intro i s k hk; omega
  | succ n ih =>
    intro i s k hk
    simp only [receiveBytes]
    cases k with
    | zero =>
      refine ⟨peerTurn s, by simp [receive], rfl, ?_, rfl⟩
      show (peerTurn s).peer = upRead s.params a 0 (peerTurn s).peer
      simp only [upRead]; split_ifs <;> rfl
    | succ k =>
      rw [receive_passing, List.getElem?_cons_succ]
      simp only [afterRead_eq, passing_params]
      generalize he : [Event.xchg dummyByte (some (ans i (peerTurn s)))] = es
      have hlen : es.length = 1 := by rw [← he]; rfl
      obtain ⟨u, h1, h2, h3, h4⟩ := ih (i + 1) (onPeer (upRead s.params a 1) (passing es s)) k (by omega)
      refine ⟨u, by rw [h1, show i + 1 + k = i + (k + 1) by omega], h2, ?_, ?_⟩
      · rw [h3, drift_onPeer (upRead_free _ _ _), show (onPeer (upRead s.params a 1) (passing es s)).params =
          s.params from rfl, upRead_upRead,
          Nat.add_comm 1 k]
        congr 1
        rw [show k + 1 + 1 = 1 + (k + 1) by omega, drift_add 1 (k+1)]
        apply drift_congr <;> simp [hlen]
      · rw [h4]; simp [onPeer, hlen]; omega

/-- Byte `k` of a burst read, and the state in which it is answered, the opening of the transaction counted in. -/
theorem rburst_val {ans : Nat → State → Byte} (a : RegAddr) (n : Nat) (s : State) (k : Nat) (hk : k < n) :
   ∃ u : State, (rburstTx ans a n s).1[k]? = some (ans k u) ∧ u.params = s.params ∧
     u.peer = upRead s.params a k (drift (k + 4) s).peer ∧ u.io.tick = s.io.tick + k + 4 := by
  simp only [rburstTx, emit_passing, send_passing, passing_passing, id]
  generalize hes : [Event.csAssert] ++ [Event.xchg (s.params.rdByte a) none] ++ [Event.dirIn] = es
  have hlen : es.length = 3 := by rw [← hes]; rfl
  obtain ⟨u, h1, h2, h3, h4⟩ := receiveBytes_val a n 0 (passing es s) k hk
  refine ⟨u, by simpa using h1, h2, ?_, by rw [h4]; simp [hlen]; omega⟩
  rw [h3, passing_params]
  congr 1
  rw [show k + 4 = 3 + (k + 1) by omega, drift_add 3 (k+1)]
  apply drift_congr <;> simp [hlen]

/-- Where R86 fixes the FIFO byte, the read pointer `k` behind that of `x`. -/
theorem fifoByte_of {u : State} {x : Peer} {k : Nat} {b : Byte} (hu : u.peer = { x with rdptr := k })
    (hm : x.mode = .filled) (hc : x.crcf = false) (hk : k < x.filledLen) (hb : x.fifo[k]? = some b) :
    fifoByte u = some b := by
  simp [fifoByte, hu, hm, hc, hk, hb]

/-- A burst read of `FIFO_REG` hands out the FIFO's bytes (R86). -/
theorem rburst_handsOut (n : Nat) (s : State) (h : s.params.fifoReg ≠ s.params.idReg) :
    HandsOutFifo s (rburstTx (answerBurst s.params.fifoReg) s.params.fifoReg n s).1 := by
  intro i b hi hm hc hk hb
  rw [rburstTx_length] at hi
  obtain ⟨u, h1, h2, h3, -⟩ := rburst_val s.params.fifoReg n s i hi
  rw [Nat.add_comm i 4] at h3
  rw [h1, answerBurst, h2, if_neg h, if_pos rfl,
    fifoByte_of (by rw [h3]; simp [upRead]) hm hc hk hb]
  rfl

/-- Byte `k` of a burst read answered by draws is the draw of its own exchange (spec/60_exceptions.md R205). -/
theorem rburst_drawn (a : RegAddr) (n : Nat) (s : State) (k : Nat) (hk : k < n) :
    (rburstTx answerDrawn a n s).1[k]? = some (Config.freeByte (s.io.tick + 4 + k)) := by
  obtain ⟨u, h1, -, -, h4⟩ := rburst_val (ans := answerDrawn) a n s k hk
  rw [h1, answerDrawn, h4, Nat.add_right_comm]

/-- A single read of `FIFO_REG` hands out the FIFO's byte (R86), where that is no poll register. -/
theorem rreg_handsOut (s : State) (h : s.params.fifoReg ≠ s.params.statusReg)
    (h' : s.params.fifoReg ≠ s.params.calPollReg) : HandsOutFifo s [(rregTx s.params.fifoReg s).1] := by
  intro i b hi hm hc hk hb
  obtain rfl : i = 0 := by simpa using hi
  have hf : fifoByte (atByte s.params.fifoReg s) = some b :=
    fifoByte_of (x := (drift 4 s).peer) (k := s.peer.rdptr) (by rw [atByte_peer, ← drift_rdptr 4 s]) hm hc hk hb
  rw [rreg_val, answerSingle]
  simp [h, h', hf]

/-- The first four bytes read from `ID_REG` (R87). -/
theorem rburst_id (s : State) (n : Nat) (hn : 4 ≤ n) : (rburstTx (answerBurst s.params.idReg) s.params.idReg n s).1.take 4 =
    s.peer.idb.toList := by
  apply List.ext_getElem?
  intro k
  by_cases hk : k < 4
  · obtain ⟨u, h1, h2, h3, _⟩ := rburst_val s.params.idReg n s k (by omega)
    rw [List.getElem?_take_of_lt hk, h1]
    simp [answerBurst, h2, h3, upRead, hk]
  · rw [List.getElem?_eq_none (by simp; omega), List.getElem?_eq_none (by simp; omega)]

end Sys2Proof.Machine
end

