-- ==== Sys2Proof/Laws/PerInstr.lean ====
section
/-! SUPPORT. One statement for every constructor of `Instr`: the shape of its words (spec/30_encoding.md R101, R104). -/

namespace Sys2Proof

/-- A bit of a command word lies in `arg` below 32 and in `op` from there (R101). -/
theorem commandWord_bit (o : Byte) (x : BitVec 32) (i : Nat) :
    (o ++ x : CmdWord).getLsbD i = if i < 32 then x.getLsbD i else o.getLsbD (i - 32) := by
  rw [BitVec.getLsbD_append]

/-- The operation field of `op ++ arg`. -/
theorem opField_commandWord (o : Byte) (x : BitVec 32) : opField (o ++ x) = o := by
  apply BitVec.eq_of_getLsbD_eq
  intro i hi
  rw [opField, BitVec.getLsbD_extractLsb', commandWord_bit]
  simp [hi]

/-- The operand field of `op ++ arg`. -/
theorem argField_commandWord (o : Byte) (x : BitVec 32) : argField (o ++ x) = x := by
  apply BitVec.eq_of_getLsbD_eq
  intro i hi
  rw [argField, BitVec.getLsbD_extractLsb', commandWord_bit]
  simp [hi]

namespace Laws.WordShape

/-- An operation encodes to a command word with its code in `op` and its operand in `arg`; a transaction encodes to a frame
of at least one byte, and has no code. -/
def Statement (i : Instr) : Prop :=
  ∀ p : ChipParams,
    (i.isOperation = true → ∃ w, encode p i = .command w ∧ opField w = opCode i ∧ argField w = argOf i) ∧
    (i.isOperation = false → ∃ b bs, encode p i = .frame (b :: bs))

/-- Every operation has the shape. -/
theorem of_operation {i : Instr} (h : i.isOperation = true) : Statement i := fun p =>
  ⟨fun _ => ⟨encodeCommand i, by simp [encode, h], opField_commandWord _ _, argField_commandWord _ _⟩,
    fun h' => by simp [h] at h'⟩

/-- Every transaction has the shape. -/
theorem of_transaction {i : Instr} (h : i.isOperation = false) (hf : ∀ p, ∃ b bs, encodeFrame p i = b :: bs) :
    Statement i := fun p =>
  ⟨fun h' => by simp [h] at h', fun _ => (hf p).imp fun b => Exists.imp fun bs e => by simp [encode, h, e]⟩

theorem reset : Statement .reset := of_operation rfl

theorem configure : Statement .configure := of_operation rfl

theorem setIdentity (id : Ident) : Statement (.setIdentity id) := of_operation rfl

theorem getIdentity : Statement .getIdentity := of_operation rfl

theorem tune (channel : Byte) : Statement (.tune channel) := of_operation rfl

theorem rearm : Statement .rearm := of_operation rfl

theorem pollReady : Statement .pollReady := of_operation rfl

theorem crcFailed : Statement .crcFailed := of_operation rfl

theorem readFrame : Statement .readFrame := of_operation rfl

theorem seqLoad (id : Ident) : Statement (.seqLoad id) := of_operation rfl

theorem seqChannel : Statement .seqChannel := of_operation rfl

theorem advance : Statement .advance := of_operation rfl

theorem strobe (s : Byte) : Statement (.strobe s) := of_transaction rfl fun _ => ⟨_, _, rfl⟩

theorem wreg (a : RegAddr) (v : Byte) : Statement (.wreg a v) := of_transaction rfl fun _ => ⟨_, _, rfl⟩

theorem rreg (a : RegAddr) : Statement (.rreg a) := of_transaction rfl fun _ => ⟨_, _, rfl⟩

theorem wburst (a : RegAddr) (vs : List Byte) : Statement (.wburst a vs) := of_transaction rfl fun _ => ⟨_, _, rfl⟩

theorem rburst4 (a : RegAddr) : Statement (.rburst4 a) := of_transaction rfl fun _ => ⟨_, _, rfl⟩

theorem rburst21 (a : RegAddr) : Statement (.rburst21 a) := of_transaction rfl fun _ => ⟨_, _, rfl⟩

end Laws.WordShape

end Sys2Proof
end

