-- ==== Sys2Proof/Laws/Sequences.lean ====
section
/-! SUPPORT. The sequences of transactions (`RESET_SEQ`, `CAL_TRIGGER_SEQ`) and the parts of `configure`: faults, registers,
places and modes. -/

namespace Sys2Proof.Machine

open Sys2Proof.Safety

/-! ### Faults of a sequence -/

theorem tracks_faults : Tracks (fun s : State => s.faults) (fun x _ => x) := ⟨fun _ => rfl, fun _ _ => rfl,
    fun _ => rfl⟩

/-- Only a receive-arm strobe inside a sequence can record a fault. -/
theorem performTx_faults {t : WriteTx} {last : State → State} (hl : ∀ s, (last s).faults = s.faults) (s : State) :
    (performTx t last s).faults = s.faults ∨ (t = .strobe s.params.strobeRx ∧ ∃ m, (performTx t last s).faults =
        insertFault (.callOrder s.upos.op? m) s.faults) := by
  cases t with
  | strobe b =>
    simp only [performTx, strobeTx_passing, advanceUpos_faults, passing_faults, hl]
    by_cases h : b = s.params.strobeRx
    · subst h
      unfold applyStrobe
      split_ifs
      · exact .inl rfl
      · exact .inl rfl
      · rw [strobeRx_faults]
        split_ifs
        · exact .inr ⟨rfl, _, rfl⟩
        · exact .inl rfl
      · exact .inl rfl
    · exact .inl ((applyStrobe_other b (passing [.csAssert, .xchg b none] s) h).1)
  | wreg a v => exact .inl ((wregTx_tracks tracks_faults (fun _ => rfl) hl s).trans (foldl_const _ _))
  | wburst a vs => exact .inl ((wburstTx_tracks tracks_faults (fun i v s => by unfold writeBurstByte; split_ifs <;> rfl) hl s).trans (foldl_const _ _))

/-- A sequence without a receive-arm strobe records no fault. -/
theorem performAll_faults (ts : List WriteTx) {last : State → State} (hl : ∀ s, (last s).faults = s.faults)
    (_hp : ∀ s, (last s).params = s.params) : ∀ s : State,
    (∀ f ∈ s.faults, f ∈ (performAll ts last s).faults) ∧
    (WriteTx.strobe s.params.strobeRx ∉ ts → (performAll ts last s).faults = s.faults) := by
  have one : ∀ (t : WriteTx) (l : State → State) (s : State), (∀ s, (l s).faults = s.faults) → (∀ f ∈ s.faults,
      f ∈ (performTx t l s).faults) ∧
    (t ≠ WriteTx.strobe s.params.strobeRx → (performTx t l s).faults = s.faults) := by
    intro t l s hl
    rcases performTx_faults (t := t) hl s with h | ⟨h1, m, h2⟩
    · exact ⟨fun f hf => by rw [h]; exact hf, fun _ => h⟩
    · exact ⟨fun f hf => by rw [h2]; simp [hf], fun h => absurd h1 h⟩
  induction ts with
  | nil => intro s; exact ⟨fun f hf => hf, fun _ => rfl⟩
  | cons t ts ih =>
    intro s
    cases ts with
    | nil =>
      refine ⟨(one t last s hl).1, fun h => (one t last s hl).2 (fun e => h (by simp [e]))⟩
    | cons u us =>
      have h1 := one t id s (fun _ => rfl)
      have h2 := ih (performTx t id s)
      rw [(tx_moved t s).params] at h2
      rw [performAll]
      refine ⟨fun f hf => h2.1 f (h1.1 f hf), fun h => ?_⟩
      rw [h2.2 (fun e => h (List.mem_cons_of_mem _ e)), h1.2 (fun e => h (by simp [e]))]

/-! ### The last effect -/

/-- A sequence ends with its last effect and the peer's own step before the last event. -/
theorem performAll_last (ts : List WriteTx) (hne : ts ≠ []) (last : State → State) : ∀ s : State, ∃ u : State,
    u.params = s.params ∧
    (performAll ts last s) = advanceUpos (passing [.csDeassert] (last u)) := by
  have one : ∀ (t : WriteTx) (s : State), ∃ u : State, u.params = s.params ∧ performTx t last s =
      advanceUpos (passing [.csDeassert] (last u)) := by
    intro t s
    cases t with
    | strobe b => exact ⟨_, by simp, strobeTx_passing b last s⟩
    | wreg a v => refine ⟨_, ?_, by rw [performTx, wregTx, emit_passing (.csDeassert)]⟩; rfl
    | wburst a vs => refine ⟨_, ?_, by rw [performTx, wburstTx,
        emit_passing (.csDeassert)]⟩; rw [sendBytes_passing]; rfl
  induction ts with
  | nil => exact absurd rfl hne
  | cons t ts ih =>
    intro s
    cases ts with
    | nil => exact one t s
    | cons w us =>
      obtain ⟨u, h1, h2⟩ := ih (by simp) (performTx t id s)
      exact ⟨u, h1.trans (tx_moved t s).params, h2⟩

/-! ### Registers -/

theorem applyWrites_append (ws vs : List (RegAddr × Byte)) (m : Memory) : applyWrites (ws ++ vs) m =
    applyWrites vs (applyWrites ws m) := by
  simp [applyWrites]

@[simp] theorem emit_reg (e : Event) (s : State) : (emit e s).peer.reg = s.peer.reg := by simp [emit_passing]

theorem send_reg (o : Byte) (f : State → State) (s : State) : (send o f s).peer.reg = (f (passing [.xchg o none]
    s)).peer.reg := by rw [send_passing]

theorem sendBytes_reg (a : RegAddr) (vs : List Byte) : ∀ (i : Nat) (s : State), (sendBytes a i vs s).peer.reg =
    applyWrites (txWrites s.params (.wburst a vs)) s.peer.reg := by
  induction vs with
  | nil => intro i s; simp [sendBytes, txWrites, applyWrites]
  | cons v vs ih =>
    intro i s
    rw [sendBytes, ih, send_passing]
    simp only [txWrites, writeBurstByte_params, passing_params]
    split_ifs with h
    · simp [writeBurstByte, h, applyWrites]
    · simp [writeBurstByte, h, applyWrites]

/-- The register writes of a transaction. -/
theorem performTx_reg (t : WriteTx) {last : State → State} (hl : ∀ s, (last s).peer.reg = s.peer.reg) (s : State) :
    (performTx t last s).peer.reg = applyWrites (txWrites s.params t) s.peer.reg := by
  cases t with
  | strobe b => simp [performTx, strobeTx, hl, send_reg, applyStrobe_reg, txWrites, applyWrites]
  | wreg a v => simp [performTx, wregTx, hl, send_reg, txWrites, applyWrites]
  | wburst a vs =>
    simp only [performTx, wburstTx, advanceUpos_peer, emit_reg, hl, sendBytes_reg, send_reg]
    simp [send_passing]

/-- The register writes of a sequence. -/
theorem performAll_reg (ts : List WriteTx) {last : State → State} (hl : ∀ s, (last s).peer.reg = s.peer.reg) :
    ∀ s : State,
    (performAll ts last s).peer.reg = applyWrites (ts.flatMap (txWrites s.params)) s.peer.reg := by
  induction ts with
  | nil => intro s; rfl
  | cons t ts ih =>
    intro s
    cases ts with
    | nil => simpa [performAll] using performTx_reg t hl s
    | cons w us =>
      rw [performAll, ih, performTx_reg t (last := id) (fun _ => rfl), (tx_moved t s).params,
          List.flatMap_cons (x := t), applyWrites_append]

/-! ### Scripts and modes -/

/-- The places a transaction takes. -/
theorem performTx_script (t : WriteTx) {last : State → State} (hl : KeepsScript last) (s : State) :
    (performTx t last s).io.script = s.io.script.drop (writeTxEvents s.params t).length := by
  cases t with
  | strobe b => simp [performTx, strobeTx_passing, hl _, keepsScript_strobe b _, writeTxEvents, strobeEvents]
  | wreg a v => simp [performTx, wregTx, emit_passing, send_passing, hl _, writeTxEvents, wregEvents]
  | wburst a vs => simp [performTx, wburstTx, emit_passing, send_passing, hl _, sendBytes_passing, onPeer,
      writeTxEvents, wburstEvents, Nat.add_comm]; congr 1; omega

/-- From `Standby`, no strobe but receive-arm leaves it. -/
theorem applyStrobe_standby {b : Byte} {s : State} (hb : b ≠ s.params.strobeRx) (hm : s.peer.mode = .standby) :
    (applyStrobe b s).peer.mode = .standby := by
  unfold applyStrobe
  split_ifs
  · simp [hm]
  · simp [hm]
  · exact hm

/-- A transaction from `Standby`, up to its last effect. -/
theorem performTx_standby (t : WriteTx) {s : State} (ht : t ≠ .strobe s.params.strobeRx) (hm : s.peer.mode =
    .standby) (last : State → State)
    (_hl : KeepsScript last) :
    ∃ u : State, performTx t last s = advanceUpos (passing [.csDeassert] (last u)) ∧ u.peer.mode = .standby ∧
      u.io.script = s.io.script.drop ((writeTxEvents s.params t).length - 1) := by
  cases t with
  | strobe b =>
    refine ⟨_, strobeTx_passing b last s, ?_, ?_⟩
    · refine applyStrobe_standby (fun h => ht (by rw [h]; rfl)) ?_
      exact drift_standby _ hm
    · rw [keepsScript_strobe b _]; rfl
  | wreg a v =>
    refine ⟨_, by rw [performTx, wregTx, emit_passing (.csDeassert)], ?_, ?_⟩
    · simp only [emit_passing, send_passing, passing_passing, id, writeReg_mode]; exact drift_standby _ hm
    · simp [emit_passing, send_passing, passing_passing, writeTxEvents, wregEvents]
  | wburst a vs =>
    refine ⟨_, by rw [performTx, wburstTx, emit_passing (.csDeassert)], ?_, ?_⟩
    · simp only [emit_passing, send_passing, passing_passing, id, sendBytes_passing]
      show (upBurst _ _ _ _ _).mode = _
      rw [upBurst_rest]; exact drift_standby _ hm
    · simp [emit_passing, send_passing, passing_passing, sendBytes_passing, writeTxEvents, wburstEvents, onPeer,
        Nat.add_comm]

/-- A sequence from `Standby`, up to its last effect. -/
theorem performAll_standby (ts : List WriteTx) : ∀ (s : State) (last : State → State), KeepsScript last → ts ≠ [] →
    .strobe s.params.strobeRx ∉ ts → s.peer.mode = .standby →
    ∃ u : State, performAll ts last s = advanceUpos (passing [.csDeassert] (last u)) ∧ u.peer.mode = .standby ∧
      u.io.script = s.io.script.drop ((writeAllEvents s.params ts).length - 1) := by
  induction ts with
  | nil => intro s last _ h; exact absurd rfl h
  | cons t ts ih =>
    intro s last hl _ hnot hm
    have htne : t ≠ .strobe s.params.strobeRx := fun e => hnot (by simp [e])
    cases ts with
    | nil => simpa [performAll, writeAllEvents] using performTx_standby t htne hm last hl
    | cons w us =>
      obtain ⟨u1, h1, h2, h3⟩ := performTx_standby t htne hm id (fun _ => rfl)
      have hp := (tx_moved t s).params
      obtain ⟨u, g1, g2, g3⟩ := ih (performTx t id s) last hl (by simp)
          (by rw [hp]; exact fun e => hnot (List.mem_cons_of_mem _ e))
        (by rw [h1]; exact drift_standby 1 h2)
      refine ⟨u, by rw [performAll]; exact g1, g2, ?_⟩
      rw [g3, performTx_script t (last := id) (fun _ => rfl), hp, List.drop_drop]
      congr 1
      have hpos : ∀ t : WriteTx, 1 ≤ (writeTxEvents s.params t).length := by
        intro t; cases t <;> simp [writeTxEvents, strobeEvents, wregEvents, wburstEvents]
      have := hpos w
      simp only [writeAllEvents, List.flatMap_cons, List.length_append]
      omega

/-- The peer is in `Standby` once `CalDone` has had its place. -/
theorem drift_calDone {a : Nat} : ∀ {w : State}, List.replicate a PeerMove.stay ++ [.calDone] <+: w.io.script →
    (w.peer.mode = .calibrating ∨ w.peer.mode = .standby) → (drift (a + 1) w).peer.mode = .standby := by
  induction a with
  | zero =>
    intro w ⟨r, hr⟩ hm
    have : w.io.nextMove = .calDone := by simp [Io.nextMove, ← hr]
    rw [drift_succ, drift_zero, peerTurn_peer, this]
    rcases hm with h | h <;> simp [Peer.move, Peer.calDone, h]
  | succ a ih =>
    intro w ⟨r, hr⟩ hm
    have h1 : w.io.nextMove = .stay := by simp [Io.nextMove, ← hr, List.replicate_succ]
    rw [drift_succ]
    refine ih ⟨r, ?_⟩ ?_
    · simp [← hr, List.replicate_succ]
    · rw [peerTurn_peer, h1]; exact hm

theorem prefix_drop {a : Nat} {l : List PeerMove} {n : Nat} (h : List.replicate n PeerMove.stay ++ [.calDone]
    <+: l) (ha : a ≤ n) :
    List.replicate (n - a) PeerMove.stay ++ [.calDone] <+: l.drop a := by
  obtain ⟨r, hr⟩ := h
  refine ⟨r, ?_⟩
  rw [← hr, List.append_assoc, List.append_assoc, List.drop_append_of_le_length (by simpa using ha),
      List.drop_replicate]

/-! ### The parts of `configure` -/

/-- The table phase writes its entries, in order. -/
theorem table_reg (es : List (RegAddr × Option Byte)) : ∀ s : State, (configureTable es s).peer.reg =
    applyWrites (es.filterMap fun e => e.2.map fun v => (e.1, v)) s.peer.reg := by
  induction es with
  | nil => intro s; rfl
  | cons e es ih =>
    intro s
    rcases e with ⟨a, _ | v⟩
    · simp [configureTable, ih]
    · simp [configureTable, ih, wreg_reg, applyWrites]

theorem table_faults (es : List (RegAddr × Option Byte)) : ∀ s : State, (configureTable es s).faults = s.faults := by
  induction es with
  | nil => intro s; rfl
  | cons e es ih =>
    intro s
    rcases e with ⟨a, _ | v⟩
    · simp [configureTable, ih]
    · simp only [configureTable, ih]; exact (wregTx_tracks tracks_faults (fun _ => rfl)
        (fun _ => rfl) s).trans (foldl_const _ _)

theorem table_script (es : List (RegAddr × Option Byte)) : ∀ s : State, (configureTable es s).io.script =
    s.io.script.drop (es.flatMap (tableEntryEvents s.params)).length := by
  induction es with
  | nil => intro s; rfl
  | cons e es ih =>
    intro s
    rcases e with ⟨a, _ | v⟩
    · simp [configureTable, ih, tableEntryEvents]
    · have := performTx_script (.wreg a v) (last := id) (fun _ => rfl) s
      simp only [performTx] at this
      rw [configureTable, ih, this]
      simp [tableEntryEvents, writeTxEvents]

theorem table_notcal (es : List (RegAddr × Option Byte)) : ∀ s : State,
    s.peer.mode ≠ .calibrating → (configureTable es s).peer.mode ≠ .calibrating := by
  induction es with
  | nil => intro s h; exact h
  | cons e es ih =>
    intro s h
    rcases e with ⟨a, _ | v⟩
    · exact ih _ h
    · refine ih _ ?_
      rw [wreg_peer]; exact drift_not_calibrating 4 h

theorem status_reg (rs : List RegAddr) : ∀ s : State, (readStatus rs s).2.peer.reg = s.peer.reg ∧
    (readStatus rs s).2.faults = s.faults := by
  induction rs with
  | nil => intro s; exact ⟨rfl, rfl⟩
  | cons a rs ih => intro s; simp only [readStatus]; exact ⟨(ih _).1.trans (rreg_reg a s),
      (ih _).2.trans (rreg_faults a s)⟩

theorem status_notcal (rs : List RegAddr) : ∀ s : State,
    s.peer.mode ≠ .calibrating → (readStatus rs s).2.peer.mode ≠ .calibrating := by
  induction rs with
  | nil => intro s h; exact h
  | cons a rs ih =>
    intro s h
    refine ih _ ?_
    rw [rreg_peer]; exact drift_not_calibrating 6 h

/-- The registers at the first poll. -/
theorem atPoll_reg (s : State) : (atPoll s).peer.reg = applyWrites (headWrites s.params) s.peer.reg := by
  show (performAll _ startCalibration _).peer.reg = _
  rw [performAll_reg (last := startCalibration) _ (fun _ => rfl), strobe_reg, table_reg, (strobe_moved _ _).params]
  rw [(table_moved _ _).params, headWrites, applyWrites_append]; simp [begin]

/-- The faults at the first poll. -/
theorem atPoll_faults (s : State) (hw : s.params.wf = true) : (∀ f ∈ s.faults, f ∈ (atPoll s).faults) ∧
    (WriteTx.strobe s.params.strobeRx ∉ s.params.calTriggerSeq → (atPoll s).faults = s.faults) := by
  have h1 := performAll_faults s.params.calTriggerSeq (last := startCalibration) (fun _ => rfl) (fun _ => rfl)
    (strobeTx s.params.strobeStandby id (configureTable s.params.regTable (begin .configure s)))
  have hp : (configureTable s.params.regTable (begin .configure s)).params = s.params := (table_moved _ _).params
  have h2 := (strobe_other s.params.strobeStandby (configureTable s.params.regTable (begin .configure s))
      (by rw [hp]; exact (strobes_ne hw).2.1)).1
  rw [(strobe_moved _ _).params, hp, h2, table_faults] at h1
  have e : (atPoll s).faults = (performAll s.params.calTriggerSeq startCalibration
    (strobeTx s.params.strobeStandby id (configureTable s.params.regTable (begin .configure s)))).faults := by
    show (enterCalibration _).faults = _
    simp [enterCalibration]
  rw [e]; exact h1

theorem atPoll_cfgOk (s : State) : (atPoll s).peer.cfgOk = s.peer.cfgOk := by
  show (performAll _ startCalibration _).peer.cfgOk = _
  rw [performAll_deaf (last := startCalibration) deaf_cfgOk _ (fun _ => rfl), foldl_const, strobe_cfgOk,
      configureTable_deaf deaf_cfgOk, foldl_const]; rfl

/-- The end of `configure`: faults, registers, `cfg_ok`. -/
theorem tail_facts (s : State) (hw : s.params.wf = true) : (configureTail s).faults = s.faults ∧
    (configureTail s).peer.reg = applyWrites [s.params.trim1, s.params.trim2] s.peer.reg ∧
        (configureTail s).peer.cfgOk = true := by
  obtain ⟨h1, h2⟩ := status_reg s.params.calStatusRegs s
  refine ⟨?_, ?_, rfl⟩
  · simp only [configureTail, finish_faults]
    rw [(strobe_other _ _ ?_).1, wreg_faults, wreg_faults, h2]
    rw [(wreg_moved _ _ _).params, (wreg_moved _ _ _).params, (status_moved _ _).params]; exact (strobes_ne hw).2.1
  · simp only [configureTail, finish_peer]
    rw [strobe_reg, wreg_reg, wreg_reg, h1]; rfl

/-- The end of `configure`: the mode. -/
theorem tail_mode (s : State) (h : s.peer.mode ≠ .calibrating) : (configureTail s).peer.mode = .standby := by
  simp only [configureTail, finish_peer]
  have h1 := status_notcal s.params.calStatusRegs s h
  generalize hz : wregTx s.params.trim2.1 s.params.trim2.2 id (wregTx s.params.trim1.1 s.params.trim1.2 id (readStatus s.params.calStatusRegs s).2) = z
  have hzp : z.params = s.params := by rw [← hz]; simp
  have hzm : z.peer.mode ≠ .calibrating := by
    rw [← hz, wreg_peer]
    exact drift_not_calibrating 4 (s := wregTx s.params.trim1.1 s.params.trim1.2 id _)
        (by rw [wreg_peer]; exact drift_not_calibrating 4 h1)
  rw [← hzp]; exact standby_mode hzm

/-- How many events come before the first poll. -/
theorem headLen (s : State) : (configureHeadEvents s.params).length =
    (tableEvents s.params).length + 3 + (writeAllEvents s.params s.params.calTriggerSeq).length := by
  simp [configureHeadEvents, strobeEvents]; omega

/-- The limit test. -/
theorem below_iff (p : ChipParams) (n : Nat) : BelowLimit p n ↔ limitReached p n = false := by
  unfold BelowLimit limitReached
  cases p.pollLimit <;> simp

/-- The busy test. -/
theorem busy_iff (p : ChipParams) (v : Byte) : v &&& p.calBusyMask ≠ 0#8 ↔ pollBusy p v = true := by simp [pollBusy]

end Sys2Proof.Machine
end

