-- ==== Sys2Proof/Laws/Runs.lean ====
section
/-! SUPPORT. Runs of steps (`Reaches`) and operations that return (`Performed`). -/

namespace Sys2Proof.Machine

open Sys2Proof.Safety

/-! ### Steps in a row -/

@[simp] theorem reaches_zero {s t : State} : Reaches 0 s t ↔ s = t :=
  ⟨fun h => Host.Outcome.next.inj h, fun h => congrArg Host.Outcome.next h⟩

/-- The first step of a run, and the rest. -/
theorem reaches_succ {n : Nat} {s t : State} : Reaches (n + 1) s t ↔ ∃ u, step s = .next u ∧ Reaches n u t := by
  have hs : Sys2Proof.core.step s = step s := rfl
  constructor
  · intro h
    unfold Reaches at h
    simp only [Host.Core.run, hs] at h
    split at h
    · exact ⟨_, ‹_›, h⟩
    · cases h
    · cases h
  · rintro ⟨u, hu, h⟩
    unfold Reaches at h ⊢
    simp only [Host.Core.run, hs, hu]
    exact h

/-- A run of one step. -/
theorem reaches_one {s t : State} : Reaches 1 s t ↔ step s = .next t := by
  rw [reaches_succ]
  simp

/-- Runs follow one another. -/
theorem reaches_add {m n : Nat} {s t : State} : Reaches (m + n) s t ↔ ∃ u, Reaches m s u ∧ Reaches n u t := by
  induction m generalizing s with
  | zero => simp
  | succ m ih =>
    rw [Nat.succ_add, reaches_succ]
    simp only [reaches_succ, ih]
    constructor
    · rintro ⟨u, hu, v, hv, hn⟩
      exact ⟨v, ⟨u, hu, hv⟩, hn⟩
    · rintro ⟨v, ⟨u, hu, hv⟩, hn⟩
      exact ⟨u, hu, v, hv, hn⟩

/-- A run ends in one state. -/
theorem reaches_det {n : Nat} {s t u : State} (ht : Reaches n s t) (hu : Reaches n s u) : t = u := by
  unfold Reaches at ht hu
  rw [ht] at hu
  exact Host.Outcome.next.inj hu

/-- A property every step keeps, along a run. -/
theorem reaches_keeps {P : State → Prop} (h : ∀ s t, P s → step s = .next t → P t) {n : Nat} :
    ∀ {s t : State}, P s → Reaches n s t → P t := by
  induction n with
  | zero => intro s t hs h0; exact reaches_zero.1 h0 ▸ hs
  | succ n ih =>
    intro s t hs hn
    obtain ⟨u, hu, hn⟩ := reaches_succ.1 hn
    exact ih (h s u hs hu) hn

/-! ### Operations that return -/

/-- A step with an operation running is one of `configure`'s poll. -/
theorem step_running {s t : State} (hu : s.upos ≠ .idle) (h : step s = .next t) : Polling s ∧ t = configurePoll s := by
  obtain ⟨_, ⟨h', _⟩ | ⟨_, _, _, h', _⟩ | ⟨_, _, _, h', _⟩ | ⟨_, _, _, _, h', _⟩ | h'⟩ := step_cases h
  · exact absurd h' hu
  · exact absurd h' hu
  · exact absurd h' hu
  · exact absurd h' hu
  · exact h'

/-- An operation that returns in its first step. -/
theorem performed_one {i : Instr} {s t : State} (h : exec i s = .next t) (hu : t.upos = .idle) : Performed i s t :=
  ⟨0, t, h, reaches_zero.2 rfl, fun _ hm => absurd hm (Nat.not_lt_zero _), hu⟩

end Sys2Proof.Machine
end

