-- ==== Sys2Proof/Tests/Slice0.lean ====
section
/-! SUPPORT. The model's own tests: an ill-formed term for each check of WellFormed, words written out from the spec's
encodings, and single steps from the vectors of spec/95_test_vectors.md section 3 (V<n>). Every expected value is the
spec's. Then, for every statement of Certificates/Slice0/Obligations.lean that has hypotheses, states that meet them. -/

namespace Sys2Proof.Tests

open Sys2Proof.Machine Sys2Proof.Safety

/-! ### WellFormed (spec/00_scope.md R10) -/

theorem test_fx_wf : Config.fx.wf = true := by decide

theorem test_fx_noWrap : Config.fx.noWrap = true := by decide

theorem test_addrBits_refused : ({ Config.fx with addrBits := 0 } : ChipParams).typesOk = false := by decide

theorem test_role_outside_refused : ({ Config.fx with trim1 := (0x40#8, 0#8) } : ChipParams).typesOk = false := by decide

theorem test_no_status_refused : ({ Config.fx with calStatusRegs := [] } : ChipParams).typesOk = false := by decide

theorem test_empty_burst_refused :
    ({ Config.fx with resetSeq := [.wburst 0x00#8 []] } : ChipParams).typesOk = false := by decide

/-- R10 (a): two addresses with one command byte. -/
theorem test_injective_refused :
    ({ Config.fx with cmdWr := Config.fx.cmdWr.set 1 0x00#8 } : ChipParams).injectiveOk = false := by decide

/-- R10 (b): a read byte that is also a write byte. -/
theorem test_disjoint_refused : ({ Config.fx with cmdRd := Config.fx.cmdWr } : ChipParams).disjointOk = false := by decide

/-- R10 (c): two strobes with one byte; a strobe byte that opens a write. -/
theorem test_strobes_refused :
    ({ Config.fx with strobeRx := 0xA0#8 } : ChipParams).strobesOk = false ∧
      ({ Config.fx with strobeRx := 0x0F#8 } : ChipParams).strobesOk = false := by decide

/-- R10 (d): a table out of order. -/
theorem test_table_refused :
    ({ Config.fx with regTable := [(0x02#8, none), (0x01#8, none)] } : ChipParams).tableOk = false := by decide

/-- R10 (e): no busy bit. -/
theorem test_mask_refused : ({ Config.fx with calBusyMask := 0#8 } : ChipParams).maskOk = false := by decide

/-- R10 (g): two roles at one address. -/
theorem test_roles_refused : ({ Config.fx with fifoReg := 0x06#8 } : ChipParams).rolesOk = false := by decide

/-- R10 (i), recommended: FXW breaks it (95_test_vectors.md section 2.2). -/
theorem test_noWrap_refused :
    ({ Config.fx with hopTable := Config.fxt.set 0 ((Config.fxt.get 0).set 0 3#8) } : ChipParams).noWrap = false := by
  decide

theorem test_instr_wf_refused :
    (Instr.strobe 0x55#8).wf Config.fx = false ∧ (Instr.wreg 0x40#8 0#8).wf Config.fx = false ∧
      (Instr.rreg 0x40#8).wf Config.fx = false ∧ (Instr.wburst 0x06#8 []).wf Config.fx = false ∧
      (Instr.wburst 0x40#8 [0#8]).wf Config.fx = false ∧ (Instr.rburst4 0x40#8).wf Config.fx = false ∧
      (Instr.rburst21 0x40#8).wf Config.fx = false := by decide

/-! ### Decode: V42, V43, V44 and the frames of spec/30_encoding.md R104 under FX -/

theorem test_decode_reset : decodeTableWord 40 0x0100000000 = some .reset := by decide
theorem test_decode_configure : decodeTableWord 40 0x0200000000 = some .configure := by decide
theorem test_decode_setIdentity : decodeTableWord 40 0x0312345678 = some (.setIdentity 0x12345678#32) := by decide
theorem test_decode_getIdentity : decodeTableWord 40 0x0400000000 = some .getIdentity := by decide
theorem test_decode_tune : decodeTableWord 40 0x0500000014 = some (.tune 0x14#8) := by decide
theorem test_decode_tune_top : decodeTableWord 40 0x05000000FF = some (.tune 0xFF#8) := by decide
theorem test_decode_rearm : decodeTableWord 40 0x0600000000 = some .rearm := by decide
theorem test_decode_pollReady : decodeTableWord 40 0x0700000000 = some .pollReady := by decide
theorem test_decode_crcFailed : decodeTableWord 40 0x0800000000 = some .crcFailed := by decide
theorem test_decode_readFrame : decodeTableWord 40 0x0900000000 = some .readFrame := by decide
theorem test_decode_seqLoad : decodeTableWord 40 0x10123456F3 = some (.seqLoad 0x123456F3#32) := by decide
theorem test_decode_seqChannel : decodeTableWord 40 0x1100000000 = some .seqChannel := by decide
theorem test_decode_advance : decodeTableWord 40 0x1200000000 = some .advance := by decide
theorem test_decode_strobe : decodeTableWord 8 0xA0 = some (.strobe 0xA0#8) := by decide
theorem test_decode_wreg : decodeTableWord 16 0x0F4A = some (.wreg 0x0F#8 0x4A#8) := by decide
theorem test_decode_rreg : decodeTableWord 16 0x6200 = some (.rreg 0x22#8) := by decide
theorem test_decode_wburst :
    decodeTableWord 40 0x2112345678 = some (.wburst 0x21#8 [0x12#8, 0x34#8, 0x56#8, 0x78#8]) := by decide
theorem test_decode_rburst4 : decodeTableWord 40 0x4600000000 = some (.rburst4 0x06#8) := by decide
theorem test_decode_rburst21 : decodeTableWord 176 (0x45 * 2 ^ 168) = some (.rburst21 0x05#8) := by decide

/-- V44. -/
theorem test_decode_refused :
    [0x0000000000#40, 0x0A00000000#40, 0x0F00000000#40, 0x1300000000#40, 0xFF00000000#40, 0x0500000100#40,
      0x0100000001#40, 0x0900000001#40, 0x1200000001#40].all
      (fun w => match decodeCommand w with | .ok _ => false | .error _ => true) = true := by decide

/-- A lone byte that is no strobe, a read frame with a nonzero dummy, a read of three bytes. -/
theorem test_frame_refused :
    [[0x01#8], [0x45#8, 0x01#8], [0x46#8, 0#8, 0#8, 0#8], []].all
      (fun bs => match decodeFrame Config.fx bs with | .ok _ => false | .error _ => true) = true := by decide

/-! ### Single steps -/

/-- A configured chip under FX in a mode, the peer keeping still. -/
def chip (m : Mode) : Peer :=
  { mode := m, reg := [], idb := ⟨#[0xDE#8, 0xAD#8, 0xBE#8, 0xEF#8], rfl⟩, fifo := [], rdptr := 0, filledLen := 0,
    crcf := false, ready := pinLevel m false, rxChan := 0x00#8, cfgOk := true }

/-- A state of that chip with the block idle. -/
def idleState (x : Peer) : State :=
  { State.reset with peer := x, io := { State.reset.io with script := List.replicate 80 .stay } }

/-- What a test looks at in an outcome. -/
def look {β : Type} (f : State → β) : Host.Outcome State Fault Refusal → Option β
  | .next t => some (f t)
  | .fault _ => none
  | .refused _ => none

/-- V10: the trace and what is left of the peer. -/
theorem test_reset :
    look (fun t => (t.io.trace, t.io.responses, t.peer.mode, t.peer.filledLen, t.peer.cfgOk))
        (exec .reset (idleState (chip .filled))) =
      some ([.csAssert, .xchg 0x00#8 none, .xchg 0x00#8 none, .csDeassert], [⟨0x00#8, .empty⟩], .idle, 0, false) := by
  decide

/-- A state before a `configure` in which the peer ends the calibration before the first poll. -/
def beforeConfigure : State :=
  { idleState (chip .idle) with
    io := { State.reset.io with script := List.replicate 26 .stay ++ .calDone :: List.replicate 60 .stay } }

/-- That `configure` at its first poll. -/
def beforePoll : State :=
  enterCalibration (configureTable beforeConfigure.params.regTable (begin .configure beforeConfigure))

theorem beforePoll_idle : pollBusy beforePoll.params (rregTx beforePoll.params.calPollReg beforePoll).1 = false :=
  poll_idle_of_mode (by decide) (by decide) (by decide)

/-- V12: the registers, the mode and the number of events. -/
theorem test_configure :
    look (fun t => (t.io.trace.length, t.peer.reg, t.peer.mode, t.peer.cfgOk)) (exec .configure beforeConfigure) =
      some (50, [(0x01, 0x42#8), (0x02, 0x01#8), (0x03, 0x14#8), (0x04, 0x00#8), (0x07, 0x00#8), (0x24, 0x13#8),
        (0x26, 0x3B#8)], .standby, true) := by
  show look _ (.next (configurePoll beforePoll)) = _
  rw [configurePoll_done beforePoll_idle]
  decide

/-- V17 (d): the bytes of the identifier, most significant first. -/
theorem test_setIdentity :
    look (fun t => (t.peer.idb, t.io.trace)) (exec (.setIdentity 0x11223344#32) (idleState (chip .standby))) =
      some (⟨#[0x11#8, 0x22#8, 0x33#8, 0x44#8], rfl⟩, [.csAssert, .xchg 0x06#8 none, .xchg 0x11#8 none,
        .xchg 0x22#8 none, .xchg 0x33#8 none, .xchg 0x44#8 none, .csDeassert]) := by decide

/-- V18 (b), V7. -/
theorem test_getIdentity :
    look (fun t => (t.io.responses, t.io.trace)) (exec .getIdentity (idleState (chip .standby))) =
      some ([⟨0x00#8, .word 0xDEADBEEF#32⟩], [.csAssert, .xchg 0x46#8 none, .dirIn, .xchg 0x00#8 (some 0xDE#8),
        .xchg 0x00#8 (some 0xAD#8), .xchg 0x00#8 (some 0xBE#8), .xchg 0x00#8 (some 0xEF#8), .dirOut,
        .csDeassert]) := by decide

/-- V19. -/
theorem test_tune :
    look (fun t => (t.io.trace, t.peer.mode, t.peer.rdptr, t.peer.chan Config.fx, t.peer.filledLen))
        (exec (.tune 0x4A#8) (idleState { chip .standby with rdptr := 7, filledLen := 21 })) =
      some ([.csAssert, .xchg 0xA0#8 none, .csDeassert, .csAssert, .xchg 0xF0#8 none, .csDeassert, .csAssert,
        .xchg 0x0F#8 none, .xchg 0x4A#8 none, .csDeassert, .csAssert, .xchg 0xC0#8 none, .csDeassert],
        .receiving, 0, some 0x4A#8, 0) := by decide

/-- V21: a tune before any configure. -/
theorem test_tune_unconfigured :
    look (fun t => (t.io.trace.length, t.io.responses, t.faults))
        (exec (.tune 0x14#8) (idleState { chip .idle with cfgOk := false })) =
      some (13, [⟨0x00#8, .empty⟩], [.callOrder (some .tune) .standby]) := by decide

/-- V22. -/
theorem test_rearm :
    look (fun t => (t.io.trace, t.peer.mode, t.peer.chan Config.fx))
        (exec .rearm (idleState { chip .filled with reg := [(0x0F, 0x1E#8)] })) =
      some ([.csAssert, .xchg 0xF0#8 none, .csDeassert, .csAssert, .xchg 0xC0#8 none, .csDeassert], .receiving,
        some 0x1E#8) := by decide

/-- V23: `Receiving`, then `Filled`. -/
theorem test_pollReady :
    look (fun t => (t.io.trace, t.io.responses)) (exec .pollReady (idleState (chip .receiving))) =
        some ([.gpioRead false], [⟨0x00#8, .bit false⟩]) ∧
      look (fun t => (t.io.trace, t.io.responses)) (exec .pollReady (idleState (chip .filled))) =
        some ([.gpioRead true], [⟨0x00#8, .bit true⟩]) := by decide

/-- V24 in `Filled`: the bit is the flag, whatever the other bits. -/
theorem test_crcFailed :
    look (fun t => t.io.responses) (exec .crcFailed (idleState { chip .filled with crcf := true })) =
      some [⟨0x00#8, .bit true⟩] := by
  show some [success (.bit (crcTest Config.fx (statusAnswer Config.fx true _)))] = _
  rw [crcTest_statusAnswer]
  rfl

/-- V24's table of status bytes. -/
theorem test_crcTest :
    [0x20#8, 0xDF#8, 0xFF#8, 0x00#8, 0x3A#8, 0x1A#8].map (crcTest Config.fx) =
      [true, false, true, false, true, false] := by decide

/-- V13: only the masked bit counts. -/
theorem test_pollBusy : pollBusy Config.fx 0xFE#8 = false ∧ pollBusy Config.fx 0x03#8 = true := by decide

/-- The frame F1 of program P1. -/
def f1 : List Byte :=
  [0xAA#8, 0x12#8, 0x34#8, 0x56#8, 0x78#8, 0xDC#8, 0x05#8, 0xE0#8, 0x05#8, 0xE4#8, 0x05#8, 0xE8#8, 0x05#8, 0xEC#8,
    0x05#8, 0xF0#8, 0x05#8, 0xF4#8, 0x05#8, 0xF8#8, 0x05#8]

/-- V25. -/
theorem test_readFrame :
    look (fun t => (t.io.responses, t.peer.rdptr, t.peer.mode, t.faults, t.io.trace.length))
        (exec .readFrame (idleState { chip .filled with fifo := f1, filledLen := 21 })) =
      some ([⟨0x00#8, .bytes f1⟩], 21, .filled, [], 26) := by decide

/-- V27: nothing has arrived. -/
theorem test_readFrame_early :
    look (fun t => (t.peer.rdptr, t.faults, t.io.trace.length))
        (exec .readFrame (idleState { chip .receiving with rdptr := 5 })) =
      some (26, [.precondReadFrame .receiving false 5], 26) := by decide

/-- V28: the CRC has failed. -/
theorem test_readFrame_crc :
    look (fun t => (t.peer.rdptr, t.faults, t.io.trace.length))
        (exec .readFrame (idleState { chip .filled with fifo := f1, filledLen := 21, crcf := true })) =
      some (21, [.precondReadFrame .filled true 0], 26) := by decide

/-- V32. -/
theorem test_seqLoad :
    look (fun t => (t.seq, t.io.trace, t.io.responses))
        (exec (.seqLoad 0x123456F3#32) (idleState (chip .standby))) =
      some (⟨0x123456F3#32, 0, true⟩, [], [⟨0x00#8, .empty⟩]) := by decide

/-- V33; V41. -/
theorem test_seqChannel :
    look (fun t => (t.seq.cursor, t.io.responses))
        (exec .seqChannel { idleState (chip .standby) with seq := ⟨0x123456F3#32, 0, true⟩ }) =
        some (0, [⟨0x00#8, .byte 0x0D#8⟩]) ∧
      look (fun t => (t.seq.cursor, t.faults, t.io.responses)) (exec .seqChannel (idleState (chip .standby))) =
        some (0, [.seqUnloaded .seqChannel], [⟨0x02#8, .empty⟩]) := by decide

/-- V34; V35. -/
theorem test_advance :
    look (fun t => (t.seq.cursor, t.io.responses))
        (exec .advance { idleState (chip .standby) with seq := ⟨0x123456F3#32, 0, true⟩ }) =
        some (1, [⟨0x00#8, .byte 0x17#8⟩]) ∧
      look (fun t => (t.seq.cursor, t.io.responses))
        (exec .advance { idleState (chip .standby) with seq := ⟨0x123456F3#32, 15, true⟩ }) =
        some (0, [⟨0x00#8, .byte 0x0D#8⟩]) := by decide

/-- V31, one column: the channels at cursor 15. -/
theorem test_channel :
    [0x00000000#32, 0x0000000F#32, 0x80000010#32, 0x12345678#32, 0x00000090#32, 0xABCDEFA0#32, 0xFFFFFF9A#32,
      0x123456F3#32, 0x000000FF#32].map (fun id => (channel Config.fx id 15).toNat) =
      [169, 184, 168, 170, 160, 160, 170, 163, 175] := by decide

/-- V40: the wrap below zero under FXW. -/
theorem test_channel_wrap :
    channel { Config.fx with hopTable := Config.fxt.set 0 ((Config.fxt.get 0).set 0 3#8) } 0x00000090#32 0 = 249#8 := by
  decide

/-- V1; a byte that is no strobe. -/
theorem test_strobe :
    look (fun t => t.io.trace) (exec (.strobe 0xA0#8) (idleState (chip .filled))) =
        some [.csAssert, .xchg 0xA0#8 none, .csDeassert] ∧
      look (fun t => t.io.trace) (exec (.strobe 0x55#8) (idleState (chip .filled))) = none := by decide

/-- V2. -/
theorem test_wreg :
    look (fun t => (t.io.trace, t.peer.reg, t.line)) (exec (.wreg 0x0F#8 0x4A#8) (idleState (chip .standby))) =
      some ([.csAssert, .xchg 0x0F#8 none, .xchg 0x4A#8 none, .csDeassert], [(0x0F, 0x4A#8)], Line.quiet) := by decide

/-- A register of PLAIN_REGS reads as written (spec/20_memory.md R83). -/
theorem test_rreg :
    look (fun t => (t.io.trace, t.line)) (exec (.rreg 0x01#8) (idleState { chip .standby with reg := [(0x01, 0x42#8)] })) =
      some ([.csAssert, .xchg 0x41#8 none, .dirIn, .xchg 0x00#8 (some 0x42#8), .dirOut, .csDeassert], Line.quiet) := by
  decide

/-- V6. -/
theorem test_wburst :
    look (fun t => (t.peer.idb, t.peer.reg, t.io.trace.length))
        (exec (.wburst 0x06#8 [0x12#8, 0x34#8, 0x56#8, 0x78#8]) (idleState (chip .standby))) =
      some (⟨#[0x12#8, 0x34#8, 0x56#8, 0x78#8], rfl⟩, [], 7) := by decide

/-- V7. -/
theorem test_rburst4 :
    look (fun t => (t.io.trace.length, t.io.trace.drop 3)) (exec (.rburst4 0x06#8) (idleState (chip .standby))) =
      some (9, [.xchg 0x00#8 (some 0xDE#8), .xchg 0x00#8 (some 0xAD#8), .xchg 0x00#8 (some 0xBE#8),
        .xchg 0x00#8 (some 0xEF#8), .dirOut, .csDeassert]) := by decide

/-- V8: 26 events; the read pointer moves by 21. -/
theorem test_rburst21 :
    look (fun t => (t.io.trace.length, t.peer.rdptr))
        (exec (.rburst21 0x05#8) (idleState { chip .filled with fifo := f1, filledLen := 21 })) = some (26, 21) := by
  decide

/-- V44 through a step: the undefined word 0x0A00000000. -/
theorem test_bad_command :
    look (fun t => (t.faults, t.io.responses, t.io.trace))
        (step (placeRequest (.command 0x0A00000000#40) (idleState (chip .standby)))) =
      some ([.badCommand 0x0A00000000#40], [⟨0x01#8, .empty⟩], []) := by decide

/-- A placed table word is what the next step runs. -/
theorem test_step_placed :
    look (fun t => t.seq) (step ((idleState (chip .standby)).withFetchWord 40 0x10123456F3)) =
      some ⟨0x123456F3#32, 0, true⟩ := by decide

/-- A burst read of three bytes, a length no row has, runs (spec/40_transport_primitives.md R134). -/
theorem test_other_burst :
    look (fun t => (t.io.trace.length, t.io.trace.drop 3))
        (step (placeRequest (.frame [0x46#8, 0#8, 0#8, 0#8]) (idleState (chip .standby)))) =
      some (8, [.xchg 0x00#8 (some 0xDE#8), .xchg 0x00#8 (some 0xAD#8), .xchg 0x00#8 (some 0xBE#8), .dirOut,
        .csDeassert]) := by decide

/-- The trigger takes the peer from `Standby` to `Calibrating` (spec/20_memory.md R82). -/
theorem test_trigger :
    (enterCalibration (configureTable Config.fx.regTable (begin .configure (idleState (chip .filled))))).peer.mode =
      .calibrating := by decide

/-- V30: a frame arriving between the command byte and the data byte of a read decides the byte. -/
theorem test_arrival_inside_read :
    look (fun t => t.peer.mode)
        (exec .crcFailed
          { idleState (chip .receiving) with
            io := { State.reset.io with
              script := [.stay, .stay, .frameArrive (Vector.replicate 21 0#8) true, .stay, .stay, .stay] } }) =
      some .filled := by decide

/-! ### The syntax -/

/-- R109's examples, and a comment. -/
theorem test_lines :
    Text.parseLine "tune 0x4A".toList = .ok (some (.tune 0x4A#8)) ∧
      Text.parseLine "set_identity 0x12345678".toList = .ok (some (.setIdentity 0x12345678#32)) ∧
      Text.parseLine "tune 20 ; the first channel".toList = .ok (some (.tune 0x14#8)) ∧
      Text.parseLine "; nothing".toList = .ok none := by decide

theorem test_lines_refused :
    Text.parseLine "tune".toList = .error .operandMissing ∧
      Text.parseLine "tune 256".toList = .error .operandOutOfRange ∧
      Text.parseLine "hop".toList = .error .unknownMnemonic := by decide

/-! ### What the statements' hypotheses ask for: one state for each (and for each clause), at the ends of a range -/

/-- The block idle with one request. -/
def asking (r : Request) : State := placeRequest r (idleState (chip .standby))

theorem witness_UnmatchedWordRefused :
    (asking (.command 0x0500000100#40)).params.wf = true ∧ (asking (.command 0x0500000100#40)).upos = .idle ∧
      (asking (.command 0x0500000100#40)).io.requests = .command 0x0500000100#40 :: [] ∧
      ∀ r ∈ printedRows, 0x0500000100#40 &&& r.2.1 ≠ r.1 := by decide

theorem witness_DecodeOfEncodeIsInstruction :
    (Instr.tune 0xFF#8).wf Config.fx = true ∧ (∀ a v, Instr.tune 0xFF#8 ≠ .wburst a [v]) ∧
      (Instr.wburst 0x3F#8 [0x00#8]).wf Config.fx = true := by
  refine ⟨by decide, fun a v h => ?_, by decide⟩
  cases h

theorem witness_EncodeOfDecodeIsWord :
    decodeRequest Config.fx (.command 0x05000000FF#40) = .ok (.tune 0xFF#8) ∧
      decodeRequest Config.fx (.frame [0x3F#8, 0xFF#8]) = .ok (.wreg 0x3F#8 0xFF#8) := by decide

theorem witness_PlacedWordRuns :
    (idleState (chip .standby)).params.wf = true ∧
      decodeRequest (idleState (chip .standby)).params
        (requestOfWord (idleState (chip .standby)).params 40 0x10123456F3) = .ok (.seqLoad 0x123456F3#32) := by decide

theorem witness_StepRunsDecodedInstruction :
    (asking (.command 0x1200000000#40)).params.wf = true ∧ (asking (.command 0x1200000000#40)).upos = .idle ∧
      (asking (.command 0x1200000000#40)).io.requests = .command 0x1200000000#40 :: [] ∧
      decodeRequest (asking (.command 0x1200000000#40)).params (.command 0x1200000000#40) = .ok .advance := by decide

/-- A peer in a mode whose next step is `m`. -/
def about (m : PeerMove) (mode : Mode) : State :=
  { idleState (chip mode) with io := { State.reset.io with script := [m] } }

/-- A wait; each step of the peer in the mode it needs and in another. -/
theorem witness_WaitingStepMovesOnlyPeer :
    (idleState (chip .receiving)).params.wf = true ∧ (idleState (chip .receiving)).upos = .idle ∧
      (idleState (chip .receiving)).io.requests = [] ∧
      (∀ m ∈ [PeerMove.stay, .calDone, .frameArrive (Vector.replicate 21 0xAA#8) true],
        ∀ mode ∈ [Mode.standby, .calibrating, .receiving],
          (about m mode).io.nextMove = m ∧ (about m mode).peer.mode = mode) := by decide

/-- R82: `CalDone` ends in `Standby`. -/
theorem test_calDone : (drift 1 (about .calDone .calibrating)).peer.mode = .standby := by decide

/-- R84, R85: the frame replaces the first 21 bytes of the FIFO, and the read pointer stays. -/
theorem test_frameArrive :
    let s := about (.frameArrive (Vector.replicate 21 0xAA#8) false) .receiving
    let x := (drift 1 { s with peer := { s.peer with fifo := List.replicate 22 0x55#8, rdptr := 5 } }).peer
    x.mode = .filled ∧ x.fifo = List.replicate 21 0xAA#8 ++ [0x55#8] ∧ x.rdptr = 5 ∧ x.filledLen = 21 ∧
      x.ready = true := by decide

theorem witness_IllFormedParamsStop :
    ({ idleState (chip .standby) with params := { Config.fx with addrBits := 9 } } : State).params.wf = false := by
  decide

/-- A run with a good end, and one with a fault. -/
theorem witness_ResetStateMeetsInvariant :
    (∃ t, RunEnds Config.fx [0x0312345678#40, 0x1000000042#40, 0x1200000000#40] t ∧ t.faults = []) ∧
      ∃ t, RunEnds Config.fx [0x1200000000#40] t ∧ t.faults = [.seqUnloaded .advance] :=
  ⟨⟨_, ⟨[], 3, rfl, rfl, rfl⟩, rfl⟩, ⟨_, ⟨[], 1, rfl, rfl, rfl⟩, by decide⟩⟩

/-- A step to a next state. -/
theorem witness_ParametersNeverWritten : ∃ s t : State, step s = .next t :=
  ⟨idleState (chip .standby), _, rfl⟩

theorem witness_StepKeepsInvariant : ∃ s t : State, Inv s ∧ step s = .next t :=
  ⟨idleState (chip .receiving), _,
    ⟨by decide, rfl, .inl rfl, ⟨rfl, fun c hc => by cases hc⟩, by simp [PinAgrees, idleState, chip, pinLevel],
      ⟨Nat.zero_le _, .inl rfl⟩, List.nodup_nil⟩, rfl⟩

theorem witness_RowAndOffset :
    10 ≤ ((0x000000A0#32).extractLsb' 4 4).toNat ∧ 10 ≤ ((0x000000F0#32).extractLsb' 4 4).toNat ∧
      ((0x00000090#32).extractLsb' 4 4).toNat < 10 ∧ ((0x00000000#32).extractLsb' 4 4).toNat < 10 ∧
      (0x123456F3#32).extractLsb' 0 8 = (0x000000F3#32).extractLsb' 0 8 := by decide

/-- The fixture with a small table byte (spec/95_test_vectors.md section 2.2). -/
def fxWith (b : Byte) : ChipParams := { Config.fx with hopTable := Config.fxt.set 0 ((Config.fxt.get 0).set 0 b) }

/-- A table byte equal to `offset + 1`, and one that wraps. -/
theorem witness_ChannelFormula :
    offset 0x00000090#32 + 1 ≤ ((fxWith 10#8).hopTable[row 0x00000090#32][(0 : Fin 16)]).toNat ∧
      ((fxWith 3#8).hopTable[row 0x000000F0#32][(0 : Fin 16)]) = 3#8 ∧ offset 0x000000F0#32 = 9 := by decide

theorem witness_LowByteDecidesSchedule : (0x123456F3#32).extractLsb' 0 8 = (0xFFFFFFF3#32).extractLsb' 0 8 := by decide

/-- A loaded sequencer at the last column. -/
def loadedState : State := { idleState (chip .standby) with seq := ⟨0x123456F3#32, 15, true⟩ }

theorem witness_SeqChannelResult : loadedState.seq.loaded = true ∧ State.reset.seq.loaded = false := by decide

theorem witness_AdvanceResult : loadedState.seq.loaded = true ∧ State.reset.seq.loaded = false := by decide

theorem witness_SixteenAdvancesReturn : loadedState.seq.loaded = true ∧ ∃ u, exec .seqChannel loadedState = .next u :=
  ⟨rfl, _, rfl⟩

theorem witness_SequencerWrittenOnlyByItsOps :
    ∃ t, step (asking (.command 0x10123456F3#40)) = .next t ∧ t.seq ≠ (asking (.command 0x10123456F3#40)).seq :=
  ⟨_, rfl, by decide⟩

/-- The strobes of the block, one that only `RESET_SEQ` names among them. -/
theorem witness_StrobeTransaction :
    Config.fx.isStrobe Config.fx.strobeRx = true ∧ Config.fx.isStrobe Config.fx.strobeStandby = true ∧
      Config.fx.strobeStandby ≠ Config.fx.strobeRx ∧ (idleState (chip .filled)).line = Line.quiet ∧
      ({ Config.fx with resetSeq := [.strobe 0x55#8] } : ChipParams).isStrobe 0x55#8 = true ∧
      0x55#8 ∉ [Config.fx.strobeStandby, Config.fx.strobeRstRdptr, Config.fx.strobeRx] := by decide

/-- Every mode, configured and not. -/
theorem witness_StrobeReactions :
    (∀ m, (idleState (chip m)).params.wf = true) ∧ (∀ m, Quiet 3 (idleState (chip m))) ∧
      (∀ m, Quiet 3 (idleState { chip m with cfgOk := false })) ∧ (chip .calibrating).mode = .calibrating ∧
      (∀ m ∈ [Mode.standby, .filled, .receiving], (chip m).mode = m ∧ (chip m).cfgOk = true ∧ m ≠ .calibrating) ∧
      ({ chip .standby with reg := [(0x0F, 0x4A#8)] } : Peer).chan Config.fx = some 0x4A#8 :=
  ⟨fun _ => test_fx_wf, fun _ => by unfold Quiet; exact ⟨List.replicate 77 .stay, rfl⟩,
    fun _ => by unfold Quiet; exact ⟨List.replicate 77 .stay, rfl⟩, rfl, by decide, by decide⟩

theorem witness_WregTransaction :
    Config.fx.isReg 0x00#8 = true ∧ Config.fx.isReg 0x3F#8 = true ∧ Config.fx.isReg Config.fx.channelReg = true ∧
      (idleState (chip .receiving)).line = Line.quiet := by decide

/-- The peer with the frame F1. -/
def withFrame (rdptr : Nat) : State := idleState { chip .filled with fifo := f1, filledLen := 21, rdptr := rdptr }

/-- The read pointer at the last position of the frame, at each of the 21 exchanges of a read. -/
theorem withFrame_handsOut :
    (∀ i < 21, (drift (4 + i) (withFrame 20)).peer.mode = .filled ∧ (drift (4 + i) (withFrame 20)).peer.crcf = false) ∧
      (withFrame 20).peer.rdptr + 0 < (drift 4 (withFrame 20)).peer.filledLen ∧
      (drift 4 (withFrame 20)).peer.fifo[20]? = some 0x05#8 := by decide

/-- A plain register with a value; the poll register in and out of `Calibrating`, and where it is the status register too;
the status register in `Filled`; the FIFO register at the last position of the frame. -/
theorem witness_RregTransaction :
    (0x01#8 ∈ Config.fx.plainRegs ∧
      0x01#8 ∉ [Config.fx.statusReg, Config.fx.calPollReg, Config.fx.idReg, Config.fx.fifoReg] ∧
      Config.fx.isReg 0x01#8 = true ∧ Memory.read [(0x01, 0x42#8)] 0x01 = some 0x42#8) ∧
    (Config.fx.calPollReg ≠ Config.fx.statusReg ∧ Config.fx.isReg Config.fx.calPollReg = true ∧
      (drift 4 (idleState (chip .calibrating))).peer.mode = .calibrating ∧
      (drift 4 (idleState (chip .standby))).peer.mode = .standby) ∧
    ({ Config.fx with calPollReg := Config.fx.statusReg } : ChipParams).wf = true ∧
    Config.fx.isReg Config.fx.statusReg = true ∧ (drift 4 (idleState (chip .filled))).peer.mode = .filled ∧
    Config.fx.isReg Config.fx.fifoReg = true ∧ Config.fx.fifoReg ≠ Config.fx.calPollReg ∧
    (drift 4 (withFrame 20)).peer.fifo[(withFrame 20).peer.rdptr + 0]? = some 0x05#8 := by decide

theorem witness_WburstTransaction :
    Config.fx.isReg Config.fx.idReg = true ∧ Config.fx.isReg 0x3F#8 = true ∧ 0x3F#8 ≠ Config.fx.idReg ∧
      ([0x12#8] : List Byte) ≠ [] ∧ (idleState (chip .standby)).line = Line.quiet := by decide

/-- `ID_REG`; `FIFO_REG` with `withFrame_handsOut`; another register. -/
theorem witness_RburstTransaction :
    Config.fx.isReg Config.fx.idReg = true ∧ Config.fx.isReg Config.fx.fifoReg = true ∧
      Config.fx.fifoReg ≠ Config.fx.idReg ∧ (withFrame 20).line = Line.quiet ∧
      Config.fx.isReg 0x3F#8 = true ∧ (idleState (chip .filled)).line = Line.quiet := by decide

theorem witness_TransactionStops :
    Config.fx.isReg 0x40#8 = false ∧ Config.fx.isReg 0xFF#8 = false ∧ Config.fx.isStrobe 0x55#8 = false := by decide

theorem witness_ResetOperationResult :
    (idleState (chip .filled)).line = Line.quiet ∧
      WriteTx.strobe Config.fx.strobeRx ∉ (idleState (chip .filled)).params.resetSeq := by decide

/-- Any start; and one from which a peer that keeps still is taken into `Calibrating`. -/
theorem witness_ConfigureFirstPoll :
    beforeConfigure.params.wf = true ∧ beforeConfigure.line = Line.quiet ∧
      WriteTx.strobe Config.fx.strobeRx ∉ Config.fx.calTriggerSeq ∧ Config.fx.calTriggerSeq ≠ [] ∧
      (idleState (chip .filled)).line = Line.quiet ∧ (idleState (chip .filled)).peer.mode ≠ .calibrating ∧
      Quiet ((configureHeadEvents Config.fx).length + 6) (idleState (chip .filled)) :=
  ⟨by decide, rfl, by decide, by decide, rfl, by decide, ⟨List.replicate 47 .stay, rfl⟩⟩

/-- `configure` polling, in a mode, with a limit or none. -/
def pollingState (m : Mode) (limit : Option Nat) : State :=
  { idleState (chip m) with params := { Config.fx with pollLimit := limit }, upos := .running .configure 10 }

/-- The same, no `configure` having succeeded. -/
def unconfiguredPolling (m : Mode) (limit : Option Nat) : State :=
  { pollingState m limit with peer := { chip m with cfgOk := false } }

/-- V15: the limit met at its first busy answer, `cfg_ok` having been false or true (spec/41_radio_driver.md R154). -/
theorem test_stuck :
    ∀ s ∈ [unconfiguredPolling .calibrating (some 1), pollingState .calibrating (some 1)],
      look (fun t => (t.io.responses, t.peer.mode, t.peer.cfgOk, t.upos, t.io.trace.length))
          (.next (configurePoll s)) =
        some ([⟨0x03#8, .empty⟩], .calibrating, false, .idle, 6) := by
  intro s hs
  simp only [List.mem_cons, List.not_mem_nil, or_false] at hs
  rcases hs with rfl | rfl <;>
    rw [configurePoll_stuck (poll_busy_of_mode (by decide) (by decide)) (by decide)] <;> decide

/-- The three ends of a turn: a limit of one met by a busy answer, a limit of two not met, and no busy answer. -/
theorem witness_ConfigurePollTurn :
    (pollingState .calibrating (some 1)).params.wf = true ∧ (pollingState .calibrating (some 1)).line = Line.quiet ∧
      Polling (pollingState .calibrating (some 1)) ∧ ¬BelowLimit (pollingState .calibrating (some 1)).params 1 ∧
      BelowLimit (pollingState .calibrating (some 2)).params 1 ∧ Polling (pollingState .standby none) ∧
      Polling (unconfiguredPolling .calibrating (some 1)) ∧
      (unconfiguredPolling .calibrating (some 1)).peer.cfgOk = false ∧
      Config.fx.fifoReg ≠ Config.fx.calPollReg ∧ Config.fx.fifoReg ∉ Config.fx.calStatusRegs := by
  refine ⟨by decide, rfl, rfl, fun h => absurd (h 1 rfl) (by decide), fun l h => ?_, rfl, rfl, rfl, by decide, by decide⟩
  cases h
  decide

/-- `CalDone` at the first place and at the last place it may have. -/
theorem witness_ConfigureCompletes :
    beforeConfigure.params.wf = true ∧ beforeConfigure.line = Line.quiet ∧ beforeConfigure.peer.mode ≠ .calibrating ∧
      WriteTx.strobe Config.fx.strobeRx ∉ Config.fx.calTriggerSeq ∧ CompletesBeforeFirstPoll beforeConfigure ∧
      CompletesBeforeFirstPoll
        { beforeConfigure with io := { State.reset.io with script := List.replicate 30 .stay ++ [.calDone] } } :=
  ⟨by decide, rfl, by decide, by decide,
    ⟨26, ⟨List.replicate 60 .stay, rfl⟩, by decide, by decide⟩, ⟨30, ⟨[], rfl⟩, by decide, by decide⟩⟩

theorem witness_CalibrationHangs :
    (pollingState .calibrating none).params.wf = true ∧ (pollingState .calibrating none).line = Line.quiet ∧
      Polling (pollingState .calibrating none) ∧ (pollingState .calibrating none).params.pollLimit = none ∧
      (pollingState .calibrating none).peer.mode = .calibrating ∧
      Quiet (6 * 13) (pollingState .calibrating none) :=
  ⟨by decide, rfl, rfl, rfl, rfl, ⟨List.replicate 2 .stay, rfl⟩⟩

theorem witness_StuckCalibrationReported :
    (pollingState .calibrating (some 3)).params.wf = true ∧ (pollingState .calibrating (some 3)).line = Line.quiet ∧
      Polling (pollingState .calibrating (some 3)) ∧ (pollingState .calibrating (some 3)).params.pollLimit = some 3 ∧
      (pollingState .calibrating (some 3)).polls < 3 ∧
      (pollingState .calibrating (some 3)).peer.mode = .calibrating ∧
      Quiet (6 * 3) (pollingState .calibrating (some 3)) ∧
      Quiet (6 * 3) (unconfiguredPolling .calibrating (some 3)) ∧
      (unconfiguredPolling .calibrating (some 3)).peer.cfgOk = false :=
  ⟨by decide, rfl, rfl, rfl, by decide, rfl, ⟨List.replicate 62 .stay, rfl⟩, ⟨List.replicate 62 .stay, rfl⟩, rfl⟩

/-- `configure` polling while the peer calibrates, to be done behind that poll's data byte. -/
def lateDone : State :=
  { pollingState .calibrating none with
    io := { State.reset.io with script := List.replicate 5 .stay ++ .calDone :: List.replicate 60 .stay } }

/-- The peer is out of `Calibrating` at once, and after one busy poll. -/
theorem witness_ConfigureReturnsIfCalibrationCompletes :
    (pollingState .standby none).params.wf = true ∧ (pollingState .standby none).line = Line.quiet ∧
      Polling (pollingState .standby none) ∧ (pollingState .standby none).params.pollLimit = none ∧
      CalibrationCompletes (pollingState .standby none) ∧ Polling lateDone ∧ lateDone.peer.mode = .calibrating ∧
      CalibrationCompletes lateDone := by
  refine ⟨by decide, rfl, rfl, rfl, ⟨0, _, reaches_zero.2 rfl, fun _ => by decide⟩, rfl, rfl,
    1, { (rregTx lateDone.params.calPollReg lateDone).2 with upos := lateDone.upos, polls := 1 },
    reaches_one.2 ?_, fun _ => ?_⟩
  · show Host.Outcome.next (configurePoll lateDone) = _
    rw [configurePoll_wait (poll_busy_of_mode (by decide) (by decide)) rfl]
    rfl
  · decide

/-- The state in which `configure`, issued in `s`, polls first. -/
def firstPoll (s : State) : State := enterCalibration (configureTable s.params.regTable (begin .configure s))

theorem firstPoll_params (s : State) : (firstPoll s).params = s.params := by simp [firstPoll]

/-- A `configure` whose first poll finds the peer done has run to its end. -/
theorem done_of_mode (s : State) (h1 : s.params.maskOk = true) (h2 : s.params.calPollReg ≠ s.params.statusReg)
    (hm : (answerState s.params.calPollReg (firstPoll s)).peer.mode ≠ .calibrating) :
    ConfigureDone s (configureTail (rregTx s.params.calPollReg (firstPoll s)).2) := by
  have hp := firstPoll_params s
  have hd := configurePoll_done (s := firstPoll s)
    (poll_idle_of_mode (by rw [hp]; exact h1) (by rw [hp]; exact fun h => absurd h h2) (by rw [hp]; exact hm))
  rw [hp] at hd
  refine ⟨performed_one ?_ rfl, _, List.getLast?_concat⟩
  show Host.Outcome.next (configurePoll (firstPoll s)) = _
  rw [hd]

/-- Two `configure`s on end, the peer done before the first poll of each. -/
def twoConfigures : State :=
  { idleState (chip .idle) with
    io := { State.reset.io with
      script := List.replicate 26 .stay ++ .calDone :: (List.replicate 49 .stay ++ .calDone :: List.replicate 9 .stay) } }

/-- The state between them. -/
def afterOne : State := configureTail (rregTx twoConfigures.params.calPollReg (firstPoll twoConfigures)).2

theorem witness_WritesAreIdempotent :
    (∃ s t u : State, exec (.wreg 0x0F#8 0x4A#8) s = .next t ∧ exec (.wreg 0x0F#8 0x4A#8) t = .next u) ∧
    (∃ s t u : State, s.params.wf = true ∧ ConfigureDone s t ∧ ConfigureDone t u) :=
  ⟨⟨idleState (chip .standby), _, _, rfl, rfl⟩, twoConfigures, afterOne, _, by decide,
    done_of_mode twoConfigures (by decide) (by decide) (by decide +kernel),
    done_of_mode afterOne (by decide +kernel) (by decide +kernel) (by decide +kernel)⟩

theorem witness_SetIdentityResult : (idleState (chip .receiving)).line = Line.quiet := rfl

theorem witness_GetIdentityResult :
    (idleState (chip .filled)).params.wf = true ∧ (idleState (chip .filled)).line = Line.quiet := by decide

theorem witness_IdentifierWrittenOnlyBy :
    ∃ t, exec (.setIdentity 0x11223344#32) (idleState (chip .standby)) = .next t ∧
      t.peer.idb ≠ (idleState (chip .standby)).peer.idb := ⟨_, rfl, by decide⟩

/-- Four operations queued. -/
def askingIdentity : State :=
  { idleState (chip .standby) with
    io := { State.reset.io with
      requests := (Instr.setIdentity 0xFFFFFFFF#32 :: [Instr.tune 0x14#8, .readFrame] ++ [Instr.getIdentity]).map
        (encode Config.fx)
      script := List.replicate 80 .stay } }

theorem witness_IdentityRoundTrip :
    askingIdentity.params.wf = true ∧ askingIdentity.upos = .idle ∧
      (∀ vs, WriteTx.wburst Config.fx.idReg vs ∉ Config.fx.calTriggerSeq) ∧
      (∀ i ∈ [Instr.tune 0x14#8, .readFrame],
        i.isOperation = true ∧ i ≠ .reset ∧ ∀ jd, i ≠ .setIdentity jd) ∧
      ∃ t, Reaches 4 askingIdentity t ∧ t.upos = .idle ∧ t.io.requests = [] := by
  refine ⟨by decide, rfl, fun vs h => ?_, fun i hi => ?_, _, rfl, rfl, rfl⟩
  · simp [Config.fx] at h
  · simp only [List.mem_cons, List.not_mem_nil, or_false] at hi
    rcases hi with rfl | rfl <;> exact ⟨rfl, nofun, nofun⟩

theorem witness_TuneResult :
    (idleState (chip .calibrating)).params.wf = true ∧ (idleState (chip .calibrating)).line = Line.quiet := by decide

/-- Ready for a `tune`, the last of its places without a step. -/
theorem witness_TuneArmsReceiver :
    (idleState (chip .filled)).params.wf = true ∧ (idleState (chip .filled)).line = Line.quiet ∧
      (idleState (chip .filled)).peer.cfgOk = true ∧ (idleState (chip .filled)).peer.mode ≠ .calibrating ∧
      (idleState (chip .filled)).io.script[12]? = some .stay := by decide

theorem witness_TuneBeforeConfigureRecorded :
    (idleState { chip .idle with cfgOk := false }).params.wf = true ∧
      (idleState { chip .idle with cfgOk := false }).line = Line.quiet ∧
      (idleState { chip .idle with cfgOk := false }).peer.cfgOk = false ∧
      (idleState { chip .idle with cfgOk := false }).peer.mode ≠ .calibrating := by decide

theorem witness_RearmResult :
    (idleState (chip .filled)).params.wf = true ∧ (idleState (chip .filled)).line = Line.quiet ∧
      (idleState (chip .filled)).peer.cfgOk = true ∧
      (idleState (chip .filled)).peer.mode ∈ [Mode.standby, .filled, .receiving] ∧
      (idleState (chip .filled)).io.script[5]? = some .stay ∧
      (idleState { chip .filled with reg := [(0x0F, 0x1E#8)] }).peer.chan Config.fx = some 0x1E#8 := by decide

/-- Not configured; not armable at the strobe; and one that leaves `Calibrating` just before it. -/
theorem witness_RearmOutOfOrderRecorded :
    (∀ m, (idleState (chip m)).params.wf = true) ∧ (idleState { chip .standby with cfgOk := false }).peer.cfgOk = false ∧
      (drift 5 (idleState (chip .idle))).peer.mode = .idle ∧
      (drift 5 (idleState (chip .calibrating))).peer.mode = .calibrating ∧ lateDone.peer.cfgOk = true ∧
      (drift 5 lateDone).peer.mode = .calibrating ∧ (drift 6 lateDone).peer.mode = .standby ∧
      (drift 5 (idleState (chip .filled))).peer.mode ∉ [Mode.idle, .calibrating] :=
  ⟨fun _ => test_fx_wf, rfl, by decide, by decide, rfl, by decide, by decide, by decide⟩

theorem witness_PollReadyResult :
    (∀ m, (idleState (chip m)).line = Line.quiet ∧ PinAgrees (idleState (chip m)).peer) ∧
      (drift 1 (idleState (chip .receiving))).peer.mode = .receiving ∧
      (drift 1 (idleState (chip .filled))).peer.mode = .filled :=
  ⟨fun m => ⟨rfl, by cases m <;> simp [PinAgrees, idleState, chip, pinLevel]⟩, by decide, by decide⟩

theorem witness_CrcFailedResult :
    (idleState (chip .filled)).params.wf = true ∧ (idleState (chip .filled)).line = Line.quiet ∧
      (drift 4 (idleState (chip .filled))).peer.mode = .filled := by decide

theorem witness_ReadFrameTransfers :
    (idleState (chip .filled)).line = Line.quiet ∧
      (idleState (chip .filled)).peer.mode = .filled ∧ (idleState (chip .filled)).peer.crcf = false ∧
      ¬((idleState (chip .receiving)).peer.mode = .filled ∧ (idleState (chip .receiving)).peer.crcf = false) := by
  decide

/-- Read pointer 0, and the last position below `filled_len`. -/
theorem witness_ReadFrameReturnsFrame :
    (withFrame 0).params.wf = true ∧ FifoAgrees (withFrame 0).peer ∧ FifoAgrees (withFrame 20).peer ∧
      (withFrame 0).peer.mode = .filled ∧ (withFrame 0).peer.crcf = false ∧ (withFrame 0).peer.rdptr = 0 ∧
      (withFrame 0).peer.filledLen = frameLen ∧ (withFrame 20).peer.rdptr + 0 < (withFrame 20).peer.filledLen :=
  ⟨by decide, ⟨by decide, .inr rfl⟩, ⟨by decide, .inr rfl⟩, rfl, rfl, rfl, rfl, by decide⟩

/-- The read pointer at the end of the frame; a failed CRC with a whole frame stored; every other mode; and a record in which
the FIFO register is polled. -/
theorem witness_SecondReadFrameDraws :
    (withFrame 21).params.wf = true ∧ (withFrame 21).peer.mode = .filled ∧ (withFrame 21).peer.crcf = false ∧
      (withFrame 21).peer.filledLen ≤ (withFrame 21).peer.rdptr ∧
      (∀ x : Peer, x = { (withFrame 0).peer with crcf := true } → x.mode = .filled ∧ x.crcf = true) ∧
      (∀ m ∈ [Mode.idle, .standby, .calibrating, .receiving], (idleState (chip m)).params.wf = true ∧
        (idleState (chip m)).peer.mode ≠ .filled) ∧
      ({ Config.fx with calPollReg := Config.fx.fifoReg } : ChipParams).wf = true :=
  ⟨by decide, rfl, rfl, by decide, fun x h => by subst h; exact ⟨rfl, rfl⟩,
    fun m hm => ⟨test_fx_wf, by rintro rfl; simp at hm⟩, by decide⟩

/-- A script with one frame, the 14th move, its CRC failed or not. -/
def frameAfterTune (c : Bool) : State :=
  { idleState (chip .standby) with
    io := { State.reset.io with
      script := List.replicate 13 .stay ++ [.frameArrive (Vector.replicate 21 0xAA#8) c] } }

theorem witness_ReceiveCycle :
    ∀ c, (frameAfterTune c).params.wf = true ∧ (frameAfterTune c).line = Line.quiet ∧
      (frameAfterTune c).peer.cfgOk = true ∧ (frameAfterTune c).peer.mode ≠ .calibrating ∧
      List.replicate 13 PeerMove.stay ++ [.frameArrive (Vector.replicate 21 0xAA#8) c] <+:
        (frameAfterTune c).io.script := fun _ => ⟨test_fx_wf, rfl, rfl, nofun, List.prefix_rfl⟩

/-- Before a boot: four moves go by in `reset`, then `configure` finds the peer done at its first poll. -/
def beforeBoot : State :=
  { idleState (chip .filled) with
    io := { State.reset.io with script := List.replicate 30 .stay ++ .calDone :: List.replicate 9 .stay } }

/-- The state after that `reset`. -/
def afterReset : State := finish (success .empty) (resetPeer (begin .reset beforeBoot))

theorem witness_BootOrderArmsWithoutFault :
    beforeBoot.params.wf = true ∧ beforeBoot.line = Line.quiet ∧
      WriteTx.strobe Config.fx.strobeRx ∉ Config.fx.resetSeq ++ Config.fx.calTriggerSeq ∧
      ∃ t u, exec .reset beforeBoot = .next t ∧ ConfigureDone t u :=
  ⟨by decide, rfl, by decide, afterReset, _, rfl,
    done_of_mode afterReset (by decide +kernel) (by decide +kernel) (by decide +kernel)⟩

theorem witness_FaultsNeverRemoved :
    ∃ t, step { asking (.command 0x0A00000000#40) with faults := [.seqUnloaded .advance] } = .next t :=
  ⟨_, rfl⟩

theorem witness_FifoWrittenOnlyByFrames :
    ∃ t, step { frameAfterTune false with peer := chip .receiving, io := { State.reset.io with
        script := [.frameArrive (Vector.replicate 21 0xAA#8) false] } } = .next t ∧
      t.peer.fifo ≠ (chip .receiving).fifo := ⟨_, rfl, by decide⟩

theorem witness_StatusReportsDetectedFaults :
    ∃ t, step (asking (.command 0x1200000000#40)) = .next t ∧ t.io.responses = [⟨0x02#8, .empty⟩] := ⟨_, rfl, by decide⟩

/-- `cfg_ok` falls in `reset` and where `configure` ends stuck, and rises where `configure` ends with success. -/
theorem witness_CfgOkDiscipline :
    (∃ t, step (asking (.command 0x0100000000#40)) = .next t ∧
      t.peer.cfgOk ≠ (asking (.command 0x0100000000#40)).peer.cfgOk) ∧
    (∃ t, step (pollingState .calibrating (some 1)) = .next t ∧
      t.peer.cfgOk ≠ (pollingState .calibrating (some 1)).peer.cfgOk) ∧
    ∃ t, step (unconfiguredPolling .standby none) = .next t ∧
      t.peer.cfgOk ≠ (unconfiguredPolling .standby none).peer.cfgOk := by
  refine ⟨⟨_, rfl, by decide⟩, ⟨configurePoll (pollingState .calibrating (some 1)), rfl, ?_⟩,
    configurePoll (unconfiguredPolling .standby none), rfl, ?_⟩
  · rw [configurePoll_stuck (poll_busy_of_mode (by decide) (by decide)) (by decide)]
    decide
  · rw [configurePoll_done (poll_idle_of_mode (by decide) (by decide) (by decide))]
    decide

theorem witness_LinesReadBack : (Instr.tune 0xFF#8).isOperation = true ∧ Instr.advance.isOperation = true := by decide

theorem witness_HopTunesNewChannel : loadedState.seq.loaded = true := rfl

end Sys2Proof.Tests
end

/-! # Well-formed parameter records

What each Boolean check of WellFormed.lean says as a proposition (spec/00_scope.md R9, R10), and the two
obligations about well-formed records made of them. -/

namespace Sys2Proof.ChipParams

/-! ### The list checks -/

theorem isReg_iff {p : ChipParams} {a : RegAddr} : p.isReg a = true ↔ a.toNat < 2 ^ p.addrBits := by
  rw [isReg, Nat.blt_eq]

theorem holds_iff {xs : List Nat} {x : Nat} : holds xs x = true ↔ x ∈ xs := by
  simp [holds, Nat.beq_eq]

theorem noRepeat_iff {xs : List Nat} : noRepeat xs = true ↔ xs.Nodup := by
  induction xs with
  | nil => simp [noRepeat]
  | cons x xs ih => simp [noRepeat, holds_iff, ih]

theorem noRepeat_map_toNat_iff {bs : List Byte} : noRepeat (bs.map BitVec.toNat) = true ↔ bs.Nodup := by
  rw [noRepeat_iff, List.nodup_map_iff BitVec.toNat_injective]

theorem ascending_iff {xs : List Nat} : ascending xs = true ↔ xs.Pairwise (· < ·) := by
  rw [← List.isChain_iff_pairwise]
  induction xs with
  | nil => simp [ascending]
  | cons x xs ih =>
    cases xs with
    | nil => simp [ascending]
    | cons y ys => simp [ascending, ih, Nat.blt_eq]

/-! ### The images of the command tables

Both are read at the addresses of the chip, which `RegAddr` bounds by 256 whatever `ADDR_BITS` is. -/

theorem length_image (p : ChipParams) (t : Vector Byte 256) : (p.image t).length = min (2 ^ p.addrBits) 256 := by
  simp [image]

theorem getElem_image (p : ChipParams) (t : Vector Byte 256) (i : Nat) (h : i < (p.image t).length) :
    (p.image t)[i] = (t[i]'(by rw [length_image] at h; omega)).toNat := by
  simp [image]

/-- The positions of an image are the addresses of the chip. -/
theorem lt_length_image_iff {p : ChipParams} {t : Vector Byte 256} {a : RegAddr} :
    a.toNat < (p.image t).length ↔ a.toNat < 2 ^ p.addrBits := by
  rw [length_image]
  omega

/-- Every position of an image is an address. -/
theorem exists_toNat_eq_of_lt_length_image {p : ChipParams} {t : Vector Byte 256} {i : Nat}
    (h : i < (p.image t).length) : ∃ a : RegAddr, a.toNat = i := by
  rw [length_image] at h
  have hi : i < 2 ^ 8 := by omega
  exact ⟨BitVec.ofNatLT i hi, BitVec.toNat_ofNatLT i hi⟩

theorem mem_image_iff {p : ChipParams} {t : Vector Byte 256} {n : Nat} :
    n ∈ p.image t ↔ ∃ a : RegAddr, a.toNat < 2 ^ p.addrBits ∧ t[a.toNat].toNat = n := by
  constructor
  · intro h
    obtain ⟨i, hi, rfl⟩ := List.getElem_of_mem h
    obtain ⟨a, rfl⟩ := exists_toNat_eq_of_lt_length_image hi
    exact ⟨a, lt_length_image_iff.1 hi, (getElem_image ..).symm⟩
  · rintro ⟨a, ha, rfl⟩
    exact List.mem_iff_getElem.2 ⟨a.toNat, lt_length_image_iff.2 ha, getElem_image ..⟩

theorem nodup_image_iff {p : ChipParams} {t : Vector Byte 256} :
    (p.image t).Nodup ↔ ∀ a b : RegAddr, a.toNat < 2 ^ p.addrBits → b.toNat < 2 ^ p.addrBits →
      t[a.toNat] = t[b.toNat] → a = b := by
  constructor
  · intro h a b ha hb hab
    have hget : (p.image t)[a.toNat]'(lt_length_image_iff.2 ha) = (p.image t)[b.toNat]'(lt_length_image_iff.2 hb) := by
      rw [getElem_image, getElem_image, hab]
    exact BitVec.eq_of_toNat_eq (h.getElem_inj_iff.1 hget)
  · rw [List.nodup_iff_injective_getElem]
    rintro h ⟨i, hi⟩ ⟨j, hj⟩ hij
    obtain ⟨a, rfl⟩ := exists_toNat_eq_of_lt_length_image hi
    obtain ⟨b, rfl⟩ := exists_toNat_eq_of_lt_length_image hj
    simp only [getElem_image] at hij
    have hab : a = b := h a b (lt_length_image_iff.1 hi) (lt_length_image_iff.1 hj) (BitVec.eq_of_toNat_eq hij)
    simp only [hab]

/-- A byte lies outside the image of a command table exactly where no register's access opens with it. -/
theorem not_holds_image_iff {p : ChipParams} {t : Vector Byte 256} {b : Byte} :
    (!holds (p.image t) b.toNat) = true ↔ ∀ a : RegAddr, a.toNat < 2 ^ p.addrBits → b ≠ t[a.toNat] := by
  rw [Bool.not_eq_true', ← Bool.not_eq_true, holds_iff, mem_image_iff]
  simp [BitVec.toNat_inj, eq_comm]

/-! ### The clauses -/

/-- The transactions of a sequence are all right exactly where its writes and its bursts are. -/
theorem all_txOk_iff {p : ChipParams} {ts : List WriteTx} :
    ts.all p.txOk = true ↔
      (∀ a v, WriteTx.wreg a v ∈ ts → a.toNat < 2 ^ p.addrBits) ∧
        ∀ a vs, WriteTx.wburst a vs ∈ ts → a.toNat < 2 ^ p.addrBits ∧ vs ≠ [] := by
  rw [List.all_eq_true]
  constructor
  · intro h
    exact ⟨fun a v hm => isReg_iff.1 (h _ hm), fun a vs hm => by simpa [txOk, isReg_iff] using h _ hm⟩
  · rintro ⟨hreg, hburst⟩ (s | ⟨a, v⟩ | ⟨a, vs⟩) hm
    · rfl
    · exact isReg_iff.2 (hreg a v hm)
    · simpa [txOk, isReg_iff] using hburst a vs hm

/-- The types of R9. -/
theorem typesOk_iff {p : ChipParams} : p.typesOk = true ↔
    1 ≤ p.addrBits ∧ p.addrBits ≤ 8 ∧
      (∀ a ∈ [p.calPollReg, p.trim1.1, p.trim2.1, p.idReg, p.channelReg, p.statusReg, p.fifoReg] ++
        p.calStatusRegs ++ p.plainRegs, a.toNat < 2 ^ p.addrBits) ∧
      (∀ a v, WriteTx.wreg a v ∈ p.resetSeq ++ p.calTriggerSeq → a.toNat < 2 ^ p.addrBits) ∧
      (∀ a vs, WriteTx.wburst a vs ∈ p.resetSeq ++ p.calTriggerSeq → a.toNat < 2 ^ p.addrBits ∧ vs ≠ []) ∧
      p.calStatusRegs ≠ [] := by
  have hchecks : p.typesOk = true ↔ 1 ≤ p.addrBits ∧ p.addrBits ≤ 8 ∧
      ([p.calPollReg, p.trim1.1, p.trim2.1, p.idReg, p.channelReg, p.statusReg, p.fifoReg] ++
        p.calStatusRegs ++ p.plainRegs).all p.isReg = true ∧
      (p.resetSeq ++ p.calTriggerSeq).all p.txOk = true ∧ p.calStatusRegs ≠ [] := by
    simp only [typesOk, List.all_cons (f := id), List.all_nil (f := id), id, List.all_append, Nat.ble_eq,
      Bool.and_eq_true, Bool.not_eq_true', List.isEmpty_eq_false_iff, and_assoc, and_true]
  rw [hchecks, all_txOk_iff, and_assoc]
  simp only [List.all_eq_true, isReg_iff]

/-- R10 (a). -/
theorem injectiveOk_iff {p : ChipParams} : p.injectiveOk = true ↔
    (∀ a b : RegAddr, a.toNat < 2 ^ p.addrBits → b.toNat < 2 ^ p.addrBits →
      p.wrByte a = p.wrByte b → a = b) ∧
    ∀ a b : RegAddr, a.toNat < 2 ^ p.addrBits → b.toNat < 2 ^ p.addrBits →
      p.rdByte a = p.rdByte b → a = b := by
  simp only [injectiveOk, List.all_cons, List.all_nil, id, Bool.and_eq_true, and_true, noRepeat_iff, nodup_image_iff,
    wrByte, rdByte]

/-- R10 (b). -/
theorem disjointOk_iff {p : ChipParams} : p.disjointOk = true ↔
    ∀ a : RegAddr, a.toNat < 2 ^ p.addrBits → ∀ b : RegAddr, b.toNat < 2 ^ p.addrBits →
      p.wrByte a ≠ p.rdByte b := by
  simp only [disjointOk, List.all_eq_true, mem_image_iff, forall_exists_index, and_imp, forall_apply_eq_imp_iff₂,
    not_holds_image_iff, wrByte, rdByte]

/-- R10 (a) and (b), for two addresses at a time. -/
theorem commandsOk_iff {p : ChipParams} : p.injectiveOk = true ∧ p.disjointOk = true ↔
    ∀ a b : RegAddr, a.toNat < 2 ^ p.addrBits → b.toNat < 2 ^ p.addrBits →
      (p.wrByte a = p.wrByte b → a = b) ∧ (p.rdByte a = p.rdByte b → a = b) ∧ p.wrByte a ≠ p.rdByte b := by
  rw [injectiveOk_iff, disjointOk_iff]
  constructor
  · rintro ⟨⟨hwr, hrd⟩, hne⟩ a b ha hb
    exact ⟨hwr a b ha hb, hrd a b ha hb, hne a ha b hb⟩
  · intro h
    exact ⟨⟨fun a b ha hb => (h a b ha hb).1, fun a b ha hb => (h a b ha hb).2.1⟩,
      fun a ha b hb => (h a b ha hb).2.2⟩

/-- R10 (c). -/
theorem strobesOk_iff {p : ChipParams} : p.strobesOk = true ↔
    [p.strobeStandby, p.strobeRstRdptr, p.strobeRx].Nodup ∧
      ∀ b ∈ [p.strobeStandby, p.strobeRstRdptr, p.strobeRx], ∀ a : RegAddr, a.toNat < 2 ^ p.addrBits →
        b ≠ p.wrByte a ∧ b ≠ p.rdByte a := by
  have hs : p.strobes = [p.strobeStandby, p.strobeRstRdptr, p.strobeRx].map BitVec.toNat := rfl
  simp only [strobesOk, List.all_cons (f := id), List.all_nil (f := id), id, Bool.and_eq_true, and_true, hs,
    noRepeat_map_toNat_iff, List.all_map, List.all_eq_true, Function.comp_apply, not_holds_image_iff]
  simp only [wrByte, rdByte, forall_and]

/-- R10 (d). -/
theorem tableOk_iff {p : ChipParams} : p.tableOk = true ↔
    (p.regTable.map fun e => e.1.toNat).Pairwise (· < ·) ∧ ∀ e ∈ p.regTable, e.1.toNat < 2 ^ p.addrBits := by
  simp only [tableOk, List.all_cons (f := id), List.all_nil (f := id), id, Bool.and_eq_true, and_true, ascending_iff,
    List.all_eq_true, isReg_iff]

/-- R10 (e). -/
theorem maskOk_iff {p : ChipParams} : p.maskOk = true ↔ p.calBusyMask ≠ 0#8 := by
  rw [maskOk, bne_iff_ne]

/-- R10 (g). -/
theorem rolesOk_iff {p : ChipParams} : p.rolesOk = true ↔ [p.idReg, p.fifoReg, p.channelReg, p.statusReg].Nodup :=
  noRepeat_map_toNat_iff (bs := [p.idReg, p.fifoReg, p.channelReg, p.statusReg])

/-- R10 (f), which the field's type carries. -/
theorem crcBit_le (p : ChipParams) : p.crcBit.val ≤ 7 := Nat.le_of_lt_succ p.crcBit.isLt

/-- R10 (h), which the field's type carries. -/
theorem hopTable_shape (p : ChipParams) :
    p.hopTable.toList.length = 16 ∧ ∀ r ∈ p.hopTable.toList, r.toList.length = 16 :=
  ⟨p.hopTable.length_toList, fun r _ => r.length_toList⟩

theorem wf_iff {p : ChipParams} : p.wf = true ↔
    p.typesOk = true ∧ (p.injectiveOk = true ∧ p.disjointOk = true) ∧ p.strobesOk = true ∧ p.tableOk = true ∧
      p.maskOk = true ∧ p.rolesOk = true := by
  simp [wf, and_assoc]

end Sys2Proof.ChipParams

namespace Sys2Proof.Machine

open Sys2Proof.ChipParams

/-- Settles O9, clause by clause; (f) and (h) hold of every record. -/
theorem wellFormedParamsMeaning : Obligations.WellFormedParamsMeaning := by
  intro p
  rw [wf_iff, typesOk_iff, commandsOk_iff, strobesOk_iff, tableOk_iff, maskOk_iff, rolesOk_iff,
    and_iff_right (crcBit_le p), and_iff_left (hopTable_shape p)]

/-- Settles O10: `step` looks at the record before it looks at anything else. -/
theorem illFormedParamsStop : Obligations.IllFormedParamsStop := by
  intro s h
  rw [step, h, if_neg Bool.false_ne_true]

end Sys2Proof.Machine

/-! # The state over one step

What a step does to the block's own fields (spec/10_state.md R21 to R27): the sequencer, the line, the position, `FAULTS`,
the parameters and `cfg_ok`. What every elementary update keeps goes through `step_stable`; for what some operation writes,
`step_ended` says once which operation that is. -/

namespace Sys2Proof.Machine

open Sys2Proof.Safety

/-! ### The row and the offset of an identity (R22) -/

/-- The mask of the low byte. -/
theorem toNat_and_lowByte (x : BitVec 32) : (x &&& 0xFF#32).toNat = x.toNat % 256 := by
  rw [BitVec.toNat_and, show (0xFF#32).toNat = 2 ^ 8 - 1 from rfl, Nat.and_two_pow_sub_one_eq_mod]

/-- The offset looks at the high nibble of the low byte alone. -/
theorem offset_eq (id : Ident) : offset id = min 9 (id.toNat % 256 / 16) := by
  rw [offset, toNat_and_lowByte]

/-- Settles O15, on numbers: all that `row` and `offset` read of an identity is its low byte. -/
theorem rowAndOffset : Obligations.RowAndOffset := by
  intro id
  have hlow : (id.extractLsb' 0 4).toNat = id.toNat % 16 := by simp [BitVec.extractLsb'_toNat]
  have hhigh : (id.extractLsb' 4 4).toNat = id.toNat % 256 / 16 := by
    rw [BitVec.extractLsb'_toNat, Nat.shiftRight_eq_div_pow]
    omega
  refine ⟨row_val id, (row_val id).trans hlow.symm, rfl, offset_le id, fun h => ?_, fun h => ?_, fun jd h => ?_⟩
  · rw [hhigh] at h
    rw [offset_eq, min_eq_left (by omega)]
  · rw [hhigh] at h ⊢
    rw [offset_eq, min_eq_right (by omega)]
  · have hbyte : jd.toNat % 256 = id.toNat % 256 := by simpa [BitVec.extractLsb'_toNat] using congrArg BitVec.toNat h
    refine ⟨Fin.ext ?_, by rw [offset_eq, offset_eq, hbyte]⟩
    rw [row_val, row_val]
    omega

/-! ### Kept by every elementary update -/

/-- No update writes the parameters, and the only one `FAULTS` knows is the addition of a fault (R24, R27). -/
theorem stable_of_insertFault {K : ChipParams → List FaultRecord → Prop}
    (h : ∀ p f fs, K p fs → K p (insertFault f fs)) : Stable fun s => K s.params s.faults where
  turn _ hs := hs
  record _ _ hs := hs
  advance _ hs := hs
  standby _ hs := hs
  rstRdptr _ hs := hs
  rx s hs := by
    rw [strobeRx_params, strobeRx_faults]
    split_ifs
    · exact h _ _ _ hs
    · exact hs
  write _ _ _ _ hs := hs
  idb _ _ hs := hs
  calibrate _ hs := hs
  read _ _ hs := hs
  raise f s hs := h s.params f s.faults hs
  seq _ _ hs := hs
  control _ _ _ hs := hs
  configured _ _ hs := hs
  caller _ _ _ hs := hs

theorem stable_params (p : ChipParams) : Stable fun s => s.params = p :=
  stable_of_insertFault (K := fun q _ => q = p) fun _ _ _ hs => hs

theorem stable_mem_faults (f : FaultRecord) : Stable fun s => f ∈ s.faults :=
  stable_of_insertFault (K := fun _ fs => f ∈ fs) fun _ _ _ hs => mem_insertFault.2 (.inr hs)

/-- Settles O11: the parameters are kept by every elementary update, the soft reset among them. -/
theorem parametersNeverWritten : Obligations.ParametersNeverWritten :=
  fun s _ h => step_stable (stable_params s.params) (fun _ hs => hs) rfl h

/-- Settles O54: a fault is only ever added, and only where it is not yet recorded. -/
theorem faultsNeverRemoved : Obligations.FaultsNeverRemoved :=
  ⟨rfl, fun _ _ h => ⟨fun f hf => step_stable (stable_mem_faults f) (fun _ hs => hs) hf h,
    fun hn => step_stable stable_faults (fun _ hs => hs) hn h⟩⟩

/-! ### Stretches in which no operation ends -/

/-- Between `s` and `t` no operation has returned, and none has written a register of the sequencer or `cfg_ok`. -/
structure Undisturbed (s t : State) : Prop where
  params : t.params = s.params
  seq : t.seq = s.seq
  line : s.line = Line.quiet → t.line = Line.quiet
  responses : t.io.responses = s.io.responses
  cfgOk : t.peer.cfgOk = s.peer.cfgOk

theorem Undisturbed.trans {s t u : State} (h : Undisturbed s t) (k : Undisturbed t u) : Undisturbed s u where
  params := k.params.trans h.params
  seq := k.seq.trans h.seq
  line hs := k.line (h.line hs)
  responses := k.responses.trans h.responses
  cfgOk := k.cfgOk.trans h.cfgOk

theorem Moved.undisturbed {s t : State} {es : List Event} {n : Nat} (h : Moved s t es n)
    (hc : t.peer.cfgOk = s.peer.cfgOk) : Undisturbed s t :=
  ⟨h.params, h.seq, h.line, h.responses, hc⟩

theorem begin_undisturbed (op : OpName) (s : State) : Undisturbed s (begin op s) := ⟨rfl, rfl, id, rfl, rfl⟩

theorem raise_undisturbed (f : FaultRecord) (s : State) : Undisturbed s (raise f s) := ⟨rfl, rfl, id, rfl, rfl⟩

theorem raiseIf_undisturbed (c : Bool) (f : FaultRecord) (s : State) : Undisturbed s (raiseIf c f s) :=
  ⟨rfl, rfl, id, rfl, rfl⟩

theorem peerTurn_undisturbed (s : State) : Undisturbed s (peerTurn s) := ⟨rfl, rfl, id, rfl, by simp⟩

theorem afterFetch_undisturbed (s : State) : Undisturbed s (afterFetch s) := ⟨rfl, rfl, id, rfl, by simp [afterFetch]⟩

theorem strobe_undisturbed (b : Byte) (s : State) : Undisturbed s (strobeTx b id s) :=
  (strobe_moved b s).undisturbed (strobe_cfgOk b s)

theorem wreg_undisturbed (a : RegAddr) (v : Byte) (s : State) : Undisturbed s (wregTx a v id s) :=
  (wreg_moved a v s).undisturbed (by simp [wreg_peer, upWrite])

theorem wburst_undisturbed (a : RegAddr) (vs : List Byte) (s : State) : Undisturbed s (wburstTx a vs id s) :=
  (wburst_moved a vs s).undisturbed (by rw [wburst_peer, upBurst_rest, drift_cfgOk])

theorem rreg_undisturbed (a : RegAddr) (s : State) : Undisturbed s (rregTx a s).2 :=
  (rreg_moved a s).undisturbed (rreg_cfgOk a s)

theorem rburst_undisturbed (answer : Nat → State → Byte) (a : RegAddr) (n : Nat) (s : State) :
    Undisturbed s (rburstTx answer a n s).2 :=
  (rburst_moved a n s).undisturbed (by simp [rburst_peer, upRead])

theorem gpio_undisturbed (s : State) : Undisturbed s (gpioTx s).2 := ⟨rfl, rfl, id, rfl, by simp [gpioTx]⟩

/-- `configure` up to its first poll (spec/41_radio_driver.md R152, R153). -/
theorem atPoll_undisturbed (s : State) : Undisturbed s (atPoll s) :=
  have h := head_moved s
  ⟨h.params, h.seq, h.line, h.responses, atPoll_cfgOk s⟩

/-- `configure` comes to its poll position (spec/10_state.md R25). -/
theorem atPoll_polling (s : State) : Polling (atPoll s) := by
  have h : (atPoll s).upos = (begin .configure s).upos.plus (pollPosition s.params) := (head_moved s).upos
  rw [Polling, h, (atPoll_undisturbed s).params, begin_upos, Upos.plus, Nat.zero_add]

/-! ### How an instruction other than `configure` ends -/

/-- The block at the end of a step that ran an instruction of `Q`, or none, to its end: at rest again, and only `advance`
and `seq_load` have written the sequencer, only `reset` `cfg_ok`. -/
structure Ended (Q : Instr → Prop) (s t : State) : Prop where
  line : s.line = Line.quiet → t.line = Line.quiet
  upos : t.upos = .idle
  seq : t.seq = s.seq ∨ Q .advance ∨ ∃ id, Q (.seqLoad id)
  cfgOk : t.peer.cfgOk = s.peer.cfgOk ∨ (Q .reset ∧ t.peer.cfgOk = false)

section

variable {Q : Instr → Prop}

theorem Ended.after {s t u : State} (h : Undisturbed s u) (k : Ended Q u t) : Ended Q s t where
  line hs := k.line (h.line hs)
  upos := k.upos
  seq := h.seq ▸ k.seq
  cfgOk := h.cfgOk ▸ k.cfgOk

theorem Undisturbed.ended {s t : State} (h : Undisturbed s t) (hu : t.upos = .idle) : Ended Q s t :=
  ⟨h.line, hu, .inl h.seq, .inl h.cfgOk⟩

theorem Undisturbed.finished {s t : State} (h : Undisturbed s t) (r : Response) : Ended Q s (finish r t) :=
  ⟨h.line, rfl, .inl h.seq, .inl h.cfgOk⟩

theorem Undisturbed.failed {s t : State} (h : Undisturbed s t) (f : FaultRecord) : Ended Q s (failWith f t) :=
  (h.trans (raise_undisturbed f t)).finished _

theorem Moved.idle {s t : State} {es : List Event} {n : Nat} (h : Moved s t es n) (hu : s.upos = .idle) :
    t.upos = .idle := by
  rw [h.upos, hu, Upos.plus]

/-- `RESET_SEQ` as the block sees it, an empty one too. -/
theorem resetPeer_moved (s : State) : ∃ es n, Moved s (resetPeer s) es n := by
  unfold resetPeer
  split
  · exact ⟨[], 0, rfl, rfl, id, by simp, rfl, rfl, rfl, by simp⟩
  · exact ⟨_, _, performAll_moved _ (fun _ => rfl) s⟩

/-- The soft reset clears `cfg_ok`, and no event after it sets it (spec/70_reset_and_hazards.md R241). -/
theorem resetPeer_cfgOk (s : State) : (resetPeer s).peer.cfgOk = false := by
  unfold resetPeer
  split
  · rfl
  · rename_i t ts _
    obtain ⟨u, -, hu⟩ := performAll_last (t :: ts) (List.cons_ne_nil t ts) softReset s
    rw [hu, advanceUpos_peer, passing_peer, drift_cfgOk, softReset_cfgOk]

/-- Every instruction but `configure`, issued with the block idle, runs to its end. -/
theorem exec_ended {i : Instr} {s t : State} (hq : Q i) (hi : i ≠ .configure) (hu : s.upos = .idle)
    (h : exec i s = .next t) : Ended Q s t := by
  cases i with
  | reset =>
    cases h
    obtain ⟨es, n, hm⟩ := resetPeer_moved (begin .reset s)
    exact ⟨hm.line, rfl, .inl hm.seq, .inr ⟨hq, resetPeer_cfgOk _⟩⟩
  | configure => exact absurd rfl hi
  | setIdentity ident =>
    cases h
    exact ((begin_undisturbed _ s).trans (wburst_undisturbed _ _ _)).finished _
  | getIdentity =>
    cases h
    exact ((begin_undisturbed _ s).trans (rburst_undisturbed _ _ _ _)).finished _
  | tune channel =>
    cases h
    exact (((((begin_undisturbed _ s).trans (strobe_undisturbed _ _)).trans (strobe_undisturbed _ _)).trans
      (wreg_undisturbed _ _ _)).trans (strobe_undisturbed _ _)).finished _
  | rearm =>
    cases h
    exact (((begin_undisturbed _ s).trans (strobe_undisturbed _ _)).trans (strobe_undisturbed _ _)).finished _
  | pollReady =>
    cases h
    exact ((begin_undisturbed _ s).trans (gpio_undisturbed _)).finished _
  | crcFailed =>
    cases h
    exact ((begin_undisturbed _ s).trans (rreg_undisturbed _ _)).finished _
  | readFrame =>
    cases h
    exact (((begin_undisturbed _ s).trans (raiseIf_undisturbed _ _ _)).trans (rburst_undisturbed _ _ _ _)).finished _
  | seqLoad id =>
    cases h
    exact ⟨fun hl => hl, rfl, .inr (.inr ⟨id, hq⟩), .inl rfl⟩
  | seqChannel =>
    simp only [exec, execSeqChannel, Host.Outcome.next.injEq] at h
    subst h
    split_ifs
    · exact (begin_undisturbed _ s).failed _
    · exact (begin_undisturbed _ s).finished _
  | advance =>
    simp only [exec, execAdvance, Host.Outcome.next.injEq] at h
    subst h
    split_ifs
    · exact (begin_undisturbed _ s).failed _
    · exact ⟨fun hl => hl, rfl, .inr (.inl hq), .inl rfl⟩
  | strobe b =>
    simp only [exec, execStrobe] at h
    split_ifs at h
    cases h
    exact (strobe_undisturbed b s).ended ((strobe_moved b s).idle hu)
  | wreg a v =>
    simp only [exec, execWreg] at h
    split_ifs at h
    cases h
    exact (wreg_undisturbed a v s).ended ((wreg_moved a v s).idle hu)
  | rreg a =>
    simp only [exec, execRreg] at h
    split_ifs at h
    cases h
    exact (rreg_undisturbed a s).ended ((rreg_moved a s).idle hu)
  | wburst a vs =>
    simp only [exec, execWburst] at h
    split_ifs at h
    cases h
    exact (wburst_undisturbed a vs s).ended ((wburst_moved a vs s).idle hu)
  | rburst4 a =>
    simp only [exec, execRburst4] at h
    split_ifs at h
    cases h
    exact (rburst_undisturbed _ a _ s).ended ((rburst_moved a _ s).idle hu)
  | rburst21 a =>
    simp only [exec, execRburst21] at h
    split_ifs at h
    cases h
    exact (rburst_undisturbed _ a _ s).ended ((rburst_moved a _ s).idle hu)

end

/-! ### How a turn of the poll loop ends -/

/-- The block after `configure` has polled (spec/41_radio_driver.md R153, R154): it polls again, has succeeded with
`cfg_ok` true, or is stuck with `cfg_ok` false (log 23). -/
structure PollEnded (s t : State) : Prop where
  line : s.line = Line.quiet → t.line = Line.quiet
  seq : t.seq = s.seq
  ends :
    (t.upos = .running .configure (pollPosition s.params) ∧ t.peer.cfgOk = s.peer.cfgOk) ∨
    (t.upos = .idle ∧ t.peer.cfgOk = true ∧ ∃ bs, t.io.responses = s.io.responses ++ [⟨0x00#8, .bytes bs⟩]) ∨
    (t.upos = .idle ∧ t.peer.cfgOk = false ∧ t.io.responses = s.io.responses ++ [⟨0x03#8, .empty⟩])

theorem PollEnded.after {s t u : State} (h : Undisturbed s u) (k : PollEnded u t) : PollEnded s t where
  line hs := k.line (h.line hs)
  seq := k.seq.trans h.seq
  ends := by
    rw [← h.params, ← h.cfgOk, ← h.responses]
    exact k.ends

/-- One turn of the loop, by its three outcomes. -/
theorem configurePoll_ended {s : State} (hs : Polling s) : PollEnded s (configurePoll s) := by
  have hr := rreg_undisturbed s.params.calPollReg s
  cases hbusy : pollBusy s.params (rregTx s.params.calPollReg s).1 with
  | false =>
    obtain ⟨u, bs, hu, -, hm⟩ := tail_moved (rregTx s.params.calPollReg s).2
    rw [configurePoll_done hbusy, hu]
    refine ⟨fun hl => hm.line (hr.line hl), hm.seq.trans hr.seq, .inr (.inl ⟨rfl, rfl, bs, ?_⟩)⟩
    rw [finish_responses, hm.responses, hr.responses]
    rfl
  | true =>
    cases hlimit : limitReached s.params (s.polls + 1) with
    | false =>
      rw [configurePoll_wait hbusy hlimit]
      exact ⟨hr.line, hr.seq, .inl ⟨hs, hr.cfgOk⟩⟩
    | true =>
      rw [configurePoll_stuck hbusy hlimit]
      refine ⟨hr.line, hr.seq, .inr (.inr ⟨rfl, rfl, ?_⟩)⟩
      rw [failWith, finish_responses, raise_responses, hr.responses]
      rfl

/-- `configure` issued is its first turn of the loop. -/
theorem execConfigure_ended {s t : State} (h : exec .configure s = .next t) : PollEnded s t := by
  have ht : configurePoll (atPoll s) = t := Host.Outcome.next.inj h
  exact .after (atPoll_undisturbed s) (ht ▸ configurePoll_ended (atPoll_polling s))

/-! ### How a step ends -/

/-- The block is idle in `s`, and the caller's next request decodes to `i`. -/
def Issued (s : State) (i : Instr) : Prop :=
  s.upos = .idle ∧ ∃ r rest, s.io.requests = r :: rest ∧ decodeRequest s.params r = .ok i

/-- What a step does to the line, the position, the sequencer and `cfg_ok`. -/
theorem step_ended {s t : State} (h : step s = .next t) :
    Ended (Issued s) s t ∨ ((Polling s ∨ Issued s .configure) ∧ PollEnded s t) := by
  have hf := afterFetch_undisturbed s
  obtain ⟨-, ⟨hu, -, rfl⟩ | ⟨r, rs, i, hu, hreq, hd, he⟩ | ⟨w, rs, e, hu, -, -, rfl⟩ | ⟨bs, rs, a, n, hu, -, rfl⟩ |
    ⟨hp, rfl⟩⟩ := step_cases h
  · exact .inl ((peerTurn_undisturbed s).ended hu)
  · have hissued : Issued s i := ⟨hu, r, rs, hreq, hd⟩
    by_cases hi : i = .configure
    · subst hi
      exact .inr ⟨.inr hissued, .after hf (execConfigure_ended he)⟩
    · exact .inl (.after hf (exec_ended hissued hi hu he))
  · exact .inl (hf.failed _)
  · exact .inl ((hf.trans (rburst_undisturbed _ a n _)).ended ((rburst_moved a n (afterFetch s)).idle hu))
  · exact .inr ⟨.inl hp, configurePoll_ended hp⟩

/-! ### The command word of an operation -/

/-- No frame stands for an operation (spec/30_encoding.md R104). -/
theorem decodeFrame_not_operation {p : ChipParams} {bs : List Byte} {i : Instr} (h : decodeFrame p bs = .ok i) :
    i.isOperation = false := by
  unfold decodeFrame at h
  split at h
  · cases h
  · split_ifs at h
    cases h
    rfl
  · rename_i b d ds
    split at h
    · cases h
      cases ds <;> rfl
    · split at h
      · unfold readFrame at h
        split_ifs at h <;> cases h <;> rfl
      · cases h

/-- A word is its two fields (R101). -/
theorem commandWord_fields (w : CmdWord) : (opField w ++ argField w : CmdWord) = w :=
  BitVec.extractLsb'_append_extractLsb'

theorem eq_zero_of_and_noOperand {x : BitVec 32} (h : x &&& noOperand = 0#32) : x = 0#32 := by
  rwa [show noOperand = BitVec.allOnes 32 from rfl, BitVec.and_allOnes] at h

/-- The operand of `tune` fits in its byte where the mask of its row is met (R102). -/
theorem setWidth_setWidth_of_and {x : BitVec 32} (h : x &&& 0xFFFFFF00#32 = 0#32) : (x.setWidth 8).setWidth 32 = x := by
  have hsplit : x = x &&& 0xFF#32 := by
    calc x = x &&& (0xFFFFFF00#32 ||| 0xFF#32) := BitVec.and_allOnes.symm
      _ = x &&& 0xFF#32 := by rw [BitVec.and_or_distrib_left, h, BitVec.zero_or]
  have hnat : x.toNat = x.toNat % 256 := (congrArg BitVec.toNat hsplit).trans (toNat_and_lowByte x)
  apply BitVec.eq_of_toNat_eq
  rw [BitVec.toNat_setWidth, BitVec.toNat_setWidth]
  omega

/-- Every row of R102 builds an operation that encodes to the word it was read from. -/
theorem commandRow_encodes : ∀ r ∈ commandRows, ∀ x : BitVec 32, x &&& r.zeroArg = 0#32 →
    encodeCommand (r.build x) = r.op ++ x := by
  have plain : ∀ (o : Byte) (i : Instr), encodeCommand i = o ++ 0#32 → ∀ x : BitVec 32, x &&& noOperand = 0#32 →
      encodeCommand i = o ++ x := fun o i hi x hx => by rw [eq_zero_of_and_noOperand hx, hi]
  simp only [commandRows, List.forall_mem_cons, List.not_mem_nil]
  refine ⟨plain _ _ rfl, plain _ _ rfl, fun _ _ => rfl, plain _ _ rfl, ?_, plain _ _ rfl, plain _ _ rfl, plain _ _ rfl,
    plain _ _ rfl, fun _ _ => rfl, plain _ _ rfl, plain _ _ rfl, nofun⟩
  intro x hx
  show (0x05#8 ++ (x.setWidth 8).setWidth 32 : CmdWord) = _
  rw [setWidth_setWidth_of_and hx]

/-- One command word stands for an operation (R101, R102). -/
theorem encodeCommand_of_decodeCommand {w : CmdWord} {i : Instr} (h : decodeCommand w = .ok i) :
    encodeCommand i = w := by
  unfold decodeCommand at h
  split at h
  · cases h
  · rename_i r hr
    split_ifs at h with hzero
    cases h
    have hop : r.op = opField w := by simpa using List.find?_some hr
    rw [commandRow_encodes r (List.mem_of_find?_eq_some hr) _ hzero, hop, commandWord_fields]

/-- An operation that is issued is issued by a command word. -/
theorem Issued.command {s : State} {i : Instr} (h : Issued s i) (hi : i.isOperation = true) :
    ∃ w rest, s.upos = .idle ∧ s.io.requests = .command w :: rest ∧ decodeCommand w = .ok i := by
  obtain ⟨hu, r, rest, hreq, hd⟩ := h
  cases r with
  | command w => exact ⟨w, rest, hu, hreq, hd⟩
  | frame bs => exact absurd hi (by rw [decodeFrame_not_operation hd]; exact Bool.false_ne_true)

/-- That command word is the operation's own. -/
theorem Issued.word {s : State} {i : Instr} (h : Issued s i) (hi : i.isOperation = true) :
    ∃ rest, s.upos = .idle ∧ s.io.requests = .command (encodeCommand i) :: rest := by
  obtain ⟨w, rest, hu, hreq, hd⟩ := h.command hi
  exact ⟨rest, hu, encodeCommand_of_decodeCommand hd ▸ hreq⟩

/-! ### The rules of the whole machine -/

/-- Settles O22: of the ways a step can end, only those of `advance` and `seq_load` move the sequencer. -/
theorem sequencerWrittenOnlyByItsOps : Obligations.SequencerWrittenOnlyByItsOps := by
  intro s t h hne
  rcases step_ended h with hended | ⟨-, hpoll⟩
  · obtain hseq | hadv | ⟨id, hload⟩ := hended.seq
    · exact absurd hseq hne
    · obtain ⟨w, rest, hu, hreq, hd⟩ := hadv.command rfl
      exact ⟨w, rest, hu, hreq, .inl hd⟩
    · obtain ⟨w, rest, hu, hreq, hd⟩ := hload.command rfl
      exact ⟨w, rest, hu, hreq, .inr ⟨id, hd⟩⟩
  · exact absurd hpoll.seq hne

/-- Settles O57: outside `configure` only `reset` writes `cfg_ok`, and `configure` writes it at its two ends. -/
theorem cfgOkDiscipline : Obligations.CfgOkDiscipline := by
  intro s t h hne
  rcases step_ended h with hended | ⟨hconfigure, hpoll⟩
  · obtain hcfg | ⟨hreset, hcfg⟩ := hended.cfgOk
    · exact absurd hcfg hne
    · exact .inr (.inl ⟨hcfg, hreset.word rfl⟩)
  · have hissued := hconfigure.imp_right fun hi => hi.word rfl
    obtain ⟨-, hcfg⟩ | ⟨hu, hcfg, hbs⟩ | ⟨hu, hcfg, hresp⟩ := hpoll.ends
    · exact absurd hcfg hne
    · exact .inl ⟨hcfg, hu, hbs, hissued⟩
    · exact .inr (.inr ⟨hcfg, hu, hresp, hissued⟩)

/-- A step leaves the line at rest, wherever it ends (spec/40_transport_primitives.md R125). -/
theorem step_line {s t : State} (h : step s = .next t) (hl : s.line = Line.quiet) : t.line = Line.quiet := by
  rcases step_ended h with hended | ⟨-, hpoll⟩
  · exact hended.line hl
  · exact hpoll.line hl

/-- A step ends with the block idle, or with `configure` at its poll (R25, log 11). -/
theorem step_upos {s t : State} (h : step s = .next t) :
    t.upos = .idle ∨ t.upos = .running .configure (pollPosition t.params) := by
  rw [parametersNeverWritten s t h]
  rcases step_ended h with hended | ⟨-, hpoll⟩
  · exact .inl hended.upos
  · obtain ⟨hu, -⟩ | ⟨hu, -⟩ | ⟨hu, -⟩ := hpoll.ends
    · exact .inr hu
    · exact .inl hu
    · exact .inl hu

/-- Settles O14, clause by clause: the line and the position by the ways a step can end, the rest because every elementary
update keeps it, the soft reset among them. -/
theorem stepKeepsInvariant : Obligations.StepKeepsInvariant := fun s t hinv h =>
  { params := parametersNeverWritten s t h ▸ hinv.params
    line := step_line h hinv.line
    upos := step_upos h
    regs := step_stable stable_regs (fun u _ => regsAgree_softReset u) hinv.regs h
    pin := step_stable stable_pin (fun u _ => pinAgrees_softReset u) hinv.pin h
    fifo := step_stable stable_fifo (fun u _ => fifoAgrees_softReset u) hinv.fifo h
    faults := step_stable stable_faults (fun _ hs => hs) hinv.faults h }

end Sys2Proof.Machine

/-! # The registers, the identifier, the FIFO and the reception

What the operations make of the chip's memory (spec/20_memory.md): the reactions to the strobes (R81), the registers and
their writes (R70), the identifier bytes (R87), the FIFO (R84, R86), and the receive cycle made of them. -/

namespace Sys2Proof.Machine

open Sys2Proof.Safety

/-- Settles O29: each transaction checks its operand before it begins. -/
theorem transactionStops : Obligations.TransactionStops := by
  intro s
  refine ⟨fun a v ha => ?_, fun a ha => ⟨?_, ?_, ?_⟩, fun a vs hvs ha => ?_, fun a => ?_, fun b hb => ?_⟩
  · simp [exec, execWreg, ha]
  · simp [exec, execRreg, ha]
  · simp [exec, execRburst4, ha]
  · simp [exec, execRburst21, ha]
  · simp [exec, execWburst, hvs, ha]
  · simp [exec, execWburst]
  · simp [exec, execStrobe, hb]

/-! ### The reactions to the three strobes -/

theorem applyStrobe_strobeStandby {p : ChipParams} {s : State} (hp : s.params = p) :
    applyStrobe p.strobeStandby s = strobeStandby s := by
  rw [applyStrobe, hp, if_pos rfl]

theorem applyStrobe_strobeRstRdptr {p : ChipParams} (hw : p.wf = true) {s : State} (hp : s.params = p) :
    applyStrobe p.strobeRstRdptr s = strobeRstRdptr s := by
  obtain ⟨hne, -, -⟩ := strobes_ne hw
  rw [applyStrobe, hp, if_neg hne.symm, if_pos rfl]

theorem applyStrobe_strobeRx {p : ChipParams} (hw : p.wf = true) {s : State} (hp : s.params = p) :
    applyStrobe p.strobeRx s = strobeRx s := by
  obtain ⟨-, hne, hne'⟩ := strobes_ne hw
  rw [applyStrobe, hp, if_neg hne.symm, if_neg hne'.symm, if_pos rfl]

theorem armable_of_mem {m : Mode} (h : m ∈ [Mode.standby, .filled, .receiving]) : Mode.armable m = true := by
  cases m <;> simp at h <;> rfl

theorem not_armable_of_mem {m : Mode} (h : m ∈ [Mode.idle, .calibrating]) : Mode.armable m = false := by
  cases m <;> simp at h <;> rfl

/-- The state at the exchange of a strobe byte, the peer having kept still. -/
def atStrobe (b : Byte) (s : State) : State := quietly [.csAssert, .xchg b none] s

/-- On a peer that keeps still, a strobe is its reaction and nothing else. -/
theorem strobeTx_still {s : State} (h : Quiet 3 s) {b : Byte} {reaction : State → State}
    (hr : ∀ u : State, u.params = s.params → applyStrobe b u = reaction u) :
    (strobeTx b id s).peer = (reaction (atStrobe b s)).peer ∧
      (strobeTx b id s).faults = (reaction (atStrobe b s)).faults := by
  rw [strobeTx_quiet h (last := id) (fun _ => rfl), ← hr (atStrobe b s) rfl]
  exact ⟨rfl, rfl⟩

theorem exec_strobe {s : State} {b : Byte} (h : s.params.isStrobe b = true) :
    exec (.strobe b) s = .next (strobeTx b id s) := if_pos h

/-- The three strobes are strobes of the block (spec/40_transport_primitives.md R130). -/
theorem isStrobe_of_mem {p : ChipParams} {b : Byte} (h : b ∈ [p.strobeStandby, p.strobeRstRdptr, p.strobeRx]) :
    p.isStrobe b = true := by
  simp only [List.mem_cons, List.not_mem_nil, or_false] at h
  rcases h with rfl | rfl | rfl <;> simp [ChipParams.isStrobe]

/-- Settles O24: on a peer that keeps still a strobe is its reaction, which R81 gives case by case. -/
theorem strobeReactions : Obligations.StrobeReactions := by
  intro s hw hq
  have hstrobe : ∀ b ∈ [s.params.strobeStandby, s.params.strobeRstRdptr, s.params.strobeRx],
      exec (.strobe b) s = .next (strobeTx b id s) := fun b hb => exec_strobe (isStrobe_of_mem hb)
  refine ⟨⟨_, hstrobe _ (by simp), ?_⟩, ⟨_, hstrobe _ (by simp), ?_⟩, ⟨_, hstrobe _ (by simp), ?_⟩⟩
  · obtain ⟨hpeer, hfaults⟩ := strobeTx_still hq fun _ => applyStrobe_strobeStandby
    rw [hpeer, hfaults]
    refine ⟨rfl, fun hm => ?_, fun _ => rfl⟩
    simp [strobeStandby, Peer.enter, atStrobe, hm]
  · obtain ⟨hpeer, hfaults⟩ := strobeTx_still hq fun _ => applyStrobe_strobeRstRdptr hw
    rw [hpeer, hfaults]
    exact ⟨rfl, rfl⟩
  · obtain ⟨hpeer, hfaults⟩ := strobeTx_still hq fun _ => applyStrobe_strobeRx hw
    rw [hpeer, hfaults]
    refine ⟨fun hc hm => ?_, fun hc hm => ?_, fun hm => ?_, fun b hb => armedChan_of_chan hb⟩
    · simp [strobeRx, raiseIf, callOrderBroken, Peer.enter, atStrobe, hc, armable_of_mem hm]
    · simp [strobeRx, raiseIf, callOrderBroken, Peer.enter, atStrobe, hc, armable_of_mem hm]
    · simp [strobeRx, raiseIf, callOrderBroken, Peer.enter, atStrobe, not_armable_of_mem hm]

/-! ### Writing twice (spec/20_memory.md R70) -/

/-- After a list of writes a register holds the byte of its last write in the list, and else what it held before. -/
theorem read_applyWrites (ws : List (RegAddr × Byte)) (b : Nat) : ∀ m : Memory, (applyWrites ws m).read b =
    (((ws.filter fun w => w.1.toNat = b).getLast?).map Prod.snd).or (m.read b) := by
  induction ws with
  | nil => intro m; rfl
  | cons w ws ih =>
    intro m
    have hcons : applyWrites (w :: ws) m = applyWrites ws (m.write w.1.toNat w.2) := rfl
    rw [hcons, ih, Memory.read_write]
    by_cases hw : w.1.toNat = b
    · simp [hw, List.getLast?_cons]
    · simp [hw, Ne.symm hw]

/-- A list of writes carried out twice leaves the registers as carried out once. -/
theorem read_applyWrites_twice (ws : List (RegAddr × Byte)) (m : Memory) (b : Nat) :
    (applyWrites ws (applyWrites ws m)).read b = (applyWrites ws m).read b := by
  rw [read_applyWrites ws b (applyWrites ws m), read_applyWrites ws b m, ← Option.or_assoc, Option.or_self]

/-- A single write, where it does not stop, is a list of one. -/
theorem exec_wreg_reg {s t : State} {a : RegAddr} {v : Byte} (h : exec (.wreg a v) s = .next t) :
    t.peer.reg = applyWrites [(a, v)] s.peer.reg := by
  simp only [exec, execWreg] at h
  split_ifs at h
  cases h
  exact wreg_reg a v s

/-- The turn of the poll loop with which `configure` returns: a property of the state at the first poll that every turn
that waits keeps still holds at it (spec/41_radio_driver.md R153). -/
theorem lastPoll {P : State → Prop} (keep : ∀ u, P u → (configurePoll u).upos ≠ .idle → P (configurePoll u))
    {s t : State} (h : Performed .configure s t) (hs : P (atPoll s)) : ∃ u, P u ∧ Polling u ∧ t = configurePoll u := by
  obtain ⟨n, v, hv, hn, hrun, ht⟩ := h
  have hturn : ∃ u, P u ∧ Polling u ∧ v = configurePoll u :=
    ⟨atPoll s, hs, atPoll_polling s, (Host.Outcome.next.inj hv).symm⟩
  clear hv
  induction n generalizing v with
  | zero => exact reaches_zero.1 hn ▸ hturn
  | succ n ih =>
    obtain ⟨w, hw, hn⟩ := reaches_succ.1 hn
    have hbusy : v.upos ≠ .idle := hrun 0 (Nat.succ_pos n) v (reaches_zero.2 rfl)
    obtain ⟨hpoll, rfl⟩ := step_running hbusy hw
    obtain ⟨u, hu, -, rfl⟩ := hturn
    exact ih _ hn (fun m hm x hx => hrun (m + 1) (Nat.succ_lt_succ hm) x (reaches_succ.2 ⟨_, hw, hx⟩))
      ⟨_, keep u hu hbusy, hpoll, rfl⟩

/-- `configure` writes its table, the trigger's registers and the two trims, in this order (R152, R153). -/
def configureWrites (p : ChipParams) : List (RegAddr × Byte) := headWrites p ++ [p.trim1, p.trim2]

/-- A turn of the poll loop leaves the registers as they are where it waits, and writes the trims where it succeeds; what
it leaves where it is stuck is not said. -/
theorem configurePoll_registers {u : State} (hw : u.params.wf = true) :
    ((configurePoll u).upos = u.upos ∧ (configurePoll u).peer.reg = u.peer.reg) ∨
      ((configurePoll u).upos = .idle ∧
        (configurePoll u).peer.reg = applyWrites [u.params.trim1, u.params.trim2] u.peer.reg) ∨
      ((configurePoll u).upos = .idle ∧ (configurePoll u).io.responses.getLast? = some ⟨0x03#8, .empty⟩) := by
  have hread : (rregTx u.params.calPollReg u).2.params = u.params := rregTx_params _ u
  cases hbusy : pollBusy u.params (rregTx u.params.calPollReg u).1 with
  | false =>
    rw [configurePoll_done hbusy]
    obtain ⟨-, hreg, -⟩ := tail_facts (rregTx u.params.calPollReg u).2 (by rwa [hread])
    rw [hreg, hread, rreg_reg]
    exact .inr (.inl ⟨rfl, rfl⟩)
  | true =>
    cases hlimit : limitReached u.params (u.polls + 1) with
    | false =>
      rw [configurePoll_wait hbusy hlimit]
      exact .inl ⟨rfl, rreg_reg u.params.calPollReg u⟩
    | true =>
      rw [configurePoll_stuck hbusy hlimit]
      refine .inr (.inr ⟨rfl, ?_⟩)
      rw [failWith, finish_responses, List.getLast?_concat]
      rfl

/-- What `configure`, issued in `s`, has left in the registers at a poll. -/
def PollsAfter (s u : State) : Prop :=
  u.params = s.params ∧ u.peer.reg = applyWrites (headWrites s.params) s.peer.reg

theorem atPoll_pollsAfter (s : State) : PollsAfter s (atPoll s) := ⟨(atPoll_undisturbed s).params, atPoll_reg s⟩

theorem configurePoll_params {u : State} (hw : u.params.wf = true) : (configurePoll u).params = u.params :=
  (stable_params u.params).configurePoll u hw rfl

/-- A turn of the poll loop that waits writes no register. -/
theorem PollsAfter.waits {s u : State} (hw : s.params.wf = true) (h : PollsAfter s u)
    (hwaits : (configurePoll u).upos ≠ .idle) : PollsAfter s (configurePoll u) := by
  obtain ⟨hparams, hreg⟩ := h
  have hwu : u.params.wf = true := hparams ▸ hw
  refine ⟨(configurePoll_params hwu).trans hparams, ?_⟩
  obtain ⟨-, hsame⟩ | ⟨hidle, -⟩ | ⟨hidle, -⟩ := configurePoll_registers hwu
  · exact hsame.trans hreg
  · exact absurd hidle hwaits
  · exact absurd hidle hwaits

/-- A `configure` that has succeeded has written its registers, in order. -/
theorem configureDone_reg {s t : State} (hw : s.params.wf = true) (h : ConfigureDone s t) :
    t.params = s.params ∧ t.peer.reg = applyWrites (configureWrites s.params) s.peer.reg := by
  obtain ⟨hperf, bs, hlast⟩ := h
  obtain ⟨u, ⟨hparams, hreg⟩, hpoll, rfl⟩ := lastPoll (fun u => PollsAfter.waits hw) hperf (atPoll_pollsAfter s)
  obtain ⟨-, -, -, -, -, hidle⟩ := hperf
  have hwu : u.params.wf = true := hparams ▸ hw
  refine ⟨(configurePoll_params hwu).trans hparams, ?_⟩
  obtain ⟨hwaits, -⟩ | ⟨-, htrims⟩ | ⟨-, hstuck⟩ := configurePoll_registers hwu
  · rw [hwaits, hpoll] at hidle
    cases hidle
  · rw [htrims, hreg, hparams, configureWrites, applyWrites_append]
  · rw [hstuck] at hlast
    cases hlast

/-- Settles O37: a single write and a whole `configure` are both a list of register writes, and such a list is
idempotent. -/
theorem writesAreIdempotent : Obligations.WritesAreIdempotent := by
  refine ⟨fun s t u a v hst htu b => ?_, fun s t u hw hst htu b => ?_⟩
  · have ht : t.peer.reg = applyWrites [(a, v)] s.peer.reg := exec_wreg_reg hst
    have hu : u.peer.reg = applyWrites [(a, v)] t.peer.reg := exec_wreg_reg htu
    rw [hu, ht, read_applyWrites_twice]
  · obtain ⟨hparams, ht⟩ := configureDone_reg hw hst
    obtain ⟨-, hu⟩ := configureDone_reg (hparams ▸ hw) htu
    rw [hu, ht, hparams, read_applyWrites_twice]

/-! ### The identifier bytes (spec/20_memory.md R87) -/

/-- Between `s` and `t` no identifier byte was written, and the caller's queue and the parameters stand as they stood. -/
structure IdentityKept (s t : State) : Prop where
  params : t.params = s.params
  requests : t.io.requests = s.io.requests
  idb : t.peer.idb = s.peer.idb

theorem IdentityKept.refl (s : State) : IdentityKept s s := ⟨rfl, rfl, rfl⟩

theorem IdentityKept.trans {s t u : State} (h : IdentityKept s t) (k : IdentityKept t u) : IdentityKept s u where
  params := k.params.trans h.params
  requests := k.requests.trans h.requests
  idb := k.idb.trans h.idb

theorem Moved.identityKept {s t : State} {es : List Event} {n : Nat} (h : Moved s t es n)
    (hi : t.peer.idb = s.peer.idb) : IdentityKept s t :=
  ⟨h.params, h.requests, hi⟩

/-- What an operation does around its transactions touches no identifier byte. -/
theorem IdentityKept.finished {s t : State} (h : IdentityKept s t) (r : Response) : IdentityKept s (finish r t) :=
  ⟨h.params, h.requests, h.idb⟩

theorem IdentityKept.failed {s t : State} (h : IdentityKept s t) (f : FaultRecord) : IdentityKept s (failWith f t) :=
  ⟨h.params, h.requests, h.idb⟩

theorem begin_identityKept (op : OpName) (s : State) : IdentityKept s (begin op s) := ⟨rfl, rfl, rfl⟩

theorem raiseIf_identityKept (c : Bool) (f : FaultRecord) (s : State) : IdentityKept s (raiseIf c f s) :=
  ⟨rfl, rfl, rfl⟩

theorem gpio_identityKept (s : State) : IdentityKept s (gpioTx s).2 := ⟨rfl, rfl, by simp [gpioTx]⟩

theorem strobe_identityKept (b : Byte) (s : State) : IdentityKept s (strobeTx b id s) :=
  (strobe_moved b s).identityKept (strobe_idb b s)

theorem wreg_identityKept (a : RegAddr) (v : Byte) (s : State) : IdentityKept s (wregTx a v id s) :=
  (wreg_moved a v s).identityKept (by simp [wreg_peer, upWrite])

theorem rreg_identityKept (a : RegAddr) (s : State) : IdentityKept s (rregTx a s).2 :=
  (rreg_moved a s).identityKept (by simp [rreg_peer, upRead])

theorem rburst_identityKept (answer : Nat → State → Byte) (a : RegAddr) (n : Nat) (s : State) :
    IdentityKept s (rburstTx answer a n s).2 :=
  (rburst_moved a n s).identityKept (by simp [rburst_peer, upRead])

/-- A burst write elsewhere than on `ID_REG`. -/
theorem wburst_identityKept {a : RegAddr} {s : State} (h : a ≠ s.params.idReg) (vs : List Byte) :
    IdentityKept s (wburstTx a vs id s) := by
  refine (wburst_moved a vs s).identityKept ?_
  obtain ⟨hidb, -⟩ := upBurst_other h vs 0 (drift (3 + vs.length) s).peer
  rw [wburst_peer, hidb, drift_idb]

/-- A write-kind transaction that is no burst on `ID_REG`, its last effect leaving the identifier bytes alone. -/
theorem performTx_idb {t : WriteTx} {last : State → State} (hl : ∀ u, (last u).peer.idb = u.peer.idb) {s : State}
    (ht : ∀ vs, t ≠ .wburst s.params.idReg vs) : (performTx t last s).peer.idb = s.peer.idb := by
  cases t with
  | strobe b => simp [performTx, strobeTx_passing, hl, applyStrobe_idb]
  | wreg a v => simp [performTx, wregTx, emit_passing, send_passing, hl]
  | wburst a vs =>
    have ha : a ≠ s.params.idReg := fun h => ht vs (h ▸ rfl)
    simp only [performTx, wburstTx, emit_passing, send_passing, sendBytes_passing, advanceUpos_peer, passing_peer,
      drift_idb, hl]
    exact (upBurst_other ha vs 0 _).1.trans (by simp)

/-- A sequence without a burst on `ID_REG`. -/
theorem performAll_idb (ts : List WriteTx) {last : State → State} (hl : ∀ u, (last u).peer.idb = u.peer.idb) :
    ∀ s : State, (∀ vs, .wburst s.params.idReg vs ∉ ts) → (performAll ts last s).peer.idb = s.peer.idb := by
  induction ts with
  | nil => intro s _; rfl
  | cons t ts ih =>
    intro s hts
    have ht : ∀ vs, t ≠ .wburst s.params.idReg vs := fun vs e => hts vs (e ▸ List.mem_cons_self)
    cases ts with
    | nil => exact performTx_idb hl ht
    | cons u us =>
      have hp : (performTx t id s).params = s.params := (tx_moved t s).params
      rw [performAll, ih _ fun vs hm => hts vs (List.mem_cons_of_mem _ (hp ▸ hm)),
        performTx_idb (last := id) (fun _ => rfl) ht]

theorem table_identityKept (es : List (RegAddr × Option Byte)) : ∀ s : State, IdentityKept s (configureTable es s) := by
  induction es with
  | nil => exact IdentityKept.refl
  | cons e es ih =>
    intro s
    rcases e with ⟨a, _ | v⟩
    · exact .trans (t := advanceUpos s) ⟨rfl, rfl, rfl⟩ (ih _)
    · exact (wreg_identityKept a v s).trans (ih _)

theorem status_identityKept (rs : List RegAddr) : ∀ s : State, IdentityKept s (readStatus rs s).2 := by
  induction rs with
  | nil => exact IdentityKept.refl
  | cons a rs ih => exact fun s => (rreg_identityKept a s).trans (ih _)

/-- `configure` up to its first poll, its trigger holding no burst on `ID_REG`. -/
theorem atPoll_identityKept {s : State} (h : ∀ vs, .wburst s.params.idReg vs ∉ s.params.calTriggerSeq) :
    IdentityKept s (atPoll s) := by
  have hmoved := head_moved s
  refine ⟨hmoved.params, hmoved.requests, ?_⟩
  have hstart := ((begin_identityKept .configure s).trans (table_identityKept s.params.regTable _)).trans
    (strobe_identityKept (configureTable s.params.regTable (begin .configure s)).params.strobeStandby _)
  show (performAll _ startCalibration _).peer.idb = _
  rw [performAll_idb (last := startCalibration) _ (fun _ => rfl), hstart.idb]
  rw [hstart.params, table_moved _ _ |>.params]
  exact h

/-- `configure` after its last poll. -/
theorem tail_identityKept (s : State) : IdentityKept s (configureTail s) :=
  have h := (((status_identityKept s.params.calStatusRegs s).trans (wreg_identityKept _ _ _)).trans
    (wreg_identityKept _ _ _)).trans (strobe_identityKept _ _)
  ⟨h.params, h.requests, h.idb⟩

/-- A turn of the poll loop. -/
theorem configurePoll_identityKept (s : State) : IdentityKept s (configurePoll s) := by
  have hr := rreg_identityKept s.params.calPollReg s
  simp only [configurePoll]
  split_ifs
  · exact ⟨hr.params, hr.requests, hr.idb⟩
  · exact ⟨hr.params, hr.requests, hr.idb⟩
  · exact hr.trans (tail_identityKept _)

/-- The instructions that can write an identifier byte (R87, R88, R155). -/
def WritesIdentity (p : ChipParams) (i : Instr) : Prop :=
  (∃ id, i = .setIdentity id) ∨ i = .reset ∨ (∃ vs, i = .wburst p.idReg vs) ∨
    (i = .configure ∧ ∃ vs, WriteTx.wburst p.idReg vs ∈ p.calTriggerSeq)

/-- An access standing alone that does not stop at its address (log 35). -/
theorem next_of_address {c : Prop} [Decidable c] {u t : State} {stop : Fault}
    (h : (if c then .next u else .fault stop : Host.Outcome State Fault Refusal) = .next t) : u = t := by
  split_ifs at h
  exact Host.Outcome.next.inj h

/-- Every other instruction leaves the identifier bytes alone. -/
theorem exec_identityKept {i : Instr} {s t : State} (hi : ¬WritesIdentity s.params i) (h : exec i s = .next t) :
    IdentityKept s t := by
  cases i with
  | reset => exact absurd (.inr (.inl rfl)) hi
  | configure =>
    cases h
    have htrigger : ∀ vs, .wburst s.params.idReg vs ∉ s.params.calTriggerSeq := fun vs hvs =>
      hi (.inr (.inr (.inr ⟨rfl, vs, hvs⟩)))
    exact (atPoll_identityKept htrigger).trans (configurePoll_identityKept _)
  | setIdentity ident => exact absurd (.inl ⟨ident, rfl⟩) hi
  | getIdentity =>
    cases h
    exact ((begin_identityKept _ s).trans (rburst_identityKept _ _ _ _)).finished _
  | tune channel =>
    cases h
    exact (((((begin_identityKept _ s).trans (strobe_identityKept _ _)).trans (strobe_identityKept _ _)).trans
      (wreg_identityKept _ _ _)).trans (strobe_identityKept _ _)).finished _
  | rearm =>
    cases h
    exact (((begin_identityKept _ s).trans (strobe_identityKept _ _)).trans (strobe_identityKept _ _)).finished _
  | pollReady =>
    cases h
    exact ((begin_identityKept _ s).trans (gpio_identityKept _)).finished _
  | crcFailed =>
    cases h
    exact ((begin_identityKept _ s).trans (rreg_identityKept _ _)).finished _
  | readFrame =>
    cases h
    exact (((begin_identityKept _ s).trans (raiseIf_identityKept _ _ _)).trans (rburst_identityKept _ _ _ _)).finished _
  | seqLoad id =>
    cases h
    exact ⟨rfl, rfl, rfl⟩
  | seqChannel =>
    simp only [exec, execSeqChannel, Host.Outcome.next.injEq] at h
    subst h
    split_ifs
    · exact (begin_identityKept _ s).failed _
    · exact (begin_identityKept _ s).finished _
  | advance =>
    simp only [exec, execAdvance, Host.Outcome.next.injEq] at h
    subst h
    split_ifs
    · exact (begin_identityKept _ s).failed _
    · exact ⟨rfl, rfl, rfl⟩
  | strobe b =>
    simp only [exec, execStrobe] at h
    split_ifs at h
    cases h
    exact strobe_identityKept b s
  | wreg a v => exact next_of_address h ▸ wreg_identityKept a v s
  | rreg a => exact next_of_address h ▸ rreg_identityKept a s
  | wburst a vs =>
    have ha : a ≠ s.params.idReg := fun e => hi (.inr (.inr (.inl ⟨vs, e ▸ rfl⟩)))
    simp only [exec, execWburst] at h
    split_ifs at h
    cases h
    exact wburst_identityKept ha vs
  | rburst4 a => exact next_of_address h ▸ rburst_identityKept _ a _ s
  | rburst21 a => exact next_of_address h ▸ rburst_identityKept _ a _ s

/-- Settles O40: an instruction of another kind keeps the identifier bytes. -/
theorem identifierWrittenOnlyBy : Obligations.IdentifierWrittenOnlyBy := by
  intro i s t h hne
  by_contra hi
  exact hne (exec_identityKept hi h).idb

/-! ### The identifier round trip, over steps -/

/-- The command word of an operation decodes to it (spec/30_encoding.md R102). -/
theorem decodeCommand_encodeCommand {i : Instr} (h : i.isOperation = true) : decodeCommand (encodeCommand i) = .ok i := by
  unfold decodeCommand encodeCommand
  rw [opField_commandWord, argField_commandWord]
  cases i with
  | tune channel =>
    have hzero : channel.setWidth 32 = 0#24 ++ channel := BitVec.setWidth_eq_append (by decide)
    have hmask : channel.setWidth 32 &&& 0xFFFFFF00#32 = 0#32 := by
      rw [hzero, show 0xFFFFFF00#32 = 0xFFFFFF#24 ++ 0#8 from rfl, BitVec.and_append, BitVec.zero_and, BitVec.and_zero]
      rfl
    simp [opCode, argOf, commandRows, hmask]
  | setIdentity ident => simp [opCode, argOf, commandRows]
  | seqLoad ident => simp [opCode, argOf, commandRows]
  | reset | configure | getIdentity | rearm | pollReady | crcFailed | readFrame | seqChannel | advance => rfl
  | strobe | wreg | rreg | wburst | rburst4 | rburst21 => cases h

/-- An operation at the head of the caller's queue runs in the next step, after one place of the peer. -/
theorem step_operation {s : State} {i : Instr} {rest : List Request} (hw : s.params.wf = true) (hu : s.upos = .idle)
    (hi : i.isOperation = true) (hreq : s.io.requests = encode s.params i :: rest) :
    step s = exec i (afterFetch s) := by
  simp [step, hw, hu, idleStep, nextRequest, hreq, encode, hi, serve, decodeCommand_encodeCommand hi]

/-- With nothing to issue a step is one place of the peer. -/
theorem step_waiting {s t : State} (hu : s.upos = .idle) (hreq : s.io.requests = []) (h : step s = .next t) :
    t = peerTurn s := by
  unfold step at h
  split_ifs at h
  simpa [hu, idleStep, nextRequest, hreq, eq_comm] using h

/-- The caller's queue after its head is taken. -/
theorem afterFetch_requests (s : State) : (afterFetch s).io.requests = s.io.requests.tail := rfl

/-- No identifier byte moves while the caller waits. -/
theorem afterFetch_idb (s : State) : (afterFetch s).peer.idb = s.peer.idb := Peer.move_idb ..

/-- A burst write of four bytes on `ID_REG` sets the identifier bytes to them. -/
theorem wburst_idb {s : State} {vs : List Byte} (h : vs.length = idBytes) :
    (wburstTx s.params.idReg vs id s).peer.idb.toList = vs := by
  obtain ⟨-, hidb⟩ := upBurst_id (p := s.params) vs 0 (drift (3 + vs.length) s).peer
  rw [wburst_peer]
  refine List.ext_getElem (by simp [h]) fun k hk hk' => ?_
  have hbyte := hidb ⟨k, by rwa [← show vs.length = 4 from h]⟩
  simpa [hk'] using hbyte

/-- A burst read of four bytes on `ID_REG` answers the identifier bytes. -/
theorem rburst_idb (s : State) :
    (rburstTx (answerBurst s.params.idReg) s.params.idReg idBytes s).1 = s.peer.idb.toList := by
  rw [← rburst_id s idBytes le_rfl, List.take_of_length_le (rburstTx_length _ _ _).le]

/-- `set_identity` leaves the identifier it was given (R155). -/
theorem execSetIdentity_keeps {s t : State} {ident : Ident} (h : exec (.setIdentity ident) s = .next t) :
    t.params = s.params ∧ t.io.requests = s.io.requests ∧ t.peer.idb.toList = identBytes ident := by
  cases h
  have hm := wburst_moved s.params.idReg (identBytes ident) (begin .setIdentity s)
  exact ⟨hm.params, hm.requests, wburst_idb (s := begin .setIdentity s) rfl⟩

/-- `get_identity` answers the identifier the chip holds (R156). -/
theorem execGetIdentity_answers {s t : State} {ident : Ident} (h : exec .getIdentity s = .next t)
    (hid : s.peer.idb.toList = identBytes ident) :
    t.upos = .idle ∧ t.io.requests = s.io.requests ∧ t.io.responses.getLast? = some ⟨0x00#8, .word ident⟩ := by
  cases h
  have hm := rburst_moved (ans := answerBurst s.params.idReg) s.params.idReg idBytes (begin .getIdentity s)
  have hbytes : (rburstTx (answerBurst s.params.idReg) s.params.idReg idBytes (begin .getIdentity s)).1 =
      identBytes ident := (rburst_idb (begin .getIdentity s)).trans hid
  refine ⟨rfl, hm.requests, ?_⟩
  rw [finish_responses, List.getLast?_concat, hbytes, identOfBytes_identBytes]
  rfl

/-- An operation a round trip of the identifier may hold in its middle. -/
def LeavesIdentity (i : Instr) : Prop := i.isOperation = true ∧ i ≠ .reset ∧ ∀ jd, i ≠ .setIdentity jd

theorem LeavesIdentity.not_writes {p : ChipParams} {i : Instr} (h : LeavesIdentity i)
    (htrigger : ∀ vs, WriteTx.wburst p.idReg vs ∉ p.calTriggerSeq) : ¬WritesIdentity p i := by
  obtain ⟨hop, hreset, hset⟩ := h
  rintro (⟨jd, rfl⟩ | rfl | ⟨vs, rfl⟩ | ⟨-, vs, hvs⟩)
  · exact hset jd rfl
  · exact hreset rfl
  · cases hop
  · exact htrigger vs hvs

/-- Where a round trip of `ident` on a chip with the record `p` stands between two steps: not begun, the identifier written
and the operations `ops` still to issue before it is read, or read. -/
inductive RoundTrip (p : ChipParams) (ident : Ident) (s : State) : Prop where
  | before (ops : List Instr) (hops : ∀ i ∈ ops, LeavesIdentity i) (hp : s.params = p) (hu : s.upos = .idle)
      (hreq : s.io.requests = (.setIdentity ident :: (ops ++ [.getIdentity])).map (encode p))
  | between (ops : List Instr) (hops : ∀ i ∈ ops, LeavesIdentity i) (hp : s.params = p)
      (hreq : s.io.requests = (ops ++ [Instr.getIdentity]).map (encode p)) (hid : s.peer.idb.toList = identBytes ident)
  | read (hu : s.upos = .idle) (hreq : s.io.requests = [])
      (hlast : s.io.responses.getLast? = some ⟨0x00#8, .word ident⟩)

section

variable {p : ChipParams} {ident : Ident} {s t : State}

/-- The step out of the middle of a round trip. -/
theorem RoundTrip.step_between (hw : p.wf = true) (htrigger : ∀ vs, WriteTx.wburst p.idReg vs ∉ p.calTriggerSeq)
    {ops : List Instr} (hops : ∀ i ∈ ops, LeavesIdentity i) (hp : s.params = p)
    (hreq : s.io.requests = (ops ++ [Instr.getIdentity]).map (encode p)) (hid : s.peer.idb.toList = identBytes ident)
    (h : step s = .next t) : RoundTrip p ident t := by
  subst hp
  by_cases hu : s.upos = .idle
  · cases ops with
    | nil =>
      rw [step_operation hw hu rfl hreq] at h
      obtain ⟨hidle, hrest, hlast⟩ := execGetIdentity_answers h (by rwa [afterFetch_idb])
      exact .read hidle (by rw [hrest, afterFetch_requests, hreq]; rfl) hlast
    | cons i ops =>
      have hi : LeavesIdentity i := hops i List.mem_cons_self
      rw [step_operation hw hu hi.1 hreq] at h
      have hkept := exec_identityKept (s := afterFetch s) (hi.not_writes htrigger) h
      exact .between ops (fun j hj => hops j (List.mem_cons_of_mem _ hj)) hkept.params
        (by rw [hkept.requests, afterFetch_requests, hreq]; rfl) (by rw [hkept.idb, afterFetch_idb, hid])
  · obtain ⟨-, rfl⟩ := step_running hu h
    have hkept := configurePoll_identityKept s
    exact .between ops hops hkept.params (hkept.requests.trans hreq) (by rw [hkept.idb, hid])

/-- A step leads from one stage of a round trip to a stage of it. -/
theorem RoundTrip.step (hw : p.wf = true) (htrigger : ∀ vs, WriteTx.wburst p.idReg vs ∉ p.calTriggerSeq)
    (hs : RoundTrip p ident s) (h : Machine.step s = .next t) : RoundTrip p ident t := by
  cases hs with
  | before ops hops hp hu hreq =>
    subst hp
    rw [step_operation hw hu rfl hreq] at h
    obtain ⟨hparams, hrest, hid⟩ := execSetIdentity_keeps h
    exact .between ops hops hparams (by rw [hrest, afterFetch_requests, hreq, List.map_cons, List.tail_cons]) hid
  | between ops hops hp hreq hid => exact step_between hw htrigger hops hp hreq hid h
  | read hu hreq hlast =>
    rw [step_waiting hu hreq h]
    exact .read hu hreq hlast

/-- A round trip with nothing left to issue has read the identifier. -/
theorem RoundTrip.answered (hs : RoundTrip p ident s) (hreq : s.io.requests = []) :
    s.io.responses.getLast? = some ⟨0x00#8, .word ident⟩ := by
  cases hs with
  | before ops _ _ _ hreq' => simp [hreq] at hreq'
  | between ops _ _ hreq' _ => simp [hreq] at hreq'
  | read _ _ hlast => exact hlast

end

/-- Settles O41: every step of the run leads from one stage of the round trip to the next. -/
theorem identityRoundTrip : Obligations.IdentityRoundTrip := by
  intro s t ident ops n hw hu htrigger hops hreq hrun _ hdone
  have hstart : RoundTrip s.params ident s := .before ops hops rfl hu hreq
  exact (reaches_keeps (fun _ _ hs h => hs.step hw htrigger h) hstart hrun).answered hdone

/-! ### The FIFO over one step (spec/20_memory.md R84) -/

/-- A step of the peer that is no arrival leaves the FIFO alone. -/
theorem Peer.move_fifo {m : PeerMove} (h : ∀ f c, m ≠ .frameArrive f c) (x : Peer) (d : Bool) :
    (x.move m d).fifo = x.fifo := by
  cases m with
  | stay => rfl
  | calDone => simp only [Peer.move, Peer.calDone]; split_ifs <;> rfl
  | frameArrive f c => exact absurd rfl (h f c)

/-- A frame's arrival is chosen at one of the next `n` places of the peer. -/
def ArrivalWithin (n : Nat) (s : State) : Prop := ∃ k f c, k < n ∧ (drift k s).io.nextMove = .frameArrive f c

/-- `u` comes after `s` by some places of the peer, and holds another FIFO only where a frame arrived at one of them. -/
def FifoSince (s u : State) : Prop :=
  ∃ n, u.io.script = s.io.script.drop n ∧ u.io.tick = s.io.tick + n ∧
    (u.peer.fifo = s.peer.fifo ∨ ArrivalWithin n s)

/-- The peer's next choice looks at the script and at the place alone. -/
theorem nextMove_drift {s u : State} {n : Nat} (hscript : u.io.script = s.io.script.drop n)
    (htick : u.io.tick = s.io.tick + n) : u.io.nextMove = (drift n s).io.nextMove := by
  rw [Io.nextMove, Io.nextMove, drift_script, drift_tick, hscript, htick]

theorem ArrivalWithin.succ {n : Nat} {s : State} (h : ArrivalWithin n s) : ArrivalWithin (n + 1) s := by
  obtain ⟨k, f, c, hk, hmove⟩ := h
  exact ⟨k, f, c, Nat.lt_succ_of_lt hk, hmove⟩

/-- One place more. -/
theorem FifoSince.turn {s u : State} (h : FifoSince s u) : FifoSince s (peerTurn u) := by
  obtain ⟨n, hscript, htick, hfifo⟩ := h
  refine ⟨n + 1, by simp [hscript], by simp [htick, Nat.add_assoc], ?_⟩
  rcases hfifo with hfifo | harrival
  · by_cases hmove : ∃ f c, u.io.nextMove = .frameArrive f c
    · obtain ⟨f, c, hmove⟩ := hmove
      exact .inr ⟨n, f, c, Nat.lt_succ_self n, nextMove_drift hscript htick ▸ hmove⟩
    · have hother : ∀ f c, u.io.nextMove ≠ .frameArrive f c := fun f c e => hmove ⟨f, c, e⟩
      exact .inl ((Peer.move_fifo hother u.peer _).trans hfifo)
  · exact .inr harrival.succ

/-- No update but the peer's own step and the soft reset touches the FIFO. -/
theorem stable_fifoSince (s : State) : Stable (FifoSince s) where
  turn _ hs := hs.turn
  record _ _ hs := hs
  advance _ hs := hs
  standby _ hs := hs
  rstRdptr _ hs := hs
  rx _ hs := hs
  write _ _ _ _ hs := hs
  idb _ _ hs := hs
  calibrate _ hs := hs
  read _ _ hs := hs
  raise _ _ hs := hs
  seq _ _ hs := hs
  control _ _ _ hs := hs
  configured _ _ hs := hs
  caller _ _ _ hs := hs

/-- Every step but one of `reset` keeps a stable property. -/
theorem step_stable_of_not_reset {P : State → Prop} (h : Stable P) {s t : State} (hr : ¬Issued s .reset) (hs : P s)
    (ht : step s = .next t) : P t := by
  have hf : P (afterFetch s) := h.turn _ (h.caller s.io.requests.tail s.io.responses s hs)
  obtain ⟨hw, ⟨-, -, rfl⟩ | ⟨r, rs, i, hu, hreq, hd, he⟩ | ⟨w, rs, e, -, -, -, rfl⟩ | ⟨-, -, a, n, -, -, rfl⟩ |
    ⟨-, rfl⟩⟩ := step_cases ht
  · exact h.turn s hs
  · have hi : i ≠ .reset := fun e => hr ⟨hu, r, rs, hreq, e ▸ hd⟩
    exact exec_stable h (s := afterFetch s) (fun e => absurd e hi) hw hf he
  · exact h.failed _ _ hf
  · exact h.rburstTx a n _ hf
  · exact h.configurePoll s hw hs

/-- Settles O55: `FifoSince s` holds of `s` and is kept by every elementary update but the soft reset, which only `reset`
makes. -/
theorem fifoWrittenOnlyByFrames : Obligations.FifoWrittenOnlyByFrames := by
  intro s t h hne
  by_cases hr : Issued s .reset
  · obtain ⟨rest, hu, hreq⟩ := hr.word rfl
    exact .inl ⟨rest, hu, hreq⟩
  · have hstart : FifoSince s s := ⟨0, rfl, rfl, .inl rfl⟩
    obtain ⟨n, -, htick, hsame | ⟨k, f, c, hk, hmove⟩⟩ := step_stable_of_not_reset (stable_fifoSince s) hr hstart h
    · exact absurd hsame hne
    · exact .inr ⟨k, f, c, by omega, hmove⟩

/-! ### `tune` (spec/41_radio_driver.md R157) -/

/-- The state of `tune c`, issued in `s`, after the standby strobe. -/
def tuneStandby (s : State) : State := strobeTx s.params.strobeStandby id (begin .tune s)

/-- The state of `tune c`, issued in `s`, before the receive-arm strobe. -/
def beforeArm (c : Byte) (s : State) : State :=
  wregTx s.params.channelReg c id (strobeTx s.params.strobeRstRdptr id (tuneStandby s))

theorem exec_tune (c : Byte) (s : State) :
    exec (.tune c) s = .next (finish (success .empty) (strobeTx s.params.strobeRx id (beforeArm c s))) := rfl

/-- The first three transactions as the block sees them. -/
theorem beforeArm_moved (c : Byte) (s : State) : Moved (begin .tune s) (beforeArm c s)
    (strobeEvents s.params.strobeStandby ++ strobeEvents s.params.strobeRstRdptr ++
      wregEvents s.params s.params.channelReg c) 3 := by
  have h := (strobe_moved s.params.strobeStandby (begin .tune s)).trans
    (strobe_moved s.params.strobeRstRdptr (tuneStandby s))
  have hw := wreg_moved s.params.channelReg c (strobeTx s.params.strobeRstRdptr id (tuneStandby s))
  rw [h.params] at hw
  exact h.trans hw

section

variable {s : State} (c : Byte)

theorem beforeArm_params : (beforeArm c s).params = s.params := (beforeArm_moved c s).params

theorem tuneStandby_params : (tuneStandby s).params = s.params := strobeTx_id_params _ _

theorem beforeArm_reg : (beforeArm c s).peer.reg = s.peer.reg.write s.params.channelReg.toNat c := by
  rw [beforeArm, wreg_reg, strobe_reg, tuneStandby, strobe_reg, begin_peer]

theorem beforeArm_chan : (beforeArm c s).peer.chan s.params = some c := by
  rw [Peer.chan, beforeArm_reg, Memory.read_write_same]

theorem beforeArm_idb : (beforeArm c s).peer.idb = s.peer.idb := by
  simp [beforeArm, tuneStandby, wreg_peer, upWrite]

theorem beforeArm_cfgOk : (beforeArm c s).peer.cfgOk = s.peer.cfgOk := by
  simp [beforeArm, tuneStandby, wreg_peer, upWrite]

theorem beforeArm_script : (beforeArm c s).io.script = s.io.script.drop 10 := by
  simp [beforeArm, tuneStandby, wregTx_passing, onPeer, strobeTx_passing, keepsScript_strobe _ _, wregEvents]

variable (hw : s.params.wf = true)

include hw

theorem beforeArm_faults : (beforeArm c s).faults = s.faults := by
  obtain ⟨-, hne, hne'⟩ := strobes_ne hw
  rw [beforeArm, wreg_faults, (strobe_other _ _ (by rwa [tuneStandby_params])).1, tuneStandby,
    (strobe_other _ (begin .tune s) hne).1, begin_faults]

theorem beforeArm_rdptr : (beforeArm c s).peer.rdptr = 0 := by
  obtain ⟨hne, -, -⟩ := strobes_ne hw
  have hrst := rdptr_rst (tuneStandby s) (by rwa [tuneStandby_params])
  rw [tuneStandby_params] at hrst
  rw [beforeArm, wreg_peer]
  simpa [upWrite] using hrst

/-- A chip that does not calibrate is in `Standby` when it is armed. -/
theorem beforeArm_mode (hm : s.peer.mode ≠ .calibrating) : (beforeArm c s).peer.mode = .standby := by
  obtain ⟨hne, -, -⟩ := strobes_ne hw
  have hstandby : (tuneStandby s).peer.mode = .standby := standby_mode (s := begin .tune s) hm
  have hrst := rst_mode (tuneStandby s) (by rwa [tuneStandby_params])
  rw [tuneStandby_params, drift_standby 3 hstandby] at hrst
  rw [beforeArm, wreg_peer]
  exact drift_standby 4 hrst

end

/-- Settles O42: three transactions up to the receive-arm strobe, which then arms on the channel just written. -/
theorem tuneResult : Obligations.TuneResult := by
  intro s c hw hl
  obtain ⟨-, hne, hne'⟩ := strobes_ne hw
  have hp := beforeArm_params (s := s) c
  have hmoved := (beforeArm_moved c s).trans (strobe_moved s.params.strobeRx (beforeArm c s))
  refine ⟨_, exec_tune c s, returned_of hmoved hl _, ?_, ?_, ?_, fun b hb => ?_, ?_, ?_, ?_⟩
  · rw [finish_peer, strobe_rdptr, hp, if_neg fun h => hne' h.1.symm, beforeArm_rdptr c hw]
  · rw [finish_peer, Peer.chan, strobe_reg]
    exact beforeArm_chan c
  · rw [finish_peer, ← hp]
    exact strobeTx_rxChan _ (hp ▸ hne) (hp ▸ hne') (hp ▸ beforeArm_chan c)
  · rw [finish_peer, strobe_reg, beforeArm_reg, Memory.read_write_other _ _ hb]
  · rw [finish_peer, strobe_idb, beforeArm_idb]
  · rw [finish_peer, strobe_cfgOk, beforeArm_cfgOk]
  · have hupos : (beforeArm c s).upos.op? = some .tune := by rw [(beforeArm_moved c s).upos]; rfl
    rw [finish_faults, ← beforeArm_faults c hw]
    rcases strobe_faults s.params.strobeRx (beforeArm c s) with hsame | ⟨m, hadded⟩
    · rw [hsame]
      exact ⟨fun _ hf => hf, fun _ hf => .inl hf⟩
    · rw [hadded, hupos]
      refine ⟨fun f hf => mem_insertFault.2 (.inr hf), fun f hf => ?_⟩
      exact (mem_insertFault.1 hf).symm.imp_right fun e => ⟨m, e⟩

/-! ### `read_frame` in `Filled` (spec/41_radio_driver.md R161, spec/20_memory.md R86) -/

/-- The burst of 21 on `FIFO_REG`, answered by the peer. -/
def fifoBurst (s : State) : List Byte × State :=
  rburstTx (answerBurst s.params.fifoReg) s.params.fifoReg frameLen s

/-- `read_frame` whose obligation is met records nothing and answers the burst. -/
theorem exec_readFrame_filled {s : State} (hm : s.peer.mode = .filled) (hc : s.peer.crcf = false) :
    exec .readFrame s = .next
      (finish (success (.bytes (fifoBurst (begin .readFrame s)).1)) (fifoBurst (begin .readFrame s)).2) := by
  have hready : frameReady s.peer = true := by simp [frameReady, hm, hc]
  simp only [exec, execReadFrame, frameAnswer, hready, if_true, Bool.not_true]
  rfl

theorem fifoBurst_length (s : State) : (fifoBurst s).1.length = frameLen := rburstTx_length _ _ _

theorem fifoBurst_moved (s : State) :
    Moved s (fifoBurst s).2 (readEvents s.params s.params.fifoReg (fifoBurst s).1) 1 := rburst_moved _ _ s

theorem fifoBurst_rdptr (s : State) : (fifoBurst s).2.peer.rdptr = s.peer.rdptr + frameLen := by
  simp [fifoBurst, rburst_peer, upRead]

section

variable {s : State} (hw : s.params.wf = true) (hf : FifoAgrees s.peer) (hm : s.peer.mode = .filled)
  (hc : s.peer.crcf = false)

include hw hf hm hc

/-- In `Filled` with no CRC failure the burst's bytes are the FIFO's, as far as their positions lie below `filled_len`. -/
theorem fifoBurst_filled {i : Nat} (hi : i < frameLen) (hlt : s.peer.rdptr + i < s.peer.filledLen) :
    (fifoBurst s).1[i]? = s.peer.fifo[s.peer.rdptr + i]? := by
  obtain ⟨hne, -⟩ := roles_ne hw
  have hstill : (drift (4 + i) s).peer = s.peer := drift_still _ (by simp [hm]) (by simp [hm])
  have hget := List.getElem?_eq_getElem (hlt.trans_le hf.1)
  have hout := rburst_handsOut frameLen s hne.symm i (s.peer.fifo[s.peer.rdptr + i]'(hlt.trans_le hf.1))
  rw [hstill] at hout
  rw [hget]
  exact hout (by rwa [rburstTx_length]) hm hc hlt hget

/-- From read pointer 0 with a whole frame stored the burst's bytes are the frame (R63). -/
theorem fifoBurst_wholeFrame (h0 : s.peer.rdptr = 0) (hlen : s.peer.filledLen = frameLen) :
    (fifoBurst s).1 = s.peer.fifo.take frameLen := by
  refine List.ext_getElem? fun i => ?_
  by_cases hi : i < frameLen
  · rw [fifoBurst_filled hw hf hm hc hi (by omega), h0, Nat.zero_add, List.getElem?_take_of_lt hi]
  · rw [List.getElem?_eq_none (by rw [fifoBurst_length]; omega), List.getElem?_eq_none (by rw [List.length_take]; omega)]

end

/-- Settles O50: in `Filled` the peer does nothing of its own, so that every byte of the burst finds the FIFO as it was. -/
theorem readFrameReturnsFrame : Obligations.ReadFrameReturnsFrame := by
  intro s hw hf hm hc
  refine ⟨_, (fifoBurst (begin .readFrame s)).1, exec_readFrame_filled hm hc, ?_, fun i hi hlt => ?_, fun h0 hlen => ?_⟩
  · rw [finish_responses, (fifoBurst_moved (begin .readFrame s)).responses]
    rfl
  · exact fifoBurst_filled (s := begin .readFrame s) hw hf hm hc hi hlt
  · exact fifoBurst_wholeFrame (s := begin .readFrame s) hw hf hm hc h0 hlen

/-! ### The receive cycle (spec/60_exceptions.md R209)

Each operation of the cycle returns in its first step and records no fault. -/

/-- The operation `i`, issued in `s`, returns at once in `t` with the response `r`, and records no fault. -/
structure Answers (i : Instr) (s t : State) (r : Response) : Prop where
  run : exec i s = .next t
  upos : t.upos = .idle
  params : t.params = s.params
  faults : t.faults = s.faults
  responses : t.io.responses = s.io.responses ++ [r]

theorem Answers.performed {i : Instr} {s t : State} {r : Response} (h : Answers i s t r) : Performed i s t :=
  performed_one h.run h.upos

/-- An operation that is one stretch of transactions. -/
theorem Moved.answers {op : OpName} {i : Instr} {s t : State} {es : List Event} {n : Nat} {r : Response}
    (h : Moved (begin op s) t es n) (hrun : exec i s = .next (finish r t)) (hfaults : t.faults = s.faults) :
    Answers i s (finish r t) r where
  run := hrun
  upos := rfl
  params := h.params
  faults := hfaults
  responses := by rw [finish_responses, h.responses, begin_responses]

/-- `tune c` on a configured chip that does not calibrate, no frame arriving before its last event: the chip receives
(spec/41_radio_driver.md R163). -/
theorem tune_receives {s : State} (c : Byte) (hw : s.params.wf = true) (hc : s.peer.cfgOk = true)
    (hm : s.peer.mode ≠ .calibrating) (hstay : s.io.script[12]? = some .stay) :
    ∃ t, Answers (.tune c) s t ⟨0x00#8, .empty⟩ ∧ t.peer.mode = .receiving ∧ t.io.script = s.io.script.drop 13 := by
  have hp := beforeArm_params (s := s) c
  have harmable : Mode.armable (beforeArm c s).peer.mode = true := by rw [beforeArm_mode c hw hm]; rfl
  obtain ⟨hfaults, -, hmode⟩ := strobeRx_arms (beforeArm c s) (hp ▸ hw) ((beforeArm_cfgOk c).trans hc) harmable
  rw [hp] at hfaults hmode
  have hmoved := (beforeArm_moved c s).trans (strobe_moved s.params.strobeRx (beforeArm c s))
  refine ⟨_, hmoved.answers (exec_tune c s) (hfaults.trans (beforeArm_faults c hw)),
    hmode (by simpa [beforeArm_script] using hstay), ?_⟩
  have hscript := performTx_script (.strobe s.params.strobeRx) (last := id) (fun _ => rfl) (beforeArm c s)
  rw [beforeArm_script, List.drop_drop] at hscript
  exact hscript

/-- A chip with the record `p`, tuned to `ch`, holds the frame `f` with the CRC flag `c`, and nothing of it is read. -/
structure FrameStored (p : ChipParams) (ch : Byte) (f : Vector Byte 21) (c : Bool) (x : Peer) : Prop where
  mode : x.mode = .filled
  fifo : x.fifo.take frameLen = f.toList
  filledLen : x.filledLen = frameLen
  crcf : x.crcf = c
  rdptr : x.rdptr = 0
  chan : x.chan p = some ch
  rxChan : x.rxChan = ch
  cfgOk : x.cfgOk = true

/-- A frame arrives in a chip that receives on `ch` (spec/20_memory.md R84). -/
theorem frameArrive_stored {p : ChipParams} {ch : Byte} {x : Peer} (f : Vector Byte 21) (c : Bool)
    (hm : x.mode = .receiving) (hrdptr : x.rdptr = 0) (hchan : x.chan p = some ch) (hrx : x.rxChan = ch)
    (hcfg : x.cfgOk = true) : FrameStored p ch f c (x.frameArrive f c) := by
  rw [Peer.frameArrive, if_pos hm]
  exact ⟨rfl, List.take_left' f.length_toList, rfl, rfl, hrdptr, hchan, hrx, hcfg⟩

/-- `poll_ready` where a frame arrives at its place: the pin is up (spec/20_memory.md R85). -/
theorem pollReady_arrival {s : State} {f : Vector Byte 21} {c : Bool} (hm : s.peer.mode = .receiving)
    (hmove : s.io.nextMove = .frameArrive f c) :
    ∃ t, Answers .pollReady s t ⟨0x00#8, .bit true⟩ ∧ t.peer = s.peer.frameArrive f c := by
  have hpeer : (peerTurn (begin .pollReady s)).peer = s.peer.frameArrive f c := by
    rw [peerTurn_peer, show (begin .pollReady s).io = s.io from rfl, hmove]
    rfl
  have hpin : pinAnswer (peerTurn (begin .pollReady s)) = true := by
    rw [pinAnswer, hpeer]
    simp [Peer.frameArrive, hm]
  refine ⟨finish (success (.bit true)) (gpioTx (begin .pollReady s)).2, ⟨?_, rfl, rfl, rfl, rfl⟩, hpeer⟩
  rw [← hpin]
  rfl

/-- `crc_failed` in `Filled` answers the CRC flag and leaves the peer as it is (R86). -/
theorem crcFailed_filled {s : State} (hw : s.params.wf = true) (hm : s.peer.mode = .filled) :
    ∃ t, Answers .crcFailed s t ⟨0x00#8, .bit s.peer.crcf⟩ ∧ t.peer = s.peer := by
  have hstill : ∀ n, (drift n (begin .crcFailed s)).peer = s.peer := fun n =>
    drift_still (s := begin .crcFailed s) n (by simp [hm]) (by simp [hm])
  have hbit : crcTest s.params (rregTx s.params.statusReg (begin .crcFailed s)).1 = s.peer.crcf := by
    rw [rreg_val, answerSingle, if_pos ⟨rfl, by rw [atByte_peer, hstill, hm]⟩, atByte_peer, hstill]
    exact crcTest_statusAnswer _ _ _
  have hpeer : (rregTx s.params.statusReg (begin .crcFailed s)).2.peer = s.peer := by
    obtain ⟨-, -, -, -, hne, -⟩ := roles_ne hw
    rw [rreg_peer, hstill, upRead, begin_params, if_neg hne.symm]
  refine ⟨_, (rreg_moved s.params.statusReg (begin .crcFailed s)).answers ?_ (rreg_faults _ _), hpeer⟩
  rw [← hbit]
  rfl

/-- A good frame is read: `read_frame` answers it (R86, spec/41_radio_driver.md R161). -/
theorem FrameStored.readFrame {s : State} {ch : Byte} {f : Vector Byte 21} (h : FrameStored s.params ch f false s.peer)
    (hw : s.params.wf = true) :
    ∃ t, Answers .readFrame s t ⟨0x00#8, .bytes f.toList⟩ ∧ t.peer.rdptr = 21 := by
  have hlong : frameLen ≤ s.peer.fifo.length := by
    have hlen := congrArg List.length h.fifo
    rw [List.length_take, f.length_toList] at hlen
    exact min_eq_left_iff.1 hlen
  have hagrees : FifoAgrees s.peer := ⟨h.filledLen ▸ hlong, .inr h.filledLen⟩
  have hbytes : (fifoBurst (begin .readFrame s)).1 = f.toList :=
    (fifoBurst_wholeFrame (s := begin .readFrame s) hw hagrees h.mode h.crcf h.rdptr h.filledLen).trans h.fifo
  refine ⟨_, (fifoBurst_moved (begin .readFrame s)).answers ?_ (rburst_faults _ _ _), ?_⟩
  · rw [exec_readFrame_filled h.mode h.crcf, hbytes]
    rfl
  · rw [finish_peer, fifoBurst_rdptr, begin_peer, h.rdptr, Nat.zero_add]

/-- The state of `rearm`, issued in `s`, before its receive-arm strobe. -/
def beforeRearm (s : State) : State := strobeTx s.params.strobeRstRdptr id (begin .rearm s)

theorem beforeRearm_params (s : State) : (beforeRearm s).params = s.params := strobeTx_id_params _ _

/-- Over a stored frame `rearm` arms the receiver again, on the same channel (spec/41_radio_driver.md R158). -/
theorem FrameStored.rearm {s : State} {ch : Byte} {f : Vector Byte 21} {c : Bool}
    (h : FrameStored s.params ch f c s.peer) (hw : s.params.wf = true) :
    ∃ t, Answers .rearm s t ⟨0x00#8, .empty⟩ ∧ t.peer.rdptr = 0 ∧ t.peer.rxChan = ch ∧
      t.peer.mode ∈ [Mode.receiving, .filled] := by
  obtain ⟨hne, hne', hne''⟩ := strobes_ne hw
  have hp := beforeRearm_params s
  have hmode : (beforeRearm s).peer.mode = .filled :=
    (rst_mode (begin .rearm s) hne).trans
      (by rw [drift_still 3 (by simp [h.mode]) (by simp [h.mode]), begin_peer, h.mode])
  have hfaults : (beforeRearm s).faults = s.faults := (strobe_other _ (begin .rearm s) hne'').1
  have hchan' : (beforeRearm s).peer.chan s.params = some ch := by rw [Peer.chan, beforeRearm, strobe_reg]; exact h.chan
  obtain ⟨harmed, hends, -⟩ := strobeRx_arms (beforeRearm s) (hp ▸ hw) ((strobe_cfgOk _ _).trans h.cfgOk)
    (by rw [hmode]; rfl)
  have hlistens := strobeTx_rxChan (beforeRearm s) (hp ▸ hne') (hp ▸ hne'') (hp ▸ hchan')
  rw [hp] at harmed hends hlistens
  have hmoved := (strobe_moved s.params.strobeRstRdptr (begin .rearm s)).trans
    (strobe_moved s.params.strobeRx (beforeRearm s))
  refine ⟨_, hmoved.answers rfl (harmed.trans hfaults), ?_, hlistens, ?_⟩
  · rw [finish_peer, strobe_rdptr, hp, if_neg fun e => hne'' e.1.symm]
    exact rdptr_rst (begin .rearm s) hne
  · rw [List.mem_cons, List.mem_singleton]
    exact hends.imp And.left And.left

/-- Settles O52, operation by operation: the frame arrives at the place of `poll_ready`, and a peer in `Filled` then keeps
it until it is read or the receiver is armed again. -/
theorem receiveCycle : Obligations.ReceiveCycle := by
  intro s ch f c hw hl hcfg hm ⟨later, hscript⟩
  have hstay : s.io.script[12]? = some .stay := by rw [← hscript]; rfl
  have harrives : s.io.script.drop 13 = .frameArrive f c :: later := by rw [← hscript]; rfl
  obtain ⟨u, htune, hreceiving, hrest⟩ := tune_receives ch hw hcfg hm hstay
  obtain ⟨u', hrun, -, hrdptr, hchan, hrx, -, -, hcfg', -⟩ := tuneResult s ch hw hl
  obtain rfl : u' = u := Host.Outcome.next.inj (hrun.symm.trans htune.run)
  have hmove : u'.io.nextMove = .frameArrive f c := by rw [Io.nextMove, hrest, harrives]
  obtain ⟨v, hpoll, hpeer⟩ := pollReady_arrival hreceiving hmove
  have hv : FrameStored s.params ch f c v.peer :=
    hpeer ▸ frameArrive_stored f c hreceiving hrdptr hchan hrx (hcfg'.trans hcfg)
  have hvp : v.params = s.params := hpoll.params.trans htune.params
  obtain ⟨t, hcrc, hsame⟩ := crcFailed_filled (hvp ▸ hw) hv.mode
  have htp : t.params = s.params := hcrc.params.trans hvp
  have ht : FrameStored t.params ch f c t.peer := by rw [hsame, htp]; exact hv
  have hfaults : t.faults = s.faults := hcrc.faults.trans (hpoll.faults.trans htune.faults)
  refine ⟨t, ⟨u', htune.performed, v, hpoll.performed, t, hcrc.performed, rfl⟩, hfaults, ht.mode, ht.crcf, ht.rdptr,
    ht.rxChan, ?_, ?_, fun _ => ?_⟩
  · rw [hcrc.responses, hpoll.responses, htune.responses, hv.crcf, List.append_assoc, List.append_assoc]
    rfl
  · rintro rfl
    obtain ⟨w, hread, hend⟩ := ht.readFrame (htp ▸ hw)
    exact ⟨w, hread.performed, hread.faults.trans hfaults, hend, hread.responses⟩
  · obtain ⟨w, hrearm, hzero, hlistens, hmode⟩ := ht.rearm (htp ▸ hw)
    exact ⟨w, hrearm.performed, hrearm.faults.trans hfaults, hzero, hlistens, hmode, hrearm.responses⟩

end Sys2Proof.Machine

/-! # The encoding

The decoder and the encoder as inverses of each other (spec/30_encoding.md R101 to R107): command words by the rows of
R102, frames by the two command tables of the record. -/

namespace Sys2Proof

open ChipParams Safety

/-! ### Command words (R102) -/

/-- The code of a row of R102 finds that row, and no other. -/
theorem find_commandRows : ∀ r ∈ commandRows, (commandRows.find? fun q => q.op == r.op) = some r := by
  simp only [commandRows, List.forall_mem_cons]
  exact ⟨rfl, rfl, rfl, rfl, rfl, rfl, rfl, rfl, rfl, rfl, rfl, rfl, nofun⟩

/-- A word decodes exactly where its code is that of a row and its `arg` meets the row's mask. -/
theorem decodeCommand_ok_iff {w : CmdWord} {i : Instr} : decodeCommand w = .ok i ↔
    ∃ r ∈ commandRows, (opField w = r.op ∧ argField w &&& r.zeroArg = 0#32) ∧ i = r.build (argField w) := by
  unfold decodeCommand
  constructor
  · intro h
    split at h
    · cases h
    · rename_i r hr
      split_ifs at h with hzero
      cases h
      have hop : r.op = opField w := by simpa using List.find?_some hr
      exact ⟨r, List.mem_of_find?_eq_some hr, ⟨hop.symm, hzero⟩, rfl⟩
  · rintro ⟨r, hr, ⟨hop, hzero⟩, rfl⟩
    rw [hop, find_commandRows r hr]
    exact if_pos hzero

theorem decodeCommand_isOperation {w : CmdWord} {i : Instr} (h : decodeCommand w = .ok i) : i.isOperation = true := by
  obtain ⟨r, hr, -, rfl⟩ := decodeCommand_ok_iff.1 h
  have hrows : ∀ r ∈ commandRows, ∀ x, (r.build x).isOperation = true := by
    simp [commandRows, Instr.isOperation, Instr.opName?]
  exact hrows r hr _

/-- A row selects a word, as R102 says it with `mask` and `match`, where the code is the row's and the operand meets its
mask. -/
theorem and_mask_eq_pattern_iff {w : CmdWord} {r : CommandRow} :
    w &&& r.mask = r.pattern ↔ opField w = r.op ∧ argField w &&& r.zeroArg = 0#32 := by
  have hand : w &&& r.mask = (opField w ++ (argField w &&& r.zeroArg) : CmdWord) := by
    conv_lhs => rw [← Machine.commandWord_fields w, CommandRow.mask, BitVec.and_append]
    rw [show 0xFF#8 = BitVec.allOnes 8 from rfl, BitVec.and_allOnes]
  rw [hand, CommandRow.pattern]
  constructor
  · intro h
    have hop := congrArg opField h
    have harg := congrArg argField h
    rw [opField_commandWord, opField_commandWord] at hop
    rw [argField_commandWord, argField_commandWord] at harg
    exact ⟨hop, harg⟩
  · rintro ⟨hop, harg⟩
    rw [hop, harg]

/-- The table of R102 as printed is the decoder's. -/
theorem printedRows_eq : printedRows = commandRows.map fun r => (r.pattern, r.mask, r.build) := by
  have htune : (fun arg : BitVec 32 => Instr.tune (arg.extractLsb' 0 8)) = fun arg => .tune (arg.setWidth 8) :=
    funext fun arg => by rw [BitVec.setWidth_eq_extractLsb' (by decide)]
  rw [printedRows, htune]
  rfl

/-- A word decodes exactly where it selects a printed row. -/
theorem decodeCommand_ok_iff_printed {w : CmdWord} {i : Instr} : decodeCommand w = .ok i ↔
    ∃ r ∈ printedRows, w &&& r.2.1 = r.1 ∧ i = r.2.2 (w.extractLsb' 0 32) := by
  simp only [decodeCommand_ok_iff, printedRows_eq, List.mem_map, exists_exists_and_eq_and, and_mask_eq_pattern_iff]
  rfl

/-- Settles O2: two rows have two codes, and a word has one. -/
theorem commandTableDecides : Obligations.CommandTableDecides := by
  refine ⟨fun _ _ => decodeCommand_ok_iff_printed, ?_⟩
  have hcodes : commandRows.Pairwise fun r q => r.op ≠ q.op := by
    rw [← List.pairwise_map]
    decide
  rw [printedRows_eq, List.pairwise_map]
  refine hcodes.imp fun hne w hr hq => hne ?_
  rw [← (and_mask_eq_pattern_iff.1 hr).1, (and_mask_eq_pattern_iff.1 hq).1]

/-! ### The command tables of the record (R105) -/

theorem findReg_eq_some {p : ChipParams} {t : RegAddr → Byte} {b : Byte} {a : RegAddr} (h : findReg p t b = some a) :
    p.isReg a = true ∧ t a = b := by
  obtain ⟨k, hk, rfl⟩ := List.mem_map.1 (List.mem_of_find?_eq_some h)
  refine ⟨isReg_iff.2 ?_, by simpa using List.find?_some h⟩
  rw [BitVec.toNat_ofNat]
  exact (Nat.mod_le _ _).trans_lt (List.mem_range.1 hk)

/-- The search finds a register whose entry is the byte, if there is one. -/
theorem findReg_isSome {p : ChipParams} (t : RegAddr → Byte) {a : RegAddr} (ha : p.isReg a = true) :
    (findReg p t (t a)).isSome = true := by
  rw [findReg, List.find?_isSome]
  exact ⟨a, List.mem_map.2 ⟨a.toNat, List.mem_range.2 (isReg_iff.1 ha), by simp⟩, beq_self_eq_true _⟩

/-- Where the table is injective on the chip's addresses, it is the register. -/
theorem findReg_self {p : ChipParams} {t : RegAddr → Byte} {a : RegAddr} (ha : p.isReg a = true)
    (hinj : ∀ b : RegAddr, p.isReg b = true → t b = t a → b = a) : findReg p t (t a) = some a := by
  obtain ⟨b, hb⟩ := Option.isSome_iff_exists.1 (findReg_isSome t ha)
  obtain ⟨hreg, heq⟩ := findReg_eq_some hb
  rw [hb, hinj b hreg heq]

theorem findReg_eq_none {p : ChipParams} {t : RegAddr → Byte} {b : Byte}
    (h : ∀ a : RegAddr, p.isReg a = true → t a ≠ b) : findReg p t b = none := by
  rw [Option.eq_none_iff_forall_ne_some]
  intro a ha
  obtain ⟨hreg, heq⟩ := findReg_eq_some ha
  exact h a hreg heq

section

variable {p : ChipParams} (hw : p.wf = true) {a : RegAddr} (ha : p.isReg a = true)

include hw ha

/-- R10 (a) and (b), at two registers. -/
theorem commands_distinct {b : RegAddr} (hb : p.isReg b = true) :
    (p.wrByte b = p.wrByte a → b = a) ∧ (p.rdByte b = p.rdByte a → b = a) ∧ p.wrByte b ≠ p.rdByte a := by
  obtain ⟨-, hcommands, -⟩ := wf_iff.1 hw
  exact commandsOk_iff.1 hcommands b a (isReg_iff.1 hb) (isReg_iff.1 ha)

/-- A frame that opens with `CMD_WR(a)` is a write to `a` (R104, R105). -/
theorem decodeFrame_write (v : Byte) (vs : List Byte) :
    decodeFrame p (p.wrByte a :: v :: vs) = .ok (writeFrame a v vs) := by
  have hfind : findReg p p.wrByte (p.wrByte a) = some a := findReg_self ha fun b hb => (commands_distinct hw ha hb).1
  rw [decodeFrame, hfind]

/-- A frame that opens with `CMD_RD(a)` is a read of `a` (R104, R105). -/
theorem decodeFrame_read (d : Byte) (ds : List Byte) :
    decodeFrame p (p.rdByte a :: d :: ds) = readFrame a (d :: ds) := by
  have hnone : findReg p p.wrByte (p.rdByte a) = none := findReg_eq_none fun b hb => (commands_distinct hw ha hb).2.2
  have hfind : findReg p p.rdByte (p.rdByte a) = some a := findReg_self ha fun b hb => (commands_distinct hw ha hb).2.1
  rw [decodeFrame, hnone, hfind]

end

/-! ### Frames (R104) -/

/-- What decodes from a frame: a strobe of the block, a write or a read of a register of the chip. -/
theorem decodeFrame_cases {p : ChipParams} {bs : List Byte} {i : Instr} (h : decodeFrame p bs = .ok i) :
    (∃ b, p.isStrobe b = true ∧ bs = [b] ∧ i = .strobe b) ∨
    (∃ a v vs, p.isReg a = true ∧ bs = p.wrByte a :: v :: vs ∧ i = writeFrame a v vs) ∨
    (∃ a ds, p.isReg a = true ∧ bs = p.rdByte a :: ds ∧ readFrame a ds = .ok i) := by
  unfold decodeFrame at h
  split at h
  · cases h
  · split_ifs at h with hs
    cases h
    exact .inl ⟨_, hs, rfl, rfl⟩
  · split at h
    · rename_i a hfind
      obtain ⟨ha, rfl⟩ := findReg_eq_some hfind
      cases h
      exact .inr (.inl ⟨a, _, _, ha, rfl, rfl⟩)
    · split at h
      · rename_i a hfind
        obtain ⟨ha, rfl⟩ := findReg_eq_some hfind
        exact .inr (.inr ⟨a, _, ha, rfl, h⟩)
      · cases h

/-- What a read frame decodes to, by the number of its dummies. -/
theorem readFrame_cases {a : RegAddr} {ds : List Byte} {i : Instr} (h : readFrame a ds = .ok i) :
    (ds = [dummyByte] ∧ i = .rreg a) ∨ (ds = List.replicate idBytes dummyByte ∧ i = .rburst4 a) ∨
      (ds = List.replicate frameLen dummyByte ∧ i = .rburst21 a) := by
  unfold readFrame at h
  split_ifs at h with hall hone hfour hmany
  all_goals
    have hdummies : ∀ {n}, ds.length = n → ds = List.replicate n dummyByte := fun hn =>
      List.eq_replicate_iff.2 ⟨hn, by simpa using hall⟩
    cases h
  · exact .inl ⟨hdummies hone, rfl⟩
  · exact .inr (.inl ⟨hdummies hfour, rfl⟩)
  · exact .inr (.inr ⟨hdummies hmany, rfl⟩)

theorem encode_operation {i : Instr} (h : i.isOperation = true) (p : ChipParams) :
    encode p i = .command (encodeCommand i) := if_pos h

theorem encode_transaction {i : Instr} (h : i.isOperation = false) (p : ChipParams) :
    encode p i = .frame (encodeFrame p i) := if_neg (by rw [h]; exact Bool.false_ne_true)

theorem wf_of_operation {i : Instr} (h : i.isOperation = true) (p : ChipParams) : i.wf p = true := by
  cases i with
  | strobe | wreg | rreg | wburst | rburst4 | rburst21 => cases h
  | _ => rfl

/-- The frame of a transaction decodes to it, but for the one-byte burst (log 30). -/
theorem decodeFrame_encodeFrame {p : ChipParams} {i : Instr} (hw : p.wf = true) (hi : i.wf p = true)
    (hframe : i.isOperation = false) (hburst : ∀ a v, i ≠ .wburst a [v]) :
    decodeFrame p (encodeFrame p i) = .ok i := by
  cases i with
  | strobe b => exact if_pos hi
  | wreg a v => exact decodeFrame_write hw hi v []
  | rreg a => exact decodeFrame_read hw hi dummyByte []
  | wburst a vs =>
    obtain ⟨ha, hne⟩ : p.isReg a = true ∧ vs ≠ [] := by simpa [Instr.wf] using hi
    rcases vs with - | ⟨v, - | ⟨v', vs⟩⟩
    · exact absurd rfl hne
    · exact absurd rfl (hburst a v)
    · exact decodeFrame_write hw ha v (v' :: vs)
  | rburst4 a => exact decodeFrame_read hw hi dummyByte (List.replicate 3 dummyByte)
  | rburst21 a => exact decodeFrame_read hw hi dummyByte (List.replicate 20 dummyByte)
  | _ => cases hframe

/-- What decodes from a frame is well-formed and encodes to that frame. -/
theorem encodeFrame_of_decodeFrame {p : ChipParams} {bs : List Byte} {i : Instr} (h : decodeFrame p bs = .ok i) :
    i.wf p = true ∧ encodeFrame p i = bs := by
  obtain ⟨b, hs, rfl, rfl⟩ | ⟨a, v, vs, ha, rfl, rfl⟩ | ⟨a, ds, ha, rfl, hread⟩ := decodeFrame_cases h
  · exact ⟨hs, rfl⟩
  · cases vs with
    | nil => exact ⟨ha, rfl⟩
    | cons v' vs => exact ⟨by simp [writeFrame, Instr.wf, ha], rfl⟩
  · obtain ⟨rfl, rfl⟩ | ⟨rfl, rfl⟩ | ⟨rfl, rfl⟩ := readFrame_cases hread
    all_goals exact ⟨ha, rfl⟩

/-- Settles O4: a command word by its fields, a frame by its command byte; the burst of one byte has the frame of the
single write. -/
theorem decodeOfEncodeIsInstruction : Obligations.DecodeOfEncodeIsInstruction := by
  intro p i hw hi
  refine ⟨fun hburst => ?_, ?_⟩
  · cases hop : i.isOperation with
    | true =>
      rw [encode_operation hop]
      exact Machine.decodeCommand_encodeCommand hop
    | false =>
      rw [encode_transaction hop]
      exact decodeFrame_encodeFrame hw hi hop hburst
  · rintro a v rfl
    have ha : p.isReg a = true := by simpa [Instr.wf] using hi
    exact decodeFrame_write hw ha v []

/-- Settles O5: a command word decodes to an operation, of which every operand is legal, a frame to a transaction. -/
theorem encodeOfDecodeIsWord : Obligations.EncodeOfDecodeIsWord := by
  intro p r i _ h
  cases r with
  | command w =>
    have hop := decodeCommand_isOperation h
    exact ⟨wf_of_operation hop p, by rw [encode_operation hop, Machine.encodeCommand_of_decodeCommand h]⟩
  | frame bs =>
    obtain ⟨hi, hbs⟩ := encodeFrame_of_decodeFrame h
    exact ⟨hi, by rw [encode_transaction (Machine.decodeFrame_not_operation h), hbs]⟩

/-- Settles O1, word by word. -/
theorem writtenWordsDecode : Obligations.WrittenWordsDecode := by
  unfold Obligations.WrittenWordsDecode
  decide

end Sys2Proof

/-! # A request runs

What the next step makes of the caller's request (spec/30_encoding.md R107), and what it answers (R103). -/

namespace Sys2Proof.Machine

open Sys2Proof.Safety

/-! ### The fetch -/

/-- A request that decodes runs as its instruction. -/
theorem serve_of_decodes {s : State} {r : Request} {i : Instr} (h : decodeRequest s.params r = .ok i) :
    serve r s = exec i s := by
  cases r with
  | command w =>
    have hd : decodeCommand w = .ok i := h
    rw [serve, hd]
  | frame bs =>
    have hd : decodeFrame s.params bs = .ok i := h
    rw [serve, hd]

/-- With the block idle the caller's next request is served, after one place of the peer. -/
theorem step_idle {s : State} {r : Request} {rest : List Request} (hw : s.params.wf = true) (hu : s.upos = .idle)
    (hreq : s.io.requests = r :: rest) : step s = serve r (afterFetch s) := by
  rw [step, if_pos hw, hu]
  simp only [idleStep, nextRequest, hreq, List.head?_cons]

/-- The state in which the request is served, its place of the peer named. -/
theorem afterFetch_eq {s : State} {r : Request} {rest : List Request} (hreq : s.io.requests = r :: rest) :
    afterFetch s = { s with peer := (drift 1 s).peer, io := { (drift 1 s).io with requests := rest } } := by
  rw [afterFetch, hreq]
  rfl

/-- Settles O7. -/
theorem stepRunsDecodedInstruction : Obligations.StepRunsDecodedInstruction := by
  intro s r rest i hw hu hreq hd
  rw [step_idle hw hu hreq, serve_of_decodes (s := afterFetch s) hd, afterFetch_eq hreq]

/-- Settles O6: the placed request is taken and the queue is the caller's again. -/
theorem placedWordRuns : Obligations.PlacedWordRuns := by
  intro s nbits w i hw hd
  rw [State.withFetchWord, step_idle (s := placeRequest _ s) hw rfl rfl,
    serve_of_decodes (s := afterFetch (placeRequest _ s)) hd]
  rfl

/-- Settles O3: a word that selects no printed row decodes to nothing. -/
theorem unmatchedWordRefused : Obligations.UnmatchedWordRefused := by
  intro s w rest hw hu hreq hrows
  have hserve : serve (.command w) (afterFetch s) = .next (refuseCommand w (afterFetch s)) := by
    cases hd : decodeCommand w with
    | ok i =>
      obtain ⟨r, hr, hselects, -⟩ := decodeCommand_ok_iff_printed.1 hd
      exact absurd hselects (hrows r hr)
    | error e => rw [serve, hd]
  rw [step_idle hw hu hreq, hserve, afterFetch_eq hreq]
  simp only [refuseCommand, failWith, finish, raise, ← hu]
  rfl

/-! ### Responses (R103) -/

/-- A response that R103 allows where `FAULTS` is `fs`. -/
def Reports (fs : List FaultRecord) (r : Response) : Prop :=
  r.status = 0x00#8 ∨ (r.status ∈ [0x01#8, 0x02#8, 0x03#8] ∧ r.payload = .empty ∧
    ∃ f ∈ fs, f.detected = true ∧ f.code = r.status)

/-- From `s` to `t` the caller receives nothing, or one response that R103 allows. -/
def Responds (s t : State) : Prop :=
  t.io.responses = s.io.responses ∨ ∃ r, t.io.responses = s.io.responses ++ [r] ∧ Reports t.faults r

theorem reports_success (fs : List FaultRecord) (x : Payload) : Reports fs (success x) := .inl rfl

/-- A detected fault that is recorded may be reported (spec/60_exceptions.md R200, R210). -/
theorem reports_failure {fs : List FaultRecord} {f : FaultRecord} (hd : f.detected = true) (hf : f ∈ fs) :
    Reports fs (failure f) := by
  refine .inr ⟨?_, rfl, f, hf, hd, rfl⟩
  cases f with
  | badCommand | seqUnloaded | calStuck => simp [failure, FaultRecord.code]
  | precondReadFrame | callOrder => cases hd

section

variable {s t u : State}

theorem Responds.after (h : u.io.responses = s.io.responses) (k : Responds u t) : Responds s t := by
  rwa [Responds, ← h]

theorem responds_success (h : t.io.responses = s.io.responses) (x : Payload) : Responds s (finish (success x) t) :=
  .inr ⟨_, by rw [finish_responses, h], reports_success _ x⟩

theorem responds_failWith (h : t.io.responses = s.io.responses) {f : FaultRecord} (hd : f.detected = true) :
    Responds s (failWith f t) :=
  .inr ⟨_, by rw [failWith, finish_responses, raise_responses, h], reports_failure hd (mem_insertFault.2 (.inl rfl))⟩

/-- A turn of the poll loop answers nothing while it waits, and once at either end (spec/41_radio_driver.md R153,
R154). -/
theorem configurePoll_responds (s : State) : Responds s (configurePoll s) := by
  have hr := (rreg_undisturbed s.params.calPollReg s).responses
  cases hbusy : pollBusy s.params (rregTx s.params.calPollReg s).1 with
  | false =>
    obtain ⟨u, bs, hu, -, hm⟩ := tail_moved (rregTx s.params.calPollReg s).2
    rw [configurePoll_done hbusy, hu]
    exact responds_success (hm.responses.trans hr) _
  | true =>
    cases hlimit : limitReached s.params (s.polls + 1) with
    | false =>
      rw [configurePoll_wait hbusy hlimit]
      exact .inl hr
    | true =>
      rw [configurePoll_stuck hbusy hlimit]
      exact responds_failWith hr rfl

/-- Every operation answers at most once, as R103 says, and a transaction answers nothing (log 29). -/
theorem exec_responds {i : Instr} (h : exec i s = .next t) : Responds s t := by
  cases i with
  | reset =>
    cases h
    obtain ⟨es, n, hm⟩ := resetPeer_moved (begin .reset s)
    exact responds_success hm.responses _
  | configure =>
    cases h
    exact .after (atPoll_undisturbed s).responses (configurePoll_responds (atPoll s))
  | setIdentity ident =>
    cases h
    exact responds_success (wburst_moved _ _ (begin .setIdentity s)).responses _
  | getIdentity =>
    cases h
    exact responds_success (rburst_moved _ _ (begin .getIdentity s)).responses _
  | tune channel =>
    cases h
    have hm := (((strobe_moved s.params.strobeStandby (begin .tune s)).trans
      (strobe_moved s.params.strobeRstRdptr _)).trans (wreg_moved s.params.channelReg channel _)).trans
        (strobe_moved s.params.strobeRx _)
    exact responds_success hm.responses _
  | rearm =>
    cases h
    have hm := (strobe_moved s.params.strobeRstRdptr (begin .rearm s)).trans (strobe_moved s.params.strobeRx _)
    exact responds_success hm.responses _
  | pollReady =>
    cases h
    exact responds_success rfl _
  | crcFailed =>
    cases h
    exact responds_success (rreg_moved _ (begin .crcFailed s)).responses _
  | readFrame =>
    cases h
    exact responds_success (rburst_moved _ _ (raiseIf _ _ (begin .readFrame s))).responses _
  | seqLoad id =>
    cases h
    exact responds_success rfl _
  | seqChannel =>
    simp only [exec, execSeqChannel, Host.Outcome.next.injEq] at h
    subst h
    split_ifs
    · exact responds_failWith rfl rfl
    · exact responds_success rfl _
  | advance =>
    simp only [exec, execAdvance, Host.Outcome.next.injEq] at h
    subst h
    split_ifs
    · exact responds_failWith rfl rfl
    · exact responds_success rfl _
  | strobe b =>
    simp only [exec, execStrobe] at h
    split_ifs at h
    cases h
    exact .inl (strobe_moved b s).responses
  | wreg a v => exact .inl (next_of_address h ▸ (wreg_moved a v s).responses)
  | rreg a => exact .inl (next_of_address h ▸ (rreg_moved a s).responses)
  | wburst a vs =>
    simp only [exec, execWburst] at h
    split_ifs at h
    cases h
    exact .inl (wburst_moved a vs s).responses
  | rburst4 a => exact .inl (next_of_address h ▸ (rburst_moved a _ s).responses)
  | rburst21 a => exact .inl (next_of_address h ▸ (rburst_moved a _ s).responses)

end

/-- Settles O56, by what a step can be. -/
theorem statusReportsDetectedFaults : Obligations.StatusReportsDetectedFaults := by
  intro s t h
  show Responds s t
  have hf : (afterFetch s).io.responses = s.io.responses := rfl
  obtain ⟨-, ⟨-, -, rfl⟩ | ⟨r, rs, i, -, -, -, he⟩ | ⟨w, rs, e, -, -, -, rfl⟩ | ⟨bs, rs, a, n, -, -, rfl⟩ | ⟨-, rfl⟩⟩ :=
    step_cases h
  · exact .inl rfl
  · exact .after hf (exec_responds he)
  · exact responds_failWith hf rfl
  · exact .inl ((rburst_moved a n (afterFetch s)).responses.trans hf)
  · exact configurePoll_responds s

/-! ### Pseudo-operations (R110) -/

/-- Settles O59: `advance` answers the channel of the new cursor, and `hop` tunes to what it answers. -/
theorem hopTunesNewChannel : Obligations.HopTunesNewChannel := by
  intro s hl
  have hadvance : exec .advance s = .next (finish (success (.byte (channel s.params s.seq.id (s.seq.cursor + 1))))
      { begin .advance s with seq := { s.seq with cursor := s.seq.cursor + 1 } }) := by
    simp [exec, execAdvance, hl]
  exact ⟨rfl, _, _, hadvance, rfl, rfl, rfl⟩

/-- Settles O60, row by row. -/
theorem pseudoOperationsExpand : Obligations.PseudoOperationsExpand :=
  ⟨rfl, rfl, fun _ _ => rfl, rfl, fun _ => rfl, rfl, fun _ => rfl, rfl, rfl, rfl, rfl, rfl⟩

end Sys2Proof.Machine

/-! # Lines of text

The line of an operation reads back as that operation (spec/30_encoding.md R109): its words, then its number. -/

namespace Sys2Proof.Machine.Text

/-! ### Hexadecimal numbers -/

theorem digit_hexDigit {v : Nat} (h : v < 16) : digit 16 (hexDigit v) = some v := by
  have hall : ∀ v : Fin 16, digit 16 (hexDigit v.val) = some v.val := by decide
  exact hall ⟨v, h⟩

theorem length_hex (n v : Nat) : (hex n v).length = n := by
  induction n generalizing v with
  | zero => rfl
  | succ n ih => rw [hex, List.length_append, ih, List.length_singleton]

/-- The digits of a number are read one after another. -/
theorem digits_hex_append (n v acc : Nat) (cs : List Char) (h : v < 16 ^ n) :
    digits 16 (hex n v ++ cs) acc = digits 16 cs (16 ^ n * acc + v) := by
  induction n generalizing v cs with
  | zero =>
    obtain rfl : v = 0 := by simpa using h
    simp [hex]
  | succ n ih =>
    have hv : v / 16 < 16 ^ n := by
      rw [pow_succ] at h
      exact Nat.div_lt_of_lt_mul (by rwa [Nat.mul_comm])
    have hvalue : 16 * (16 ^ n * acc + v / 16) + v % 16 = 16 ^ (n + 1) * acc + v := by
      rw [pow_succ, Nat.mul_add, ← Nat.mul_assoc, Nat.mul_comm 16 (16 ^ n), Nat.add_assoc, Nat.div_add_mod]
    have hlast : digit 16 (hexDigit (v % 16)) = some (v % 16) := digit_hexDigit (Nat.mod_lt _ (by decide))
    rw [hex, List.append_assoc, ih _ _ hv, List.singleton_append, digits, hlast, ← hvalue]

theorem number_hex {n v : Nat} (hn : n ≠ 0) (h : v < 16 ^ n) : number ('0' :: 'x' :: hex n v) = some v := by
  obtain ⟨c, cs, hcs⟩ : ∃ c cs, hex n v = c :: cs :=
    List.exists_cons_of_length_pos (by rw [length_hex]; exact Nat.pos_of_ne_zero hn)
  have hdigits := digits_hex_append n v 0 [] h
  rw [List.append_nil, Nat.mul_zero, Nat.zero_add] at hdigits
  rw [hcs] at hdigits ⊢
  exact hdigits

/-! ### Words -/

/-- A character of a word: no blank, and no opening of a comment. -/
def isPlain (c : Char) : Bool := !isBlank c && c != ';'

theorem isPlain_iff {c : Char} : isPlain c = true ↔ isBlank c = false ∧ c ≠ ';' := by
  rw [isPlain, Bool.and_eq_true, Bool.not_eq_true', bne_iff_ne]

/-- The characters of a word go in front of the first word read. -/
theorem foldr_pushChar_word {w : List Char} (hw : ∀ c ∈ w, isPlain c = true) (v : List Char) (vs : List (List Char)) :
    w.foldr pushChar (v :: vs) = (w ++ v) :: vs := by
  induction w with
  | nil => rfl
  | cons c w ih =>
    obtain ⟨hc, hw⟩ := List.forall_mem_cons.1 hw
    rw [List.foldr_cons, ih hw, pushChar, (isPlain_iff.1 hc).1]
    rfl

/-- A word alone on a line. -/
theorem wordsOf_word {w : List Char} (hw : ∀ c ∈ w, isPlain c = true) (hne : w ≠ []) : wordsOf w = [w] := by
  rw [wordsOf, foldr_pushChar_word hw, List.append_nil]
  simp [hne]

/-- A word before a blank. -/
theorem wordsOf_word_blank {w : List Char} (hw : ∀ c ∈ w, isPlain c = true) (hne : w ≠ []) (rest : List Char) :
    wordsOf (w ++ ' ' :: rest) = w :: wordsOf rest := by
  have hblank : (' ' :: rest).foldr pushChar [[]] = [] :: rest.foldr pushChar [[]] := rfl
  rw [wordsOf, List.foldr_append, hblank, foldr_pushChar_word hw, List.append_nil]
  simp [hne, wordsOf]

/-- A blank at the end of a line opens one more word, with nothing in it. -/
theorem foldr_pushChar_blank (l : List Char) : ∃ w ws,
    l.foldr pushChar [[]] = w :: ws ∧ l.foldr pushChar [[], []] = w :: (ws ++ [[]]) := by
  induction l with
  | nil => exact ⟨[], [], rfl, rfl⟩
  | cons c l ih =>
    obtain ⟨w, ws, hplain, hblank⟩ := ih
    rw [List.foldr_cons, List.foldr_cons, hplain, hblank]
    cases hc : isBlank c with
    | true => exact ⟨[], w :: ws, by simp [pushChar, hc], by simp [pushChar, hc]⟩
    | false => exact ⟨c :: w, ws, by simp [pushChar, hc], by simp [pushChar, hc]⟩

theorem wordsOf_append_blank (l : List Char) : wordsOf (l ++ [' ']) = wordsOf l := by
  obtain ⟨w, ws, hplain, hblank⟩ := foldr_pushChar_blank l
  have hlast : [' '].foldr pushChar [[]] = [[], []] := rfl
  rw [wordsOf, wordsOf, List.foldr_append, hlast, hplain, hblank, ← List.cons_append, List.filter_append]
  exact List.append_nil _

/-! ### Comments -/

/-- A line without a semicolon stands before its comment, if any. -/
theorem beforeComment_line {l : List Char} (hl : ∀ c ∈ l, c ≠ ';') : beforeComment l = l :=
  List.takeWhile_eq_self_iff.2 fun c hc => bne_iff_ne.2 (hl c hc)

theorem beforeComment_append {l : List Char} (hl : ∀ c ∈ l, c ≠ ';') (comment : List Char) :
    beforeComment (l ++ ';' :: comment) = l := by
  rw [beforeComment, List.takeWhile_append_of_pos fun c hc => bne_iff_ne.2 (hl c hc)]
  exact List.append_nil l

/-- A comment after a line changes nothing. -/
theorem parseLine_comment {l : List Char} (hl : ∀ c ∈ l, c ≠ ';') (comment : List Char) :
    parseLine (l ++ ' ' :: ';' :: comment) = parseLine l := by
  have hblank : ∀ c ∈ l ++ [' '], c ≠ ';' := by
    rw [List.forall_mem_append, List.forall_mem_singleton]
    exact ⟨hl, by decide⟩
  rw [parseLine, parseLine, ← List.singleton_append, ← List.append_assoc, beforeComment_append hblank,
    wordsOf_append_blank, beforeComment_line hl]

/-! ### The line of an operation -/

theorem mnemonic_ne_nil (op : OpName) : mnemonic op ≠ [] := by
  cases op <;> exact List.cons_ne_nil _ _

theorem mnemonic_plain (op : OpName) : ∀ c ∈ mnemonic op, isPlain c = true :=
  List.all_eq_true.1 (by cases op <;> rfl)

theorem hexDigit_plain {v : Nat} (h : v < 16) : isPlain (hexDigit v) = true := by
  have hall : ∀ v : Fin 16, isPlain (hexDigit v.val) = true := by decide
  exact hall ⟨v, h⟩

theorem hex_plain (n v : Nat) : ∀ c ∈ hex n v, isPlain c = true := by
  induction n generalizing v with
  | zero => nofun
  | succ n ih =>
    rw [hex, List.forall_mem_append, List.forall_mem_singleton]
    exact ⟨ih _, hexDigit_plain (Nat.mod_lt _ (by decide))⟩

/-- `0x` and the digits after it are one word. -/
theorem prefixed_hex_plain (n v : Nat) : ∀ c ∈ '0' :: 'x' :: hex n v, isPlain c = true :=
  List.forall_mem_cons.2 ⟨rfl, List.forall_mem_cons.2 ⟨rfl, hex_plain n v⟩⟩

/-- The mnemonics are twelve different words (R100). -/
theorem find_mnemonic (op : OpName) : (opNames.find? fun o => mnemonic o == mnemonic op) = some op := by
  cases op <;> rfl

/-- An operation has no operand, or one that is written as a hexadecimal number of a fixed length. -/
theorem operandText_cases {i : Instr} {op : OpName} (h : i.opName? = some op) :
    (operandText i = [] ∧ assemble op none = .ok i) ∨
    ∃ n v, n ≠ 0 ∧ v < 16 ^ n ∧ operandText i = ' ' :: '0' :: 'x' :: hex n v ∧ assemble op (some v) = .ok i := by
  cases i with
  | setIdentity id =>
    cases h
    exact .inr ⟨8, id.toNat, by decide, id.isLt, rfl, by simp [assemble, id.isLt]⟩
  | tune channel =>
    cases h
    exact .inr ⟨2, channel.toNat, by decide, channel.isLt, rfl, by simp [assemble, channel.isLt]⟩
  | seqLoad id =>
    cases h
    exact .inr ⟨8, id.toNat, by decide, id.isLt, rfl, by simp [assemble, id.isLt]⟩
  | strobe | wreg | rreg | wburst | rburst4 | rburst21 => cases h
  | _ =>
    cases h
    exact .inl ⟨rfl, rfl⟩

/-- The line of an operation holds no semicolon and reads back. -/
theorem parseLine_line {i : Instr} {op : OpName} (h : i.opName? = some op) :
    (∀ c ∈ mnemonic op ++ operandText i, c ≠ ';') ∧ parseLine (mnemonic op ++ operandText i) = .ok (some i) := by
  have hop : ∀ c ∈ mnemonic op, c ≠ ';' := fun c hc => (isPlain_iff.1 (mnemonic_plain op c hc)).2
  obtain ⟨hnone, hi⟩ | ⟨n, v, hn, hv, hsome, hi⟩ := operandText_cases h
  · rw [hnone, List.append_nil]
    refine ⟨hop, ?_⟩
    rw [parseLine, beforeComment_line hop, wordsOf_word (mnemonic_plain op) (mnemonic_ne_nil op)]
    simp only [find_mnemonic, hi]
    rfl
  · have hhex := prefixed_hex_plain n v
    have hline : ∀ c ∈ mnemonic op ++ operandText i, c ≠ ';' := by
      rw [hsome, List.forall_mem_append, List.forall_mem_cons]
      exact ⟨hop, by decide, fun c hc => (isPlain_iff.1 (hhex c hc)).2⟩
    refine ⟨hline, ?_⟩
    rw [parseLine, beforeComment_line hline, hsome, wordsOf_word_blank (mnemonic_plain op) (mnemonic_ne_nil op),
      wordsOf_word hhex (List.cons_ne_nil _ _)]
    simp only [find_mnemonic, number_hex hn hv, hi]
    rfl

/-- Settles O58: the line reads back, and its comment is not read. -/
theorem linesReadBack : Obligations.LinesReadBack := by
  intro i comment hi
  obtain ⟨op, hop⟩ := Option.isSome_iff_exists.1 hi
  obtain ⟨hline, hreads⟩ := parseLine_line hop
  refine ⟨mnemonic op ++ operandText i, ?_, hreads, (parseLine_comment hline comment).trans hreads⟩
  rw [lineOf, hop]
  rfl

end Sys2Proof.Machine.Text

/-! # The transactions standing alone

`STROBE`, `WREG`, `RREG`, `WBURST` and `RBURST` (spec/40_transport_primitives.md R130 to R134), each complete: its events,
what it writes or returns, and its frame. -/

namespace Sys2Proof.Machine

open Sys2Proof.Safety

/-! ### `STROBE` (R130) -/

/-- A strobe byte that is none of the three has no reaction of its own (spec/20_memory.md R81, log 15). -/
theorem applyStrobe_none {b : Byte} {s : State}
    (h : b ∉ [s.params.strobeStandby, s.params.strobeRstRdptr, s.params.strobeRx]) : applyStrobe b s = s := by
  simp only [List.mem_cons, List.not_mem_nil, or_false, not_or] at h
  obtain ⟨hstandby, hrst, hrx⟩ := h
  rw [applyStrobe, if_neg hstandby, if_neg hrst, if_neg hrx]

theorem strobe_peer_none {b : Byte} {s : State}
    (h : b ∉ [s.params.strobeStandby, s.params.strobeRstRdptr, s.params.strobeRx]) :
    (strobeTx b id s).peer = (drift 3 s).peer := by
  rw [strobeTx_id, applyStrobe_none (s := passing _ s) h, passing_passing]
  rfl

/-- Settles O23: a strobe is its reaction between two stretches of the peer's own steps, and of the reactions only the
receive-arm's can record a fault. -/
theorem strobeTransaction : Obligations.StrobeTransaction := by
  intro s b hb hl
  refine ⟨_, exec_strobe hb, transacted_of (strobe_moved b s) hl, fun r => by rw [strobe_reg], strobe_idb b s,
    strobe_cfgOk b s, strobe_rdptr b s, strobe_other b s, strobe_peer_none, ?_⟩
  rcases strobe_faults b s with hsame | ⟨m, hadded⟩
  · rw [hsame]
    exact ⟨fun _ hf => hf, fun _ hf => .inl hf⟩
  · rw [hadded]
    refine ⟨fun f hf => mem_insertFault.2 (.inr hf), fun f hf => ?_⟩
    exact (mem_insertFault.1 hf).symm.imp_right fun e => ⟨m, e⟩

/-! ### `WREG` (R131) -/

theorem exec_wreg {s : State} {a : RegAddr} (h : s.params.isReg a = true) (v : Byte) :
    exec (.wreg a v) s = .next (wregTx a v id s) := if_pos h

theorem wreg_read (a : RegAddr) (v : Byte) (s : State) : (wregTx a v id s).peer.reg.read a.toNat = some v := by
  rw [wreg_reg, Memory.read_write_same]

theorem wreg_sameRegsBut (a : RegAddr) (v : Byte) (s : State) : SameRegsBut a s.peer (wregTx a v id s).peer := by
  intro b hb
  rw [wreg_reg, Memory.read_write_other _ _ hb]

/-- Settles O25: the write is one update of the registers, which the peer's own steps do not look at. -/
theorem wregTransaction : Obligations.WregTransaction := by
  intro s a v ha hl
  refine ⟨_, exec_wreg ha v, transacted_of (wreg_moved a v s) hl, wreg_faults a v s, wreg_read a v s,
    wreg_sameRegsBut a v s, ?_, ?_⟩
  · rintro rfl
    exact wreg_read _ v s
  · rw [wreg_peer]
    rfl

/-! ### `RREG` (R132) -/

theorem exec_rreg {s : State} {a : RegAddr} (h : s.params.isReg a = true) :
    exec (.rreg a) s = .next (rregTx a s).2 := if_pos h

/-- A read moves the read pointer, where it reads the FIFO, and nothing else of the peer. -/
theorem upRead_drift (a : RegAddr) (n k : Nat) (s : State) : upRead s.params a n (drift k s).peer =
    { (drift k s).peer with rdptr := if a = s.params.fifoReg then s.peer.rdptr + n else s.peer.rdptr } := by
  rw [upRead, drift_rdptr]

/-- A plain register without a law of its own answers the byte last written (R83). -/
theorem answerSingle_plain {a : RegAddr} {s : State} (ha : a ∈ s.params.plainRegs)
    (h : a ∉ [s.params.statusReg, s.params.calPollReg, s.params.idReg, s.params.fifoReg])
    {b : Byte} (hb : s.peer.reg.read a.toNat = some b) : answerSingle a s = b := by
  simp only [List.mem_cons, List.not_mem_nil, or_false, not_or] at h
  obtain ⟨hstatus, hpoll, hid, hfifo⟩ := h
  rw [answerSingle, if_neg fun e => hstatus e.1, if_neg hpoll, if_neg hfifo, if_pos ⟨ha, hstatus, hid⟩, hb]
  rfl

/-- The status register shows the CRC flag in `Filled`, also where it is polled (R86, log 19). -/
theorem answerSingle_status {s : State} (hm : s.peer.mode = .filled) :
    (answerSingle s.params.statusReg s).getLsbD s.params.crcBit.val = s.peer.crcf := by
  rw [answerSingle, if_pos ⟨rfl, hm⟩, statusAnswer_bit]

/-- The poll register is busy exactly in `Calibrating`, but where it is the status register in `Filled` (R82, log 19). -/
theorem answerSingle_poll {s : State} (hw : s.params.wf = true)
    (h : s.params.calPollReg = s.params.statusReg → s.peer.mode ≠ .filled) :
    answerSingle s.params.calPollReg s &&& s.params.calBusyMask ≠ 0#8 ↔ s.peer.mode = .calibrating := by
  have hbusy := pollBusy_answer (ChipParams.wf_mask hw) fun e hm => absurd hm (h e)
  rw [← bne_iff_ne, ← pollBusy, hbusy, decide_eq_true_iff]

/-- Settles O26: the byte is answered at its own exchange, the fourth place, by the law of the register. -/
theorem rregTransaction : Obligations.RregTransaction := by
  intro s a hw ha hl
  refine ⟨_, (rregTx a s).1, exec_rreg ha, transacted_of (rreg_moved a s) hl, rreg_faults a s,
    (rreg_peer a s).trans (upRead_drift a 1 6 s), ?_, ?_, ?_, ?_⟩
  · intro hplain hrole b hb
    rw [rreg_val]
    exact answerSingle_plain (s := atByte a s) hplain hrole (by rwa [atByte_peer, drift_reg])
  · rintro rfl hm
    rw [← atByte_peer s.params.calPollReg s] at hm ⊢
    rw [rreg_val]
    exact answerSingle_poll (s := atByte s.params.calPollReg s) hw hm
  · rintro rfl hm
    rw [← atByte_peer s.params.statusReg s] at hm ⊢
    rw [rreg_val]
    exact answerSingle_status (s := atByte s.params.statusReg s) hm
  · rintro rfl hpoll
    obtain ⟨-, -, -, -, hstatus, -⟩ := roles_ne hw
    exact rreg_handsOut s hstatus hpoll

/-! ### `WBURST` (R133) -/

theorem exec_wburst {s : State} {a : RegAddr} (h : s.params.isReg a = true) {vs : List Byte} (hvs : vs ≠ []) :
    exec (.wburst a vs) s = .next (wburstTx a vs id s) := (if_neg hvs).trans (if_pos h)

theorem wburst_faults (a : RegAddr) (vs : List Byte) (s : State) : (wburstTx a vs id s).faults = s.faults := by
  rw [wburstTx_passing]
  rfl

/-- A burst write on `ID_REG` sets the identifier bytes and no register (R87). -/
theorem wburst_idReg (vs : List Byte) (s : State) :
    SameRegs s.peer (wburstTx s.params.idReg vs id s).peer ∧
      ∀ i : Fin 4, (wburstTx s.params.idReg vs id s).peer.idb[i] = vs[i.val]?.getD s.peer.idb[i] := by
  obtain ⟨hreg, hidb⟩ := upBurst_id (p := s.params) vs 0 (drift (3 + vs.length) s).peer
  rw [wburst_peer]
  refine ⟨fun b => by rw [hreg, drift_reg], fun i => ?_⟩
  rw [hidb, if_pos (Nat.zero_le _), Nat.sub_zero, drift_idb]

/-- A burst write elsewhere leaves the last byte in the register (R66, log 17). -/
theorem wburst_register {a : RegAddr} {s : State} (h : a ≠ s.params.idReg) {vs : List Byte} (hvs : vs ≠ []) :
    (wburstTx a vs id s).peer.idb = s.peer.idb ∧ (wburstTx a vs id s).peer.reg.read a.toNat = vs.getLast? ∧
      SameRegsBut a s.peer (wburstTx a vs id s).peer := by
  obtain ⟨hidb, hlast, hothers⟩ := upBurst_other h vs 0 (drift (3 + vs.length) s).peer
  rw [wburst_peer]
  refine ⟨by rw [hidb, drift_idb], ?_, fun b hb => by rw [hothers b hb, drift_reg]⟩
  rw [hlast, List.getLast?_eq_some_getLast hvs]
  rfl

/-- Settles O27: the data bytes are one update of the registers and the identifier bytes, which the peer's own steps do
not look at. -/
theorem wburstTransaction : Obligations.WburstTransaction := by
  intro s a vs ha hvs hl
  refine ⟨_, exec_wburst ha hvs, transacted_of (wburst_moved a vs s) hl, wburst_faults a vs s, ?_,
    fun h => wburst_register h hvs, ?_⟩
  · rintro rfl
    exact wburst_idReg vs s
  · rw [wburst_peer]
    exact upBurst_rest vs 0 _

/-! ### `RBURST` (R134) -/

theorem exec_rburst4 {s : State} {a : RegAddr} (h : s.params.isReg a = true) :
    exec (.rburst4 a) s = .next (rburstTx (answerBurst a) a 4 s).2 := if_pos h

theorem exec_rburst21 {s : State} {a : RegAddr} (h : s.params.isReg a = true) :
    exec (.rburst21 a) s = .next (rburstTx (answerBurst a) a 21 s).2 := if_pos h

theorem rburst_peer_frame (ans : Nat → State → Byte) (a : RegAddr) (n : Nat) (s : State) :
    (rburstTx ans a n s).2.peer = { (drift (5 + n) s).peer with
      rdptr := if a = s.params.fifoReg then s.peer.rdptr + n else s.peer.rdptr } :=
  (rburst_peer a n s).trans (upRead_drift a n (5 + n) s)

/-- The bytes a burst read returns on `ID_REG` and on `FIFO_REG`. -/
theorem rburst_bytes (a : RegAddr) {n : Nat} (hn : 4 ≤ n) (s : State) :
    (a = s.params.idReg → (rburstTx (answerBurst a) a n s).1.take 4 = s.peer.idb.toList) ∧
      (a = s.params.fifoReg → a ≠ s.params.idReg → HandsOutFifo s (rburstTx (answerBurst a) a n s).1) := by
  refine ⟨?_, ?_⟩
  · rintro rfl
    exact rburst_id s n hn
  · rintro rfl hne
    exact rburst_handsOut n s hne

/-- Settles O28: both lengths are one burst read, each byte answered at its own exchange. -/
theorem rburstTransaction : Obligations.RburstTransaction := by
  intro s a ha hl
  have hlen := fun n => rburstTx_length (ans := answerBurst a) a n s
  have hmoved := fun n => transacted_of (rburst_moved (ans := answerBurst a) a n s) hl
  obtain ⟨hid4, hfifo4⟩ := rburst_bytes a (n := 4) le_rfl s
  obtain ⟨hid21, hfifo21⟩ := rburst_bytes a (n := 21) (by decide) s
  rw [List.take_of_length_le (hlen 4).le] at hid4
  exact ⟨⟨_, _, exec_rburst4 ha, hlen 4, hmoved 4, rburst_faults a 4 s, hid4, hfifo4, rburst_peer_frame _ a 4 s⟩,
    ⟨_, _, exec_rburst21 ha, hlen 21, hmoved 21, rburst_faults a 21 s, hid21, hfifo21, rburst_peer_frame _ a 21 s⟩⟩

end Sys2Proof.Machine

/-! # The operations of the driver

The operations of spec/41_radio_driver.md but `configure`: what each emits, answers and leaves of the peer. -/

namespace Sys2Proof.Machine

open Sys2Proof.Safety

/-! ### The peer left to itself, as an operation sees it -/

/-- The start of an operation is no place of the peer. -/
@[simp] theorem drift_begin_peer (op : OpName) (n : Nat) (s : State) : (drift n (begin op s)).peer = (drift n s).peer :=
  drift_congr (s := s) (t := begin op s) rfl rfl rfl n

/-! ### `set_identity` and `get_identity` (R155, R156) -/

/-- A burst write on `ID_REG` leaves the rest of the peer to its own steps. -/
theorem wburst_idReg_peer (vs : List Byte) (s : State) : (wburstTx s.params.idReg vs id s).peer =
    { (drift (3 + vs.length) s).peer with idb := (wburstTx s.params.idReg vs id s).peer.idb } := by
  obtain ⟨hreg, -⟩ := upBurst_id (p := s.params) vs 0 (drift (3 + vs.length) s).peer
  rw [wburst_peer]
  nth_rw 1 [upBurst_rest, hreg]

/-- Settles O38: one burst write on `ID_REG`, which touches the identifier bytes and nothing else. -/
theorem setIdentityResult : Obligations.SetIdentityResult := by
  intro s ident hl
  have hmoved := wburst_moved s.params.idReg (identBytes ident) (begin .setIdentity s)
  have hpeer := wburst_idReg_peer (identBytes ident) (begin .setIdentity s)
  rw [drift_begin_peer] at hpeer
  exact ⟨_, identBytes ident, rfl, rfl, returned_of hmoved hl _, wburst_faults _ _ _,
    wburst_idb (s := begin .setIdentity s) rfl, hpeer⟩

/-- The bytes of an identifier, one by one. -/
theorem idb_toList (v : Vector Byte 4) : v.toList = [v[0], v[1], v[2], v[3]] :=
  List.ext_getElem (by simp) fun k hk _ => by
    have hk4 : k < 4 := by simpa using hk
    interval_cases k <;> simp

/-- The burst of `get_identity`, issued in `s`. -/
def identBurst (s : State) : List Byte × State :=
  rburstTx (answerBurst s.params.idReg) s.params.idReg idBytes (begin .getIdentity s)

theorem identBurst_bytes (s : State) : (identBurst s).1 = s.peer.idb.toList := rburst_idb (begin .getIdentity s)

theorem identBurst_moved (s : State) : Moved (begin .getIdentity s) (identBurst s).2
    (readEvents s.params s.params.idReg (identBurst s).1) 1 := rburst_moved _ _ (begin .getIdentity s)

theorem identBurst_peer (s : State) (hw : s.params.wf = true) : (identBurst s).2.peer = (drift 9 s).peer := by
  obtain ⟨hne, -⟩ := roles_ne hw
  rw [identBurst, rburst_peer, upRead, begin_params, if_neg hne, drift_begin_peer]
  rfl

theorem identBurst_faults (s : State) : (identBurst s).2.faults = s.faults :=
  rburst_faults _ _ (begin .getIdentity s)

theorem exec_getIdentity (s : State) : exec .getIdentity s =
    .next (finish (success (.word (identOfBytes (identBurst s).1))) (identBurst s).2) := rfl

/-- Settles O39: one burst read on `ID_REG`, which the peer answers by the identifier bytes. -/
theorem getIdentityResult : Obligations.GetIdentityResult := by
  intro s hw hl
  have hreturned := returned_of (identBurst_moved s) hl (success (.word (identOfBytes (identBurst s).1)))
  refine ⟨_, exec_getIdentity s, ?_, identBurst_faults s, identBurst_peer s hw⟩
  rw [identBurst_bytes, idb_toList, identOfBytes_four] at hreturned ⊢
  exact hreturned

/-! ### `poll_ready` and `crc_failed` (R159, R160) -/

/-- A read of the pin is one event and no transaction (spec/40_transport_primitives.md R135). -/
theorem gpio_moved (s : State) : Moved s (gpioTx s).2 [.gpioRead (gpioTx s).1] 0 :=
  ⟨rfl, rfl, id, (Upos.plus_zero s.upos).symm, rfl, rfl, rfl, rfl⟩

/-- In the modes in which R85 fixes the pin, it is what a read answers. -/
theorem pinAnswer_of_agrees {s : State} (h : PinAgrees s.peer) :
    (s.peer.mode = .receiving → pinAnswer s = false) ∧ (s.peer.mode = .filled → pinAnswer s = true) := by
  refine ⟨fun hm => ?_, fun hm => ?_⟩
  · rw [pinAnswer, hm]
    exact h.1 hm
  · rw [pinAnswer, hm]
    exact h.2 hm

/-- Settles O47: the pin is read after one place of the peer, which keeps it in agreement with the mode. -/
theorem pollReadyResult : Obligations.PollReadyResult := by
  intro s hl hpin
  have hpeer : (peerTurn (begin .pollReady s)).peer = (drift 1 s).peer := drift_begin_peer .pollReady 1 s
  have hagrees : PinAgrees (peerTurn (begin .pollReady s)).peer := pinAgrees_move _ _ hpin
  obtain ⟨hreceiving, hfilled⟩ := pinAnswer_of_agrees hagrees
  rw [hpeer] at hreceiving hfilled
  exact ⟨_, _, rfl, returned_of (gpio_moved (begin .pollReady s)) hl _, rfl, hpeer, hreceiving, hfilled⟩

/-- The read of `crc_failed`, issued in `s`. -/
def statusRead (s : State) : Byte × State := rregTx s.params.statusReg (begin .crcFailed s)

theorem exec_crcFailed (s : State) : exec .crcFailed s =
    .next (finish (success (.bit (crcTest s.params (statusRead s).1))) (statusRead s).2) := rfl

theorem statusRead_moved (s : State) : Moved (begin .crcFailed s) (statusRead s).2
    (readEvents s.params s.params.statusReg [(statusRead s).1]) 1 := rreg_moved _ (begin .crcFailed s)

theorem statusRead_peer (s : State) (hw : s.params.wf = true) : (statusRead s).2.peer = (drift 6 s).peer := by
  obtain ⟨-, -, -, -, hne, -⟩ := roles_ne hw
  rw [statusRead, rreg_peer, upRead, begin_params, if_neg hne.symm, drift_begin_peer]

theorem statusRead_faults (s : State) : (statusRead s).2.faults = s.faults := rreg_faults _ (begin .crcFailed s)

/-- The byte shows the CRC flag where the peer is in `Filled` at its exchange, the fourth place (R86). -/
theorem crcTest_statusRead (s : State) (hm : (drift 4 s).peer.mode = .filled) :
    crcTest s.params (statusRead s).1 = (drift 4 s).peer.crcf := by
  have hpeer : (atByte s.params.statusReg (begin .crcFailed s)).peer = (drift 4 s).peer := by
    rw [atByte_peer, drift_begin_peer]
  rw [statusRead, rreg_val, answerSingle, if_pos ⟨rfl, by rw [hpeer, hm]⟩, hpeer]
  exact crcTest_statusAnswer s.params _ _

/-- Settles O48: the answer is the test of the byte read. -/
theorem crcFailedResult : Obligations.CrcFailedResult := by
  intro s hw hl
  exact ⟨_, (statusRead s).1, exec_crcFailed s, returned_of (statusRead_moved s) hl _, statusRead_faults s,
    statusRead_peer s hw, crcTest_statusRead s⟩

/-! ### `read_frame` (R161) -/

/-- The obligation of `read_frame`, as R205 words it. -/
theorem frameReady_iff {x : Peer} : frameReady x = true ↔ x.mode = .filled ∧ x.crcf = false := by
  simp [frameReady]

/-- The state in which `read_frame`, issued in `s`, begins its burst: a broken obligation is recorded. -/
def frameEntry (s : State) : State :=
  raiseIf (!frameReady s.peer) (.precondReadFrame s.peer.mode s.peer.crcf s.peer.rdptr) (begin .readFrame s)

/-- The burst of a `read_frame` issued in `s`. -/
def frameBurst (s : State) : List Byte × State :=
  rburstTx (frameAnswer s) s.params.fifoReg frameLen (frameEntry s)

theorem exec_readFrame (s : State) :
    exec .readFrame s = .next (finish (success (.bytes (frameBurst s).1)) (frameBurst s).2) := rfl

theorem frameBurst_length (s : State) : (frameBurst s).1.length = 21 := rburstTx_length _ _ _

theorem frameBurst_moved (s : State) :
    Moved (begin .readFrame s) (frameBurst s).2 (readEvents s.params s.params.fifoReg (frameBurst s).1) 1 :=
  have h := rburst_moved (ans := frameAnswer s) s.params.fifoReg frameLen (frameEntry s)
  ⟨h.params, h.seq, h.line, h.upos, h.polls, h.requests, h.responses, h.trace⟩

theorem frameBurst_peer (s : State) :
    (frameBurst s).2.peer = { (drift 26 s).peer with rdptr := s.peer.rdptr + 21 } := by
  have hdrift : (drift (5 + frameLen) (frameEntry s)).peer = (drift 26 s).peer :=
    drift_congr (s := s) (t := frameEntry s) rfl rfl rfl 26
  rw [frameBurst, rburst_peer, hdrift]
  simp [upRead, frameEntry]

theorem frameBurst_rdptr (s : State) : (frameBurst s).2.peer.rdptr = s.peer.rdptr + 21 := by
  rw [frameBurst_peer]

/-- `F_PRECOND_READ_FRAME` is recorded exactly where the obligation is broken at the entry. -/
theorem frameBurst_faults (s : State) :
    (s.peer.mode = .filled ∧ s.peer.crcf = false → (frameBurst s).2.faults = s.faults) ∧
      (¬(s.peer.mode = .filled ∧ s.peer.crcf = false) → (frameBurst s).2.faults =
        insertFault (.precondReadFrame s.peer.mode s.peer.crcf s.peer.rdptr) s.faults) := by
  rw [← frameReady_iff, frameBurst, rburst_faults, frameEntry, raiseIf_faults, begin_faults]
  cases frameReady s.peer <;> simp

/-- Settles O49: the burst is the same whether the obligation is met or not, but for its bytes. -/
theorem readFrameTransfers : Obligations.ReadFrameTransfers := by
  intro s hl
  obtain ⟨hmet, hbroken⟩ := frameBurst_faults s
  exact ⟨_, _, exec_readFrame s, frameBurst_length s, returned_of (frameBurst_moved s) hl _, frameBurst_peer s, hmet,
    hbroken⟩

/-- A byte of `FIFO_REG` that R86 does not fix, the peer not calibrating: a draw, its busy bits clear where the register
is polled too (R82, log 19). -/
theorem answerBurst_fifo_drawn {s : State} (hw : s.params.wf = true) (hm : s.peer.mode ≠ .calibrating)
    (hf : fifoByte s = none) (i : Nat) : answerBurst s.params.fifoReg i s =
      if s.params.fifoReg = s.params.calPollReg then Config.freeByte s.io.tick &&& ~~~s.params.calBusyMask
      else Config.freeByte s.io.tick := by
  obtain ⟨hid, -, -, -, hstatus, -⟩ := roles_ne hw
  rw [answerBurst, if_neg hid.symm, if_pos rfl, hf, Option.getD_none, answerSingle, if_neg fun e => hstatus e.1]
  by_cases hpoll : s.params.fifoReg = s.params.calPollReg
  · rw [if_pos hpoll, if_pos hpoll, pollAnswer, if_neg hm, idleAnswer]
  · rw [if_neg hpoll, if_neg hpoll, if_pos rfl, hf, Option.getD_none]

section

variable {s : State} {i : Nat} (hi : i < 21)

include hi

/-- With a broken obligation every byte is the draw of its own exchange (R205, log 4). -/
theorem frameBurst_broken (h : ¬(s.peer.mode = .filled ∧ s.peer.crcf = false)) :
    (frameBurst s).1[i]? = some (Config.freeByte (s.io.tick + 4 + i)) := by
  have hanswer : frameAnswer s = answerDrawn := if_neg (frameReady_iff.not.2 h)
  rw [frameBurst, hanswer, rburst_drawn _ _ _ _ hi]
  rfl

/-- In `Filled`, behind the stored frame, R86 fixes no byte. -/
theorem frameBurst_past (hw : s.params.wf = true) (hm : s.peer.mode = .filled) (hc : s.peer.crcf = false)
    (hend : s.peer.filledLen ≤ s.peer.rdptr) : (frameBurst s).1[i]? = some
      (if s.params.fifoReg = s.params.calPollReg then Config.freeByte (s.io.tick + 4 + i) &&& ~~~s.params.calBusyMask
      else Config.freeByte (s.io.tick + 4 + i)) := by
  have hanswer : frameAnswer s = answerBurst s.params.fifoReg := if_pos (frameReady_iff.2 ⟨hm, hc⟩)
  have hstill : (drift (i + 4) (frameEntry s)).peer = s.peer :=
    drift_still (s := frameEntry s) _ (by simp [frameEntry, hm]) (by simp [frameEntry, hm])
  obtain ⟨u, hval, hp, hpeer, htick⟩ := rburst_val (ans := frameAnswer s) s.params.fifoReg frameLen (frameEntry s) i hi
  have hup : u.params = s.params := hp
  have hut : u.io.tick = s.io.tick + 4 + i := htick.trans (Nat.add_right_comm ..)
  rw [hstill] at hpeer
  have hnone : fifoByte u = none := by
    have hpast : ¬s.peer.rdptr + i < s.peer.filledLen := by omega
    simp [fifoByte, hpeer, upRead, frameEntry, hpast]
  have hbyte := answerBurst_fifo_drawn (s := u) (hup ▸ hw) (by simp [hpeer, upRead, hm]) hnone i
  rw [hup, hut] at hbyte
  rw [frameBurst, hval, hanswer, hbyte]

/-- A `read_frame` that finds nothing to hand out answers draws. -/
theorem frameBurst_drawn (hw : s.params.wf = true)
    (h : s.peer.mode ≠ .filled ∨ s.peer.crcf = true ∨ s.peer.filledLen ≤ s.peer.rdptr) :
    (frameBurst s).1[i]? = some
      (if s.peer.mode = .filled ∧ s.peer.crcf = false ∧ s.params.fifoReg = s.params.calPollReg then
        Config.freeByte (s.io.tick + 4 + i) &&& ~~~s.params.calBusyMask
      else Config.freeByte (s.io.tick + 4 + i)) := by
  by_cases hready : s.peer.mode = .filled ∧ s.peer.crcf = false
  · obtain ⟨hm, hc⟩ := hready
    rw [frameBurst_past hi hw hm hc (by simpa [hm, hc] using h)]
    simp only [hm, hc, true_and]
  · rw [frameBurst_broken hi hready, if_neg fun e => hready ⟨e.1, e.2.1⟩]

end

/-- Settles O51, byte by byte. -/
theorem secondReadFrameDraws : Obligations.SecondReadFrameDraws := by
  intro s hw h
  obtain ⟨hmet, hbroken⟩ := frameBurst_faults s
  refine ⟨_, exec_readFrame s, frameBurst_rdptr s, hmet, hbroken, ?_⟩
  rw [finish_responses, (frameBurst_moved s).responses, begin_responses, success]
  congr 4
  refine List.ext_getElem? fun i => ?_
  by_cases hi : i < 21
  · rw [frameBurst_drawn hi hw h, List.getElem?_map, List.getElem?_range hi, Option.map_some]
  · rw [List.getElem?_eq_none (by rw [frameBurst_length]; omega), List.getElem?_eq_none (by simp; omega)]

/-! ### `tune` and `rearm` (R157, R158) -/

/-- Settles O43: the receive-arm strobe finds the chip in `Standby` and configured. -/
theorem tuneArmsReceiver : Obligations.TuneArmsReceiver := by
  intro s c hw _ hc hm
  have hp := beforeArm_params (s := s) c
  have harmable : Mode.armable (beforeArm c s).peer.mode = true := by rw [beforeArm_mode c hw hm]; rfl
  obtain ⟨hfaults, hmode, hstay⟩ := strobeRx_arms (beforeArm c s) (hp ▸ hw) ((beforeArm_cfgOk c).trans hc) harmable
  rw [hp] at hfaults hmode hstay
  refine ⟨_, exec_tune c s, hfaults.trans (beforeArm_faults c hw), hmode, fun hscript => hstay ?_⟩
  rw [beforeArm_script, List.getElem?_drop]
  exact hscript

section

variable {s : State}

theorem exec_rearm (s : State) :
    exec .rearm s = .next (finish (success .empty) (strobeTx s.params.strobeRx id (beforeRearm s))) := rfl

/-- The two strobes of `rearm` as the block sees them. -/
theorem rearm_moved (s : State) :
    Moved (begin .rearm s) (strobeTx s.params.strobeRx id (beforeRearm s)) (rearmEvents s.params) 2 :=
  (strobe_moved s.params.strobeRstRdptr (begin .rearm s)).trans (strobe_moved s.params.strobeRx (beforeRearm s))

theorem beforeRearm_script (s : State) : (beforeRearm s).io.script = s.io.script.drop 3 := by
  rw [beforeRearm]
  exact performTx_script (.strobe _) (last := id) (fun _ => rfl) (begin .rearm s)

variable (hw : s.params.wf = true)

include hw

theorem beforeRearm_faults : (beforeRearm s).faults = s.faults := by
  obtain ⟨-, -, hne⟩ := strobes_ne hw
  exact (strobe_other _ (begin .rearm s) hne).1

/-- A chip that may be armed still may be after the first strobe. -/
theorem beforeRearm_armable (hm : Mode.armable s.peer.mode = true) : Mode.armable (beforeRearm s).peer.mode = true := by
  obtain ⟨hne, -, -⟩ := strobes_ne hw
  have hmode : (beforeRearm s).peer.mode = (drift 3 s).peer.mode := by
    rw [← drift_begin_peer .rearm]
    exact rst_mode (begin .rearm s) hne
  rw [hmode]
  exact drift_armable 3 hm

theorem rearm_rdptr : (strobeTx s.params.strobeRx id (beforeRearm s)).peer.rdptr = 0 := by
  obtain ⟨hne, -, hne'⟩ := strobes_ne hw
  rw [strobe_rdptr, beforeRearm_params, if_neg fun e => hne' e.1.symm]
  exact rdptr_rst (begin .rearm s) hne

end

/-- Settles O45: the first strobe moves the read pointer alone, the second arms the receiver. -/
theorem rearmResult : Obligations.RearmResult := by
  intro s hw hl
  obtain ⟨-, hne, hne'⟩ := strobes_ne hw
  have hp := beforeRearm_params s
  have hfaults := beforeRearm_faults hw
  refine ⟨_, exec_rearm s, returned_of (rearm_moved s) hl _, rearm_rdptr hw, fun b => ?_, ?_, ?_, fun b hb => ?_, ?_,
    fun hc hm => ?_⟩
  · rw [finish_peer, strobe_reg, beforeRearm, strobe_reg, begin_peer]
  · rw [finish_peer, strobe_idb, beforeRearm, strobe_idb, begin_peer]
  · rw [finish_peer, strobe_cfgOk, beforeRearm, strobe_cfgOk, begin_peer]
  · have hchan : (beforeRearm s).peer.chan s.params = some b := by rw [Peer.chan, beforeRearm, strobe_reg]; exact hb
    have hlistens := strobeTx_rxChan (beforeRearm s) (hp ▸ hne) (hp ▸ hne') (hp ▸ hchan)
    rwa [hp] at hlistens
  · have hupos : (beforeRearm s).upos.op? = some .rearm := by
      rw [beforeRearm, (strobe_moved _ _).upos]
      rfl
    rw [finish_faults, ← hfaults]
    rcases strobe_faults s.params.strobeRx (beforeRearm s) with hsame | ⟨m, hadded⟩
    · rw [hsame]
      exact fun _ hf => .inl hf
    · rw [hadded, hupos]
      exact fun f hf => (mem_insertFault.1 hf).symm.imp_right fun e => ⟨m, e⟩
  · obtain ⟨harmed, hmode, hstay⟩ := strobeRx_arms (beforeRearm s) (hp ▸ hw) ((strobe_cfgOk _ _).trans hc)
      (beforeRearm_armable hw (armable_of_mem hm))
    rw [hp] at harmed hmode hstay
    refine ⟨harmed.trans hfaults, hmode, fun hscript => hstay ?_⟩
    rw [beforeRearm_script, List.getElem?_drop]
    exact hscript

/-! ### `reset` (R150) -/

/-- `RESET_SEQ` as the block sees it. -/
theorem resetPeer_writes (s : State) :
    Moved s (resetPeer s) (writeAllEvents s.params s.params.resetSeq) s.params.resetSeq.length := by
  unfold resetPeer
  split
  · rename_i hseq
    rw [hseq]
    exact ⟨rfl, rfl, id, (Upos.plus_zero s.upos).symm, rfl, rfl, rfl, (List.append_nil _).symm⟩
  · rename_i t ts hseq
    rw [hseq]
    exact performAll_moved (t :: ts) (fun _ => rfl) s

/-- The peer at the end of `RESET_SEQ` is as the soft reset leaves it: in `Idle` it does nothing of its own. -/
theorem resetPeer_peer (s : State) : ∃ u, (resetPeer s).peer = (softReset u).peer := by
  unfold resetPeer
  split
  · exact ⟨_, rfl⟩
  · rename_i t ts _
    obtain ⟨u, -, hu⟩ := performAll_last (t :: ts) (List.cons_ne_nil t ts) softReset s
    exact ⟨u, by rw [hu, advanceUpos_peer, passing_peer, drift_still _ (by simp) (by simp)]⟩

/-- Only a receive-arm strobe inside `RESET_SEQ` can record a fault. -/
theorem resetPeer_faults (s : State) : (∀ f ∈ s.faults, f ∈ (resetPeer s).faults) ∧
    (WriteTx.strobe s.params.strobeRx ∉ s.params.resetSeq → (resetPeer s).faults = s.faults) := by
  unfold resetPeer
  split
  · exact ⟨fun _ hf => hf, fun _ => rfl⟩
  · rename_i t ts hseq
    rw [hseq]
    exact performAll_faults (t :: ts) (last := softReset) (fun _ => rfl) (fun _ => rfl) s

/-- Settles O30: whatever `RESET_SEQ` did, the soft reset comes last. -/
theorem resetOperationResult : Obligations.ResetOperationResult := by
  intro s hl
  obtain ⟨u, hpeer⟩ := resetPeer_peer (begin .reset s)
  obtain ⟨hkept, hsame⟩ := resetPeer_faults (begin .reset s)
  refine ⟨_, rfl, returned_of (resetPeer_writes (begin .reset s)) hl _, ?_⟩
  rw [finish_peer, hpeer]
  exact ⟨rfl, rfl, rfl, fun _ => rfl, hkept, hsame⟩

end Sys2Proof.Machine

/-! # The calibration

`configure` (spec/41_radio_driver.md R151 to R154): its turns of the poll loop, its state at the first poll, and its ends. -/

namespace Sys2Proof.Machine

open Sys2Proof.Safety

/-! ### A turn of the poll loop (R153) -/

/-- A step while `configure` polls is one more turn. -/
theorem step_polling {s : State} (hw : s.params.wf = true) (hp : Polling s) : step s = .next (configurePoll s) := by
  rw [step, if_pos hw, hp]
  exact if_pos ⟨rfl, rfl⟩

/-- The byte a turn of the poll loop reads. -/
def pollByte (s : State) : Byte := (rregTx s.params.calPollReg s).1

/-- The state behind the read of a turn. -/
def afterPoll (s : State) : State := (rregTx s.params.calPollReg s).2

section

variable {s : State}

theorem afterPoll_moved (s : State) :
    Moved s (afterPoll s) (readEvents s.params s.params.calPollReg [pollByte s]) 1 := rreg_moved _ s

theorem afterPoll_params (s : State) : (afterPoll s).params = s.params := rregTx_params _ s

theorem afterPoll_peer (s : State) : (afterPoll s).peer = upRead s.params s.params.calPollReg 1 (drift 6 s).peer :=
  rreg_peer _ s

theorem afterPoll_faults (s : State) : (afterPoll s).faults = s.faults := rreg_faults _ s

theorem afterPoll_reg (s : State) : (afterPoll s).peer.reg = s.peer.reg := rreg_reg _ s

theorem afterPoll_cfgOk (s : State) : (afterPoll s).peer.cfgOk = s.peer.cfgOk := rreg_cfgOk _ s

theorem afterPoll_script (s : State) : (afterPoll s).io.script = s.io.script.drop 6 := by
  rw [afterPoll, rregTx_passing]
  rfl

theorem configurePoll_of_idle (h : pollByte s &&& s.params.calBusyMask = 0#8) :
    configurePoll s = configureTail (afterPoll s) :=
  configurePoll_done (Bool.not_eq_true _ ▸ mt (busy_iff s.params (pollByte s)).2 (not_not.2 h))

theorem configurePoll_of_busy (h : pollByte s &&& s.params.calBusyMask ≠ 0#8) (hl : BelowLimit s.params (s.polls + 1)) :
    configurePoll s = { afterPoll s with upos := s.upos, polls := s.polls + 1 } :=
  configurePoll_wait ((busy_iff s.params (pollByte s)).1 h) ((below_iff _ _).1 hl)

theorem configurePoll_of_limit (h : pollByte s &&& s.params.calBusyMask ≠ 0#8)
    (hl : ¬BelowLimit s.params (s.polls + 1)) : configurePoll s = failWith (.calStuck (pollByte s))
      { afterPoll s with peer := { (afterPoll s).peer with cfgOk := false }, polls := 0 } :=
  configurePoll_stuck ((busy_iff s.params (pollByte s)).1 h)
    (Bool.not_eq_false _ ▸ mt (below_iff s.params (s.polls + 1)).2 hl)

/-- What a turn of the poll loop does, by its three outcomes. -/
theorem configurePoll_turn (hw : s.params.wf = true) (hl : s.line = Line.quiet) (hp : Polling s) :
    PollTurn s (configurePoll s) [] s.peer.reg s.faults s.polls (pollByte s) := by
  have hkept := configurePoll_identityKept s
  have hended := configurePoll_ended hp
  have hread := afterPoll_moved s
  refine ⟨hkept.params, hended.seq, hended.line hl, hkept.requests, fun hbusy hbelow => ?_, fun hbusy hlimit => ?_,
    fun hidle => ?_⟩
  · rw [configurePoll_of_busy hbusy hbelow, List.append_nil]
    exact ⟨hp, rfl, afterPoll_faults s, afterPoll_reg s, afterPoll_cfgOk s, hread.responses, hread.trace⟩
  · rw [configurePoll_of_limit hbusy hlimit, List.append_nil]
    refine ⟨rfl, congrArg (insertFault (.calStuck (pollByte s))) (afterPoll_faults s), afterPoll_reg s, rfl, ?_,
      hread.trace⟩
    rw [failWith, finish_responses, raise_responses, hread.responses]
    rfl
  · obtain ⟨hfaults, hreg, hcfg⟩ := tail_facts (afterPoll s) (by rwa [afterPoll_params])
    obtain ⟨u, bs, hu, hlen, hmoved⟩ := tail_moved (afterPoll s)
    rw [afterPoll_params, afterPoll_reg] at hreg
    rw [afterPoll_params] at hlen hmoved
    rw [configurePoll_of_idle hidle, List.append_nil]
    refine ⟨bs, hlen, rfl, hfaults.trans (afterPoll_faults s), hreg, hcfg, ?_, ?_⟩
    · rw [hu, finish_responses, hmoved.responses, hread.responses]
      rfl
    · rw [hu, finish_trace, hmoved.trace, hread.trace]

/-- A stretch in which nothing is answered, and the turn that follows it. -/
theorem pollTurn_after {s t u : State} {before : List Event} {m : Memory} {fs : List FaultRecord} {k : Nat} {v : Byte}
    (h : Undisturbed s u) (hreq : u.io.requests = s.io.requests) (htrace : u.io.trace = s.io.trace ++ before)
    (turn : PollTurn u t [] m fs k v) : PollTurn s t before m fs k v := by
  obtain ⟨hparams, hseq, hline, hrequests, hwaits, hstuck, hdone⟩ := turn
  rw [h.params, h.cfgOk, h.responses, htrace, List.append_nil] at hwaits
  rw [h.params, h.responses, htrace, List.append_nil] at hstuck hdone
  exact ⟨hparams.trans h.params, hseq.trans h.seq, hline, hrequests.trans hreq, hwaits, hstuck, hdone⟩

end

/-! ### What a turn leaves of the peer -/

section

variable {s : State}

theorem rreg_rxChan (a : RegAddr) (s : State) : (rregTx a s).2.peer.rxChan = s.peer.rxChan := by
  rw [rreg_peer, upRead, drift_rxChan]

theorem rreg_rdptr {a : RegAddr} (h : s.params.fifoReg ≠ a) : (rregTx a s).2.peer.rdptr = s.peer.rdptr := by
  rw [rreg_peer, upRead, if_neg h.symm, drift_rdptr]

theorem wreg_rxChan (a : RegAddr) (v : Byte) (s : State) : (wregTx a v id s).peer.rxChan = s.peer.rxChan := by
  rw [wreg_peer, upWrite, drift_rxChan]

theorem wreg_rdptr (a : RegAddr) (v : Byte) (s : State) : (wregTx a v id s).peer.rdptr = s.peer.rdptr := by
  rw [wreg_peer, upWrite, drift_rdptr]

/-- The standby strobe leaves the read pointer alone. -/
theorem standby_rdptr (s : State) : (strobeTx s.params.strobeStandby id s).peer.rdptr = s.peer.rdptr := by
  rw [strobe_rdptr, if_neg fun h => h.2 rfl]

theorem status_rxChan (rs : List RegAddr) : ∀ s : State, (readStatus rs s).2.peer.rxChan = s.peer.rxChan := by
  induction rs with
  | nil => exact fun _ => rfl
  | cons a rs ih => exact fun s => (ih _).trans (rreg_rxChan a s)

theorem status_rdptr (rs : List RegAddr) : ∀ s : State, s.params.fifoReg ∉ rs →
    (readStatus rs s).2.peer.rdptr = s.peer.rdptr := by
  induction rs with
  | nil => exact fun _ _ => rfl
  | cons a rs ih =>
    intro s h
    obtain ⟨ha, hrs⟩ := not_or.1 (mt List.mem_cons.2 h)
    exact (ih _ (by rwa [rregTx_params])).trans (rreg_rdptr ha)

/-- The state of `configure` before its last strobe, the poll loop having ended in `s`. -/
def trimmed (s : State) : State :=
  wregTx s.params.trim2.1 s.params.trim2.2 id
    (wregTx s.params.trim1.1 s.params.trim1.2 id (readStatus s.params.calStatusRegs s).2)

theorem trimmed_params (s : State) : (trimmed s).params = s.params := by simp [trimmed]

/-- `configure` ends with the standby strobe and `cfg_ok`. -/
theorem tail_peer (s : State) :
    (configureTail s).peer = { (strobeTx s.params.strobeStandby id (trimmed s)).peer with cfgOk := true } := rfl

theorem tail_rxChan (hw : s.params.wf = true) : (configureTail s).peer.rxChan = s.peer.rxChan := by
  obtain ⟨-, hne, -⟩ := strobes_ne hw
  rw [tail_peer, (strobe_other _ _ (by rwa [trimmed_params])).2, trimmed, wreg_rxChan, wreg_rxChan, status_rxChan]

theorem tail_rdptr (h : s.params.fifoReg ∉ s.params.calStatusRegs) :
    (configureTail s).peer.rdptr = s.peer.rdptr := by
  have hstandby := standby_rdptr (trimmed s)
  rw [trimmed_params] at hstandby
  rw [tail_peer, hstandby, trimmed, wreg_rdptr, wreg_rdptr, status_rdptr _ _ h]

/-- A view of the peer that neither a poll, nor the end of `configure`, nor `cfg_ok` moves. -/
theorem configurePoll_keeps {α : Type} {g : Peer → α} (hcfg : ∀ x b, g { x with cfgOk := b } = g x)
    (hread : g (afterPoll s).peer = g s.peer) (htail : g (configureTail (afterPoll s)).peer = g (afterPoll s).peer) :
    g (configurePoll s).peer = g s.peer := by
  by_cases hbusy : pollByte s &&& s.params.calBusyMask = 0#8
  · rw [configurePoll_of_idle hbusy, htail, hread]
  · by_cases hlimit : BelowLimit s.params (s.polls + 1)
    · rw [configurePoll_of_busy hbusy hlimit]
      exact hread
    · rw [configurePoll_of_limit hbusy hlimit]
      exact (hcfg _ false).trans hread

theorem configurePoll_rxChan (hw : s.params.wf = true) : (configurePoll s).peer.rxChan = s.peer.rxChan :=
  configurePoll_keeps (g := Peer.rxChan) (fun _ _ => rfl) (rreg_rxChan _ s)
    (tail_rxChan (s := afterPoll s) (by rwa [afterPoll_params]))

theorem configurePoll_rdptr (hpoll : s.params.fifoReg ≠ s.params.calPollReg)
    (hstatus : s.params.fifoReg ∉ s.params.calStatusRegs) : (configurePoll s).peer.rdptr = s.peer.rdptr :=
  configurePoll_keeps (g := Peer.rdptr) (fun _ _ => rfl) (rreg_rdptr hpoll)
    (tail_rdptr (s := afterPoll s) (by rwa [afterPoll_params]))

end

/-- Settles O32: the step is a turn of the loop, in whatever state it finds the peer. -/
theorem configurePollTurn : Obligations.ConfigurePollTurn := by
  intro s hw hl hp
  exact ⟨_, pollByte s, step_polling hw hp, configurePoll_turn hw hl hp, (configurePoll_identityKept s).idb,
    configurePoll_rxChan hw, configurePoll_rdptr⟩

/-! ### The first poll (R152, R153, R82) -/

/-- The state of `configure`, issued in `s`, before the trigger. -/
def beforeTrigger (s : State) : State :=
  strobeTx s.params.strobeStandby id (configureTable s.params.regTable (begin .configure s))

theorem exec_configure (s : State) : exec .configure s = .next (configurePoll (atPoll s)) := rfl

theorem beforeTrigger_params (s : State) : (beforeTrigger s).params = s.params := by simp [beforeTrigger]

theorem atPoll_eq (s : State) : atPoll s =
    { performAll s.params.calTriggerSeq startCalibration (beforeTrigger s) with polls := 0 } := by
  rw [atPoll, enterCalibration, configureTable_params, begin_params]
  rfl

/-- The table phase and the standby strobe bring a chip that does not calibrate to `Standby`. -/
theorem beforeTrigger_mode {s : State} (hm : s.peer.mode ≠ .calibrating) : (beforeTrigger s).peer.mode = .standby := by
  have hmode := standby_mode (table_notcal s.params.regTable (begin .configure s) hm)
  rwa [configureTable_params, begin_params] at hmode

theorem beforeTrigger_script (s : State) :
    (beforeTrigger s).io.script = s.io.script.drop ((tableEvents s.params).length + 3) := by
  have hscript := performTx_script (.strobe s.params.strobeStandby) (last := id) (fun _ => rfl)
    (configureTable s.params.regTable (begin .configure s))
  rw [table_script, List.drop_drop] at hscript
  exact hscript

/-- `configure` up to its first poll and the turn after it. -/
theorem configure_turn {s : State} (hw : s.params.wf = true) (hl : s.line = Line.quiet) :
    PollTurn s (configurePoll (atPoll s)) (configureHeadEvents s.params)
      (applyWrites (headWrites s.params) s.peer.reg) (atPoll s).faults 0 (pollByte (atPoll s)) := by
  have hundisturbed := atPoll_undisturbed s
  have hturn := configurePoll_turn (hundisturbed.params ▸ hw) (hundisturbed.line hl) (atPoll_polling s)
  rw [atPoll_reg] at hturn
  exact pollTurn_after hundisturbed (head_moved s).requests (head_moved s).trace hturn

/-- The peer goes on from the end of a run of events. -/
theorem drift_passing (es : List Event) (n : Nat) (s : State) :
    (drift n (passing es s)).peer = (drift (es.length + n) s).peer := by
  rw [drift_add]
  exact drift_congr (s := drift es.length s) (t := passing es s) rfl (by simp) (by simp) n

/-- The trigger's effect on a chip in `Standby`: the state `u` at its last exchange, one place before the first poll. -/
theorem atPoll_trigger {s : State} (hm : s.peer.mode ≠ .calibrating) (hne : s.params.calTriggerSeq ≠ [])
    (hrx : WriteTx.strobe s.params.strobeRx ∉ s.params.calTriggerSeq) :
    ∃ u : State, u.peer.mode = .calibrating ∧
      u.io.script = s.io.script.drop ((configureHeadEvents s.params).length - 1) ∧
      ∀ n, (drift n (atPoll s)).peer = (drift (1 + n) u).peer := by
  have hp := beforeTrigger_params s
  obtain ⟨u, hu, hum, hus⟩ := performAll_standby s.params.calTriggerSeq (beforeTrigger s) startCalibration
    (fun _ => rfl) hne (hp ▸ hrx) (beforeTrigger_mode hm)
  have hlen : 1 ≤ (writeAllEvents s.params s.params.calTriggerSeq).length := by
    obtain ⟨t, ts, hts⟩ := List.exists_cons_of_ne_nil hne
    rw [hts]
    cases t <;> simp [writeAllEvents, writeTxEvents, strobeEvents, wregEvents, wburstEvents]
  refine ⟨startCalibration u, by rw [startCalibration_mode, if_pos hum], ?_, fun n => ?_⟩
  · rw [startCalibration_script, hus, beforeTrigger_script, List.drop_drop, hp, headLen]
    congr 1
    omega
  · rw [atPoll_eq, hu]
    exact (drift_congr (s := passing [.csDeassert] (startCalibration u))
      (t := { advanceUpos (passing [.csDeassert] (startCalibration u)) with polls := 0 }) rfl rfl rfl n).trans
        (drift_passing _ n _)

/-- R82: a peer that keeps still calibrates at the first poll, and up to six places on. -/
theorem atPoll_calibrates {s : State} (hm : s.peer.mode ≠ .calibrating) (hne : s.params.calTriggerSeq ≠ [])
    (hrx : WriteTx.strobe s.params.strobeRx ∉ s.params.calTriggerSeq)
    (hq : Quiet ((configureHeadEvents s.params).length + 6) s) {n : Nat} (hn : n ≤ 6) :
    (drift n (atPoll s)).peer.mode = .calibrating := by
  obtain ⟨u, hum, hus, hdrift⟩ := atPoll_trigger hm hne hrx
  have hquiet : Quiet (1 + n) u := by
    have hlen := headLen s
    exact (hq.mono (m := ((configureHeadEvents s.params).length - 1) + (1 + n)) (by omega)).after hus
  rw [hdrift, drift_quiet hquiet, hum]

/-- A turn whose byte is busy leaves the mode to the peer. -/
theorem configurePoll_mode_of_busy {s : State} (h : pollByte s &&& s.params.calBusyMask ≠ 0#8) :
    (configurePoll s).peer.mode = (drift 6 s).peer.mode := by
  have hread : (afterPoll s).peer.mode = (drift 6 s).peer.mode := by
    rw [afterPoll_peer]
    rfl
  by_cases hlimit : BelowLimit s.params (s.polls + 1)
  · rw [configurePoll_of_busy h hlimit]
    exact hread
  · rw [configurePoll_of_limit h hlimit]
    exact hread

/-- A poll answered in `Calibrating` is busy (R82). -/
theorem pollByte_busy {s : State} (hw : s.params.wf = true) (hm : (drift 4 s).peer.mode = .calibrating) :
    pollByte s &&& s.params.calBusyMask ≠ 0#8 := (busy_iff s.params (pollByte s)).2 (poll_calibrating hw hm)

/-- A poll answered outside `Calibrating` is not busy (R82, log 19). -/
theorem pollByte_idle {s : State} (hw : s.params.wf = true)
    (h : s.params.calPollReg = s.params.statusReg → (drift 4 s).peer.mode = .filled →
      s.params.calBusyMask.getLsbD s.params.crcBit.val = false)
    (hm : (drift 4 s).peer.mode ≠ .calibrating) : pollByte s &&& s.params.calBusyMask = 0#8 :=
  not_not.1 (mt (busy_iff s.params (pollByte s)).1 (Bool.eq_false_iff.1 (poll_idle hw h hm)))

/-- Settles O31: `configure` up to its first poll, and one turn of the loop. -/
theorem configureFirstPoll : Obligations.ConfigureFirstPoll := by
  intro s hw hl
  have hwp : (atPoll s).params.wf = true := (atPoll_undisturbed s).params ▸ hw
  obtain ⟨hkept, hsame⟩ := atPoll_faults s hw
  refine ⟨_, pollByte (atPoll s), (atPoll s).faults, exec_configure s, hkept, hsame, configure_turn hw hl,
    fun hm hne hrx hq => ?_⟩
  have hbusy := pollByte_busy hwp (atPoll_calibrates hm hne hrx hq (n := 4) (by omega))
  rw [configurePoll_mode_of_busy hbusy]
  rw [(atPoll_undisturbed s).params] at hbusy
  exact ⟨hbusy, atPoll_calibrates hm hne hrx hq le_rfl⟩

/-! ### Polling a peer that keeps still (R154, R201) -/

/-- `t` comes after `s` by `n` turns of the poll loop that read the busy bytes `vs`, the peer keeping still. -/
structure KeepsPolling (n : Nat) (vs : List Byte) (s t : State) : Prop where
  run : Reaches n s t
  params : t.params = s.params
  seq : t.seq = s.seq
  line : t.line = Line.quiet
  polling : Polling t
  polls : t.polls = s.polls + n
  faults : t.faults = s.faults
  responses : t.io.responses = s.io.responses
  script : t.io.script = s.io.script.drop (6 * n)
  peer : t.peer = { s.peer with
    rdptr := if s.params.calPollReg = s.params.fifoReg then s.peer.rdptr + n else s.peer.rdptr }
  length : vs.length = n
  busy : ∀ v ∈ vs, v &&& s.params.calBusyMask ≠ 0#8
  trace : t.io.trace = s.io.trace ++ vs.flatMap fun v => readEvents s.params s.params.calPollReg [v]

/-- A still peer that calibrates answers busy, and the read pointer alone may move. -/
theorem afterPoll_still {s : State} (hw : s.params.wf = true) (hm : s.peer.mode = .calibrating) (hq : Quiet 6 s) :
    pollByte s &&& s.params.calBusyMask ≠ 0#8 ∧ (afterPoll s).peer = { s.peer with
      rdptr := if s.params.calPollReg = s.params.fifoReg then s.peer.rdptr + 1 else s.peer.rdptr } := by
  refine ⟨pollByte_busy hw ?_, ?_⟩
  · rw [drift_quiet (hq.mono (by omega)), hm]
  · rw [afterPoll_peer, drift_quiet hq]
    rfl

/-- One more turn, the peer keeping still: it is busy too, and the read pointer of a poll register that is the FIFO moves
on by one. -/
theorem KeepsPolling.next {n : Nat} {vs : List Byte} {s t : State} (h : KeepsPolling n vs s t)
    (hw : s.params.wf = true) (hm : s.peer.mode = .calibrating) (hq : Quiet (6 * (n + 1)) s) :
    Reaches (n + 1) s (configurePoll t) ∧ PollTurn t (configurePoll t) [] t.peer.reg t.faults t.polls (pollByte t) ∧
      (∀ v ∈ vs ++ [pollByte t], v &&& s.params.calBusyMask ≠ 0#8) ∧
      (afterPoll t).peer = { s.peer with
        rdptr := if s.params.calPollReg = s.params.fifoReg then s.peer.rdptr + (n + 1) else s.peer.rdptr } := by
  have hwt : t.params.wf = true := h.params ▸ hw
  obtain ⟨hbusy, hpeer⟩ := afterPoll_still hwt (by rw [h.peer, hm]) (hq.after h.script)
  rw [h.params] at hbusy hpeer
  refine ⟨reaches_add.2 ⟨t, h.run, reaches_one.2 (step_polling hwt h.polling)⟩, configurePoll_turn hwt h.line h.polling,
    List.forall_mem_append.2 ⟨h.busy, List.forall_mem_singleton.2 hbusy⟩, ?_⟩
  rw [hpeer, h.peer]
  by_cases hfifo : s.params.calPollReg = s.params.fifoReg
  · simp only [if_pos hfifo, Nat.add_assoc]
  · simp only [if_neg hfifo]

/-- The trace of one more turn. -/
theorem KeepsPolling.trace_next {n : Nat} {vs : List Byte} {s t : State} (h : KeepsPolling n vs s t) (v : Byte) :
    t.io.trace ++ [] ++ readEvents t.params t.params.calPollReg [v] =
      s.io.trace ++ (vs ++ [v]).flatMap fun w => readEvents s.params s.params.calPollReg [w] := by
  rw [h.params, h.trace, List.append_nil, List.flatMap_append, List.flatMap_singleton, List.append_assoc]

/-- As long as the limit is not reached, a `configure` whose peer keeps still in `Calibrating` polls on. -/
theorem keepsPolling {s : State} (hw : s.params.wf = true) (hl : s.line = Line.quiet) (hp : Polling s)
    (hm : s.peer.mode = .calibrating) : ∀ n, BelowLimit s.params (s.polls + n) → Quiet (6 * n) s →
    ∃ vs t, KeepsPolling n vs s t := by
  intro n
  induction n with
  | zero =>
    exact fun _ _ => ⟨[], s, reaches_zero.2 rfl, rfl, rfl, hl, hp, rfl, rfl, rfl, rfl, by simp, rfl, nofun, by simp⟩
  | succ n ih =>
    intro hbelow hq
    obtain ⟨vs, t, ht⟩ := ih (fun l h => by have := hbelow l h; omega) (hq.mono (by omega))
    obtain ⟨hrun, hturn, hbusy, hpeer⟩ := ht.next hw hm hq
    have hlast : pollByte t &&& t.params.calBusyMask ≠ 0#8 := ht.params ▸ hbusy _ (by simp)
    have hlimit : BelowLimit t.params (t.polls + 1) := by
      rw [ht.params, ht.polls]
      exact hbelow
    obtain ⟨hu, hpolls, hfaults, -, -, hresponses, htrace⟩ := hturn.waits hlast hlimit
    have hwaits := configurePoll_of_busy hlast hlimit
    refine ⟨vs ++ [pollByte t], configurePoll t, hrun, hturn.params.trans ht.params, hturn.seq.trans ht.seq, hturn.line,
      ?_, ?_, hfaults.trans ht.faults, hresponses.trans ht.responses, ?_, ?_, ?_, hbusy,
      htrace.trans (ht.trace_next _)⟩
    · rw [Polling, hu, hturn.params]
    · rw [hpolls, ht.polls, Nat.add_assoc]
    · rw [hwaits, Nat.mul_succ, ← List.drop_drop, ← ht.script]
      exact afterPoll_script t
    · rw [hwaits]
      exact hpeer
    · rw [List.length_append, ht.length, List.length_singleton]

/-- Settles O35: all turns but the last wait, and the last one meets the limit. -/
theorem stuckCalibrationReported : Obligations.StuckCalibrationReported := by
  intro s l hw hl hp hlimit hlt hm hq
  obtain ⟨n, hn⟩ : ∃ n, l - s.polls = n + 1 := ⟨l - s.polls - 1, by omega⟩
  rw [hn] at hq ⊢
  have hbelow : BelowLimit s.params (s.polls + n) := fun k hk => by
    obtain rfl : l = k := Option.some.inj (hlimit.symm.trans hk)
    omega
  obtain ⟨vs, t, ht⟩ := keepsPolling hw hl hp hm n hbelow (hq.mono (by omega))
  obtain ⟨hrun, hturn, hbusy, hpeer⟩ := ht.next hw hm hq
  have hlast : pollByte t &&& t.params.calBusyMask ≠ 0#8 := ht.params ▸ hbusy _ (by simp)
  have hreached : ¬BelowLimit t.params (t.polls + 1) := fun h => by
    have := h l (ht.params ▸ hlimit)
    have := ht.polls
    omega
  obtain ⟨hu, hfaults, -, -, hresponses, htrace⟩ := hturn.stuck hlast hreached
  refine ⟨configurePoll t, vs ++ [pollByte t], pollByte t, hrun, hu, hturn.seq.trans ht.seq, ?_, ?_, ?_, ?_,
    List.getLast?_concat, hbusy, htrace.trans (ht.trace_next _)⟩
  · rw [configurePoll_of_limit hlast hreached]
    show { (afterPoll t).peer with cfgOk := false } = _
    rw [hpeer]
  · rw [hfaults, ht.faults]
  · rw [hresponses, ht.responses]
  · rw [List.length_append, ht.length, List.length_singleton]

/-! ### A calibration that completes (R154, A_CAL_COMPLETES) -/

/-- A turn from a state in which the peer is out of `Calibrating` is the last one. -/
theorem configurePoll_returns {s : State} (hw : s.params.wf = true) (hl : s.line = Line.quiet) (hp : Polling s)
    (hidle : pollByte s &&& s.params.calBusyMask = 0#8) :
    ∃ t bs, Reaches 1 s t ∧ t.upos = .idle ∧ t.line = Line.quiet ∧ t.peer.cfgOk = true ∧ t.faults = s.faults ∧
      t.io.responses = s.io.responses ++ [⟨0x00#8, .bytes bs⟩] ∧ bs.length = s.params.calStatusRegs.length := by
  have hturn := configurePoll_turn hw hl hp
  obtain ⟨bs, hlen, hu, hfaults, -, hcfg, hresponses, -⟩ := hturn.done hidle
  exact ⟨_, bs, reaches_one.2 (step_polling hw hp), hu, hturn.line, hcfg, hfaults, hresponses, hlen⟩

/-- Settles O36, by induction on the steps after which the peer is out of `Calibrating`: a turn before them that is not
the last one waits. -/
theorem configureReturnsIfCalibrationCompletes : Obligations.ConfigureReturnsIfCalibrationCompletes := by
  intro s hw hl hp hnone hbit ⟨n, t, hrun, hmode⟩
  induction n generalizing s with
  | zero =>
    obtain rfl := reaches_zero.1 hrun
    exact ⟨1, configurePoll_returns hw hl hp
      (pollByte_idle hw (fun h _ => hbit h) (drift_not_calibrating 4 (hmode hp)))⟩
  | succ n ih =>
    by_cases hbusy : pollByte s &&& s.params.calBusyMask = 0#8
    · exact ⟨1, configurePoll_returns hw hl hp hbusy⟩
    · have hturn := configurePoll_turn hw hl hp
      have hbelow : BelowLimit s.params (s.polls + 1) := fun l h => by cases hnone.symm.trans h
      obtain ⟨hu, -, hfaults, -, -, hresponses, -⟩ := hturn.waits hbusy hbelow
      obtain ⟨u, hstep, hrest⟩ := reaches_succ.1 hrun
      obtain rfl : configurePoll s = u := Host.Outcome.next.inj ((step_polling hw hp).symm.trans hstep)
      have hparams := hturn.params
      obtain ⟨k, v, bs, hv, hidle, hline, hcfg, hfaults', hresponses', hlen⟩ := ih (configurePoll s) (hparams ▸ hw)
        hturn.line (by rw [Polling, hu, hparams]) (hparams ▸ hnone) (hparams ▸ hbit) hrest
      exact ⟨k + 1, v, bs, reaches_succ.2 ⟨_, hstep, hv⟩, hidle, hline, hcfg, hfaults'.trans hfaults,
        hresponses'.trans (congrArg (· ++ _) hresponses), hlen.trans (by rw [hparams])⟩

end Sys2Proof.Machine

/-! # A `configure` that completes

`configure` to its successful end in one step (spec/41_radio_driver.md R151, R153): from the standby strobe on the receiver
is not armed, so that no frame can arrive and the peer is as it was but for what the transactions write. -/

namespace Sys2Proof.Machine

open Sys2Proof.Safety

/-! ### A receiver that is not armed

A frame is stored in `Receiving` alone (spec/20_memory.md R84). -/

/-- `y` comes after `x`, and neither a frame nor a receive-arm strobe has come between. -/
structure StoreKept (x y : Peer) : Prop where
  fifo : y.fifo = x.fifo
  filledLen : y.filledLen = x.filledLen
  crcf : y.crcf = x.crcf
  rxChan : y.rxChan = x.rxChan

theorem StoreKept.refl (x : Peer) : StoreKept x x := ⟨rfl, rfl, rfl, rfl⟩

/-- The fields that may have moved, and the rest. -/
theorem StoreKept.eq {x y : Peer} (h : StoreKept x y) : y = { x with
    mode := y.mode, reg := y.reg, idb := y.idb, rdptr := y.rdptr, ready := y.ready, cfgOk := y.cfgOk } := by
  rw [← h.fifo, ← h.filledLen, ← h.crcf, ← h.rxChan]

theorem StoreKept.enter {x y : Peer} (h : StoreKept x y) (m : Mode) (d : Bool) : StoreKept x (y.enter m d) :=
  ⟨h.fifo, h.filledLen, h.crcf, h.rxChan⟩

theorem StoreKept.upWrite {x y : Peer} (h : StoreKept x y) (a : RegAddr) (v : Byte) : StoreKept x (upWrite a v y) :=
  ⟨h.fifo, h.filledLen, h.crcf, h.rxChan⟩

theorem StoreKept.upRead {x y : Peer} (h : StoreKept x y) (p : ChipParams) (a : RegAddr) (n : Nat) :
    StoreKept x (upRead p a n y) := ⟨h.fifo, h.filledLen, h.crcf, h.rxChan⟩

theorem StoreKept.upBurst {x y : Peer} (h : StoreKept x y) (p : ChipParams) (a : RegAddr) (i : Nat) (vs : List Byte) :
    StoreKept x (upBurst p a i vs y) := by
  rw [upBurst_rest]
  exact ⟨h.fifo, h.filledLen, h.crcf, h.rxChan⟩

/-- Of the strobes only receive-arm touches any of it (R81). -/
theorem StoreKept.applyStrobe {x : Peer} {s : State} (h : StoreKept x s.peer) {b : Byte} (hb : b ≠ s.params.strobeRx) :
    StoreKept x (applyStrobe b s).peer := by
  unfold Machine.applyStrobe
  split_ifs
  · exact h.enter _ _
  · exact ⟨h.fifo, h.filledLen, h.crcf, h.rxChan⟩
  · exact h

/-- The same, and in `y` no frame can arrive. -/
structure Unarmed (x y : Peer) : Prop extends StoreKept x y where
  mode : y.mode ≠ .receiving

/-- Of the peer's own steps there is then the end of a calibration alone. -/
theorem Unarmed.move {x y : Peer} (h : Unarmed x y) (m : PeerMove) (d : Bool) : Unarmed x (y.move m d) := by
  rcases Peer.move_cases y m d with hm | ⟨-, hm⟩ | ⟨f, c, hreceiving, -⟩
  · rwa [hm]
  · rw [hm]
    exact ⟨h.enter _ _, nofun⟩
  · exact absurd hreceiving h.mode

theorem Unarmed.drift {x : Peer} {s : State} (h : Unarmed x s.peer) (n : Nat) : Unarmed x (drift n s).peer :=
  drift_keeps (P := Unarmed x) (fun _ m d hy => hy.move m d) n s h

theorem Unarmed.passing {x : Peer} {s : State} (h : Unarmed x s.peer) (es : List Event) :
    Unarmed x (passing es s).peer := h.drift es.length

section

variable {x : Peer} {s : State}

theorem Unarmed.wreg (h : Unarmed x s.peer) (a : RegAddr) (v : Byte) : Unarmed x (wregTx a v id s).peer := by
  rw [wreg_peer]
  exact ⟨(h.drift 4).upWrite a v, (h.drift 4).mode⟩

theorem Unarmed.rreg (h : Unarmed x s.peer) (a : RegAddr) : Unarmed x (rregTx a s).2.peer := by
  rw [rreg_peer]
  exact ⟨(h.drift 6).upRead _ a 1, (h.drift 6).mode⟩

theorem Unarmed.status (rs : List RegAddr) : ∀ {s : State}, Unarmed x s.peer → Unarmed x (readStatus rs s).2.peer := by
  induction rs with
  | nil => exact fun h => h
  | cons a rs ih => exact fun h => ih (h.rreg a)

/-- The standby strobe on a chip that does not calibrate leads out of `Receiving`. -/
theorem StoreKept.standby (h : StoreKept x (drift 2 s).peer) (hm : s.peer.mode ≠ .calibrating) :
    Unarmed x (strobeTx s.params.strobeStandby id s).peer := by
  have hmode : (Machine.passing [.csAssert, .xchg s.params.strobeStandby none] s).peer.mode ≠ .calibrating :=
    drift_not_calibrating 2 hm
  have hreaction : Unarmed x
      (strobeStandby (Machine.passing [.csAssert, .xchg s.params.strobeStandby none] s)).peer := by
    refine ⟨StoreKept.enter h _ _, ?_⟩
    rw [strobeStandby_mode, if_neg hmode]
    nofun
  rw [strobeTx_id, applyStrobe_strobeStandby (passing_params _ s)]
  exact hreaction.passing _

/-- The end of `configure`, on a chip that does not calibrate. -/
theorem Unarmed.tail (h : Unarmed x s.peer) (hm : s.peer.mode ≠ .calibrating) :
    StoreKept x (configureTail s).peer := by
  have htrimmed : Unarmed x (trimmed s).peer := ((h.status _).wreg _ _).wreg _ _
  have hmode : (trimmed s).peer.mode ≠ .calibrating := by
    rw [trimmed, wreg_peer]
    refine drift_not_calibrating 4 ?_
    rw [wreg_peer]
    exact drift_not_calibrating 4 (status_notcal _ s hm)
  obtain ⟨hkept, -⟩ := (htrimmed.drift 2).toStoreKept.standby hmode
  rw [trimmed_params] at hkept
  exact ⟨hkept.fifo, hkept.filledLen, hkept.crcf, hkept.rxChan⟩

end

/-! ### The trigger -/

section

variable {x : Peer} {last : State → State}
  (hlast : ∀ u : State, u.peer.mode = .standby → StoreKept x u.peer → Unarmed x (last u).peer)

include hlast

/-- The last exchange of a transaction and the place after it. -/
theorem StoreKept.lastExchange {u : State} (h : StoreKept x u.peer) (hm : u.peer.mode = .standby) :
    Unarmed x (advanceUpos (passing [.csDeassert] (last u))).peer :=
  (hlast u hm h).passing _

/-- A transaction other than receive-arm, in `Standby`. -/
theorem StoreKept.performTx {s : State} (h : StoreKept x s.peer) (hm : s.peer.mode = .standby) {t : WriteTx}
    (ht : t ≠ .strobe s.params.strobeRx) : Unarmed x (performTx t last s).peer := by
  have hunarmed : ∀ es, Unarmed x (passing es s).peer := Unarmed.passing ⟨h, by simp [hm]⟩
  have hstandby : ∀ es, (passing es s).peer.mode = .standby := fun es => drift_standby es.length hm
  cases t with
  | strobe b =>
    have hb : b ≠ s.params.strobeRx := fun e => ht (e ▸ rfl)
    rw [Machine.performTx, strobeTx_passing]
    exact ((hunarmed [.csAssert, .xchg b none]).applyStrobe hb).lastExchange hlast
      (applyStrobe_standby (s := passing [.csAssert, .xchg b none] s) hb (hstandby _))
  | wreg a v =>
    rw [Machine.performTx, wregTx, emit_passing .csDeassert]
    simp only [emit_passing, send_passing, passing_passing, id, writeReg_eq]
    exact StoreKept.lastExchange hlast (u := onPeer _ (passing _ s)) ((hunarmed _).upWrite a v) (hstandby _)
  | wburst a vs =>
    rw [Machine.performTx, wburstTx, emit_passing .csDeassert]
    simp only [emit_passing, send_passing, passing_passing, id, sendBytes_passing]
    refine StoreKept.lastExchange hlast (u := onPeer _ (passing _ s)) ((hunarmed _).upBurst _ a 0 vs) ?_
    rw [onPeer, upBurst_rest]
    exact hstandby _

end

/-- A transaction other than receive-arm leaves the chip in `Standby`. -/
theorem performTx_mode {t : WriteTx} {s : State} (ht : t ≠ .strobe s.params.strobeRx) (hm : s.peer.mode = .standby) :
    (performTx t id s).peer.mode = .standby := by
  obtain ⟨u, hu, hum, -⟩ := performTx_standby t ht hm id fun _ => rfl
  rw [hu]
  exact drift_standby 1 hum

/-- A sequence without a receive-arm strobe, in `Standby`. -/
theorem StoreKept.performAll {x : Peer} {last : State → State}
    (hlast : ∀ u : State, u.peer.mode = .standby → StoreKept x u.peer → Unarmed x (last u).peer) (ts : List WriteTx) :
    ∀ s : State, StoreKept x s.peer → s.peer.mode = .standby → WriteTx.strobe s.params.strobeRx ∉ ts →
      Unarmed x (performAll ts last s).peer := by
  induction ts with
  | nil => exact fun s h hm _ => ⟨h, by simp [Machine.performAll, hm]⟩
  | cons t ts ih =>
    intro s h hm hrx
    have ht : t ≠ .strobe s.params.strobeRx := fun e => hrx (e ▸ List.mem_cons_self)
    cases ts with
    | nil => exact h.performTx hlast hm ht
    | cons u us =>
      have hfirst := h.performTx (last := id) (fun v hv hk => ⟨hk, by simp [hv]⟩) hm ht
      refine ih _ hfirst.toStoreKept (performTx_mode ht hm) ?_
      rw [(tx_moved t s).params]
      exact fun e => hrx (List.mem_cons_of_mem _ e)

/-- The trigger's effect arms nothing (R82). -/
theorem startCalibration_unarmed {x : Peer} {u : State} (hm : u.peer.mode = .standby) (h : StoreKept x u.peer) :
    Unarmed x (startCalibration u).peer := by
  refine ⟨h.enter _ _, ?_⟩
  rw [startCalibration_mode, if_pos hm]
  nofun

/-! ### Up to the first poll -/

/-- The table phase of a peer that keeps still writes registers alone (R152). -/
theorem table_still (es : List (RegAddr × Option Byte)) : ∀ s : State,
    Quiet (es.flatMap (tableEntryEvents s.params)).length s → StoreKept s.peer (configureTable es s).peer := by
  induction es with
  | nil => exact fun s _ => .refl s.peer
  | cons e es ih =>
    intro s hq
    rcases e with ⟨a, _ | v⟩
    · exact ih (advanceUpos s) hq
    · have hlen : (((a, some v) :: es).flatMap (tableEntryEvents s.params)).length =
          4 + (es.flatMap (tableEntryEvents s.params)).length := by
        simp [tableEntryEvents, wregEvents]; omega
      rw [hlen] at hq
      have hscript := performTx_script (.wreg a v) (last := id) (fun _ => rfl) s
      have hrest := ih (wregTx a v id s) (by rw [wregTx_id_params]; exact hq.after hscript)
      have hpeer : (wregTx a v id s).peer = upWrite a v s.peer := by rw [wreg_peer, drift_quiet (hq.mono (by omega))]
      rw [hpeer] at hrest
      exact ⟨hrest.fifo, hrest.filledLen, hrest.crcf, hrest.rxChan⟩

/-- Up to the trigger, the peer keeping still up to the standby strobe's byte. -/
theorem beforeTrigger_unarmed {s : State} (hm : s.peer.mode ≠ .calibrating)
    (hq : Quiet ((tableEvents s.params).length + 2) s) : Unarmed s.peer (beforeTrigger s).peer := by
  have htable := table_still s.params.regTable (begin .configure s) (hq.mono (Nat.le_add_right _ 2))
  have hscript := table_script s.params.regTable (begin .configure s)
  have hmode := table_notcal s.params.regTable (begin .configure s) hm
  have hp : (configureTable s.params.regTable (begin .configure s)).params = s.params := configureTable_params _ _
  rw [← drift_quiet (n := 2) (hq.after hscript)] at htable
  have hstandby := htable.standby hmode
  rw [hp] at hstandby
  exact hstandby

/-- Up to the first poll no frame arrives (R82, R84). -/
theorem atPoll_unarmed {s : State} (hm : s.peer.mode ≠ .calibrating)
    (hrx : WriteTx.strobe s.params.strobeRx ∉ s.params.calTriggerSeq)
    (hq : Quiet ((tableEvents s.params).length + 2) s) : Unarmed s.peer (atPoll s).peer := by
  have hbefore := beforeTrigger_unarmed hm hq
  have hp := beforeTrigger_params s
  rw [atPoll_eq]
  exact hbefore.toStoreKept.performAll (fun _ => startCalibration_unarmed) _ _ (beforeTrigger_mode hm) (hp ▸ hrx)

/-- With `CalDone` between the trigger and the first poll's answer the chip answers it in `Standby` (R82). -/
theorem atPoll_completes {s : State} (hm : s.peer.mode ≠ .calibrating)
    (hrx : WriteTx.strobe s.params.strobeRx ∉ s.params.calTriggerSeq) (hc : CompletesBeforeFirstPoll s) :
    (drift 4 (atPoll s)).peer.mode = .standby := by
  by_cases hne : s.params.calTriggerSeq = []
  · have hmode : (atPoll s).peer.mode = .standby := by
      rw [atPoll_eq, hne]
      exact beforeTrigger_mode hm
    exact drift_standby 4 hmode
  · obtain ⟨u, hum, hus, hdrift⟩ := atPoll_trigger hm hne hrx
    obtain ⟨n, hscript, hge, hle⟩ := hc
    have hlen := headLen s
    obtain ⟨k, hk⟩ : ∃ k, n = (configureHeadEvents s.params).length - 1 + k := ⟨_, (Nat.add_sub_of_le (by omega)).symm⟩
    have hdone := prefix_drop hscript (a := (configureHeadEvents s.params).length - 1) (by omega)
    rw [← hus, show n - ((configureHeadEvents s.params).length - 1) = k by omega] at hdone
    rw [hdrift, show 1 + 4 = (k + 1) + (4 - k) by omega, drift_add]
    exact drift_standby _ (drift_calDone hdone (.inl hum))

/-! ### The read pointer -/

/-- A write-kind transaction other than the reset-read-pointer strobe. -/
theorem performTx_rdptr {t : WriteTx} {last : State → State} (hl : ∀ u, (last u).peer.rdptr = u.peer.rdptr) {s : State}
    (ht : t ≠ .strobe s.params.strobeRstRdptr) : (performTx t last s).peer.rdptr = s.peer.rdptr := by
  cases t with
  | strobe b =>
    have hb : b ≠ s.params.strobeRstRdptr := fun e => ht (e ▸ rfl)
    simp [performTx, strobeTx_passing, hl, applyStrobe_rdptr, hb]
  | wreg a v => simp [performTx, wregTx, emit_passing, send_passing, hl]
  | wburst a vs =>
    simp only [performTx, wburstTx, emit_passing, send_passing, sendBytes_passing, advanceUpos_peer, passing_peer,
      drift_rdptr, hl, onPeer]
    rw [upBurst_rest]
    simp

/-- A sequence without that strobe. -/
theorem performAll_rdptr (ts : List WriteTx) {last : State → State} (hl : ∀ u, (last u).peer.rdptr = u.peer.rdptr) :
    ∀ s : State, WriteTx.strobe s.params.strobeRstRdptr ∉ ts → (performAll ts last s).peer.rdptr = s.peer.rdptr := by
  induction ts with
  | nil => exact fun _ _ => rfl
  | cons t ts ih =>
    intro s hts
    have ht : t ≠ .strobe s.params.strobeRstRdptr := fun e => hts (e ▸ List.mem_cons_self)
    cases ts with
    | nil => exact performTx_rdptr hl ht
    | cons u us =>
      have hp : (performTx t id s).params = s.params := (tx_moved t s).params
      rw [performAll, ih _ fun hm => hts (List.mem_cons_of_mem _ (hp ▸ hm)),
        performTx_rdptr (last := id) (fun _ => rfl) ht]

theorem table_rdptr (es : List (RegAddr × Option Byte)) : ∀ s : State,
    (configureTable es s).peer.rdptr = s.peer.rdptr := by
  induction es with
  | nil => exact fun _ => rfl
  | cons e es ih =>
    intro s
    rcases e with ⟨a, _ | v⟩
    · exact ih _
    · exact (ih _).trans (wreg_rdptr a v s)

theorem atPoll_rdptr {s : State} (h : WriteTx.strobe s.params.strobeRstRdptr ∉ s.params.calTriggerSeq) :
    (atPoll s).peer.rdptr = s.peer.rdptr := by
  have hstandby := standby_rdptr (configureTable s.params.regTable (begin .configure s))
  rw [configureTable_params, table_rdptr] at hstandby
  rw [atPoll_eq]
  exact (performAll_rdptr _ (last := startCalibration) (fun _ => rfl) _ (by rwa [beforeTrigger_params])).trans hstandby

/-! ### The whole operation -/

/-- The peer does nothing of its own before it completes the calibration. -/
theorem quiet_of_completes {s : State} (h : CompletesBeforeFirstPoll s) :
    Quiet ((tableEvents s.params).length + 2) s := by
  obtain ⟨n, hscript, hge, -⟩ := h
  have hlen := headLen s
  exact Quiet.mono (n := n) ((List.prefix_append _ _).trans hscript) (by omega)

/-- Settles O33: the first poll is answered in `Standby`, and its turn goes on to the end. -/
theorem configureCompletes : Obligations.ConfigureCompletes := by
  intro s hw hl hm hrx hc
  have hp := (atPoll_undisturbed s).params
  have hwp : (atPoll s).params.wf = true := hp ▸ hw
  have hstandby := atPoll_completes hm hrx hc
  have hidle := pollByte_idle hwp (fun _ h => by rw [hstandby] at h; cases h) (by rw [hstandby]; nofun)
  have hturn := configure_turn hw hl
  have hidle' := hidle
  rw [hp] at hidle'
  obtain ⟨bs, hlen, hu, hfaults, hreg, hcfg, hresponses, htrace⟩ := hturn.done hidle'
  have hnotcal : (afterPoll (atPoll s)).peer.mode ≠ .calibrating := poll_notcal (by rw [hstandby]; nofun)
  have htail := configurePoll_of_idle hidle
  have hmode : (configurePoll (atPoll s)).peer.mode = .standby := by rw [htail, tail_mode _ hnotcal]
  have hkept : StoreKept s.peer (configurePoll (atPoll s)).peer := by
    rw [htail]
    exact ((atPoll_unarmed hm hrx (quiet_of_completes hc)).rreg _).tail hnotcal
  obtain ⟨-, hsame⟩ := atPoll_faults s hw
  have hpeer := hkept.eq
  rw [hmode, hreg, hcfg, ← applyWrites_append] at hpeer
  refine ⟨configurePoll (atPoll s), pollByte (atPoll s), bs, exec_configure s, hidle', hlen, hturn.params, hturn.seq,
    hturn.line, hu, hfaults.trans (hsame hrx), hturn.requests, hresponses, htrace, hpeer, fun hid => ?_,
    fun hrst hpoll hstatus => ?_⟩
  · exact (configurePoll_identityKept _).idb.trans (atPoll_identityKept hid).idb
  · rw [configurePoll_rdptr (s := atPoll s) (by rwa [hp]) (by rwa [hp]), atPoll_rdptr hrst]

end Sys2Proof.Machine

/-! # The hop sequencer

The channel of an identity at a cursor (spec/42_hop_sequencer.md R184, R185) and what `seq_load`, `seq_channel` and
`advance` do (R181 to R183, R186). -/

namespace Sys2Proof.Machine

open Sys2Proof.Safety

/-! ### The channel (R184, R185) -/

/-- The channel as a number: the difference of R184 on integers, reduced modulo 256. -/
theorem channel_toNat (p : ChipParams) (id : Ident) (c : Fin 16) :
    ((channel p id c).toNat : Int) = ((p.hopTable[row id][c].toNat : Int) - offset id - 1) % 256 := by
  rw [channel, BitVec.toNat_ofInt]
  exact Int.toNat_of_nonneg (Int.emod_nonneg _ (by decide))

/-- Settles O16, from the channel as a number. -/
theorem channelFormula : Obligations.ChannelFormula := by
  intro p id c
  have hchannel := channel_toNat p id c
  have hbyte : p.hopTable[row id][c].toNat < 256 := p.hopTable[row id][c].isLt
  refine ⟨hchannel, fun hle => by omega, fun h3 h9 => BitVec.eq_of_toNat_eq ?_⟩
  rw [h3, h9] at hchannel
  exact Int.ofNat.inj hchannel

/-- The channel reads of an identity its row and its offset alone. -/
theorem channel_congr (p : ChipParams) {id jd : Ident} (c : Fin 16) (hrow : row id = row jd)
    (hoffset : offset id = offset jd) : channel p id c = channel p jd c := by
  simp only [channel, hrow, hoffset]

/-- Every row with every offset up to `offsetMax` (R185 g). -/
def hopPlans : List (Fin 16 × Nat) := List.finRange 16 ×ˢ List.range (offsetMax + 1)

theorem hopPlans_nodup : hopPlans.Nodup := (List.nodup_finRange 16).product List.nodup_range

theorem hopPlans_length : hopPlans.length = 160 := by
  rw [hopPlans, List.length_product, List.length_finRange, List.length_range]
  rfl

/-- The identity whose low byte has the row for its low and the offset for its high nibble. -/
theorem row_offset_ofNat (r : Fin 16) {k : Nat} (hk : k ≤ offsetMax) :
    row (BitVec.ofNat 32 (16 * k + r)) = r ∧ offset (BitVec.ofNat 32 (16 * k + r)) = k := by
  have h9 : k ≤ 9 := hk
  have hid : (BitVec.ofNat 32 (16 * k + r)).toNat = 16 * k + r := Nat.mod_eq_of_lt (by omega)
  constructor
  · refine Fin.ext ?_
    rw [row_val, hid]
    omega
  · rw [offset_eq, hid]
    omega

/-- The plans are the rows and offsets that identities have. -/
theorem mem_hopPlans {q : Fin 16 × Nat} : q ∈ hopPlans ↔ ∃ id : Ident, q = (row id, offset id) := by
  obtain ⟨r, k⟩ := q
  rw [hopPlans, List.mem_product, List.mem_range, Nat.lt_succ_iff]
  constructor
  · rintro ⟨-, hk⟩
    obtain ⟨hrow, hoffset⟩ := row_offset_ofNat r hk
    exact ⟨_, by rw [hrow, hoffset]⟩
  · rintro ⟨id, hq⟩
    cases hq
    exact ⟨List.mem_finRange _, offset_le id⟩

/-- Settles O17: row and offset are read from the low byte (R22), and the channel reads nothing else. -/
theorem lowByteDecidesSchedule : Obligations.LowByteDecidesSchedule := by
  refine ⟨fun p id jd c hlow => ?_, hopPlans, hopPlans_nodup, hopPlans_length, fun _ => mem_hopPlans⟩
  obtain ⟨-, -, -, -, -, -, hbyte⟩ := rowAndOffset jd
  obtain ⟨hrow, hoffset⟩ := hbyte id hlow
  exact channel_congr p c hrow hoffset

/-! ### The operations (R181 to R183) -/

/-- The answer of an operation that returns the channel at the current cursor. -/
def channelAnswer (s : State) : Response := success (.byte (channel s.params s.seq.id s.seq.cursor))

/-- The sequencer one column on. -/
def Seq.nextColumn (q : Seq) : Seq := { q with cursor := q.cursor + 1 }

/-- The state after `advance` on a loaded sequencer: one column on, and the channel there answered. -/
def advanced (s : State) : State :=
  let t := { s with seq := s.seq.nextColumn }
  finish (channelAnswer t) t

theorem exec_seqChannel_loaded {s : State} (h : s.seq.loaded = true) :
    exec .seqChannel s = .next (finish (channelAnswer s) s) := by
  rw [exec, execSeqChannel, if_neg (by simp [h])]
  rfl

theorem exec_seqChannel_unloaded {s : State} (h : s.seq.loaded = false) :
    exec .seqChannel s = .next (failWith (.seqUnloaded .seqChannel) s) := by
  rw [exec, execSeqChannel, if_pos h]
  rfl

theorem exec_advance_loaded {s : State} (h : s.seq.loaded = true) : exec .advance s = .next (advanced s) := by
  rw [exec, execAdvance, if_neg (by simp [h])]
  rfl

theorem exec_advance_unloaded {s : State} (h : s.seq.loaded = false) :
    exec .advance s = .next (failWith (.seqUnloaded .advance) s) := by
  rw [exec, execAdvance, if_pos h]
  rfl

/-- Settles O18: the operation writes the three registers and returns. -/
theorem seqLoadResult : Obligations.SeqLoadResult := fun _ _ => rfl

/-- Settles O19, loaded and not. -/
theorem seqChannelResult : Obligations.SeqChannelResult := fun _ =>
  ⟨exec_seqChannel_loaded, exec_seqChannel_unloaded⟩

/-- Settles O20, loaded and not. -/
theorem advanceResult : Obligations.AdvanceResult := fun s =>
  ⟨fun h => ⟨s.seq.cursor + 1, Fin.val_add _ _, exec_advance_loaded h⟩, exec_advance_unloaded⟩

/-! ### Advances in a row (R186) -/

@[simp] theorem advanced_seq (s : State) : (advanced s).seq = s.seq.nextColumn := rfl

@[simp] theorem advanced_params (s : State) : (advanced s).params = s.params := rfl

/-- What an operation answers is the caller's latest response. -/
theorem finish_getLast (r : Response) (s : State) : (finish r s).io.responses.getLast? = some r := by
  rw [finish_responses, List.getLast?_concat]

/-- After an `advance` the latest response is the channel at the cursor as it now stands. -/
theorem advanced_getLast (s : State) : (advanced s).io.responses.getLast? = some (channelAnswer (advanced s)) :=
  finish_getLast _ _

/-- A loaded sequencer stays loaded, so each `advance` of a row goes one column on. -/
theorem runsAll_advance (n : Nat) {s : State} (h : s.seq.loaded = true) :
    RunsAll (List.replicate n .advance) s (advanced^[n] s) := by
  induction n generalizing s with
  | zero => rfl
  | succ n ih => exact ⟨advanced s, performed_one (exec_advance_loaded h) rfl, ih h⟩

theorem advanced_iterate_seq (n : Nat) (s : State) : (advanced^[n] s).seq = Seq.nextColumn^[n] s.seq :=
  (show Function.Semiconj State.seq advanced Seq.nextColumn from advanced_seq).iterate_right n s

theorem advanced_iterate_params (n : Nat) (s : State) : (advanced^[n] s).params = s.params := by
  induction n with
  | zero => rfl
  | succ n ih => rw [Function.iterate_succ_apply', advanced_params, ih]

theorem nextColumn_iterate (n : Nat) (q : Seq) :
    Seq.nextColumn^[n] q = { q with cursor := (· + 1)^[n] q.cursor } := by
  induction n generalizing q with
  | zero => rfl
  | succ n ih => exact ih q.nextColumn

/-- A row has sixteen columns. -/
theorem nextColumn_iterate_sixteen (q : Seq) : Seq.nextColumn^[16] q = q := by
  have hcursor : ∀ c : Fin 16, (· + 1)^[16] c = c := by decide
  rw [nextColumn_iterate, hcursor]

/-- Settles O21: after sixteen columns the sequencer is back, and the last `advance` answers the channel there. -/
theorem sixteenAdvancesReturn : Obligations.SixteenAdvancesReturn := by
  intro s u h hu
  have hback : (advanced^[16] s).seq = s.seq := (advanced_iterate_seq 16 s).trans (nextColumn_iterate_sixteen s.seq)
  have hanswer : channelAnswer (advanced^[16] s) = channelAnswer s := by
    rw [channelAnswer, hback, advanced_iterate_params, channelAnswer]
  refine ⟨advanced^[16] s, runsAll_advance 16 h, hback, ?_⟩
  cases (exec_seqChannel_loaded h).symm.trans hu
  calc (advanced^[16] s).io.responses.getLast?
      = some (channelAnswer (advanced^[16] s)) := by
        rw [Function.iterate_succ_apply']
        exact advanced_getLast _
    _ = some (channelAnswer s) := by rw [hanswer]
    _ = (finish (channelAnswer s) s).io.responses.getLast? := (finish_getLast _ _).symm

end Sys2Proof.Machine

/-! # Calls out of order, and a calibration that does not end

The two exceptions of spec/60_exceptions.md that answer no error: R204, for `rearm`, and R201. -/

namespace Sys2Proof.Machine

open Sys2Proof.Safety

/-! ### `rearm` out of order (R204) -/

/-- The condition of `F_CALL_ORDER`, as R204 words it. -/
theorem callOrderBroken_iff {x : Peer} :
    callOrderBroken x = true ↔ x.cfgOk = false ∨ x.mode ∈ [Mode.idle, .calibrating] := by
  have harmable : Mode.armable x.mode = false ↔ x.mode ∈ [Mode.idle, .calibrating] := by
    cases x.mode <;> decide
  rw [callOrderBroken, Bool.or_eq_true, Bool.not_eq_true', Bool.not_eq_true', harmable]

/-- What the receive-arm strobe records, from the peer at its own exchange, two places on. -/
theorem strobeRx_exchange_faults {s : State} (hw : s.params.wf = true) :
    (strobeTx s.params.strobeRx id s).faults = if callOrderBroken (drift 2 s).peer then
      insertFault (.callOrder s.upos.op? (drift 2 s).peer.mode) s.faults else s.faults := by
  rw [strobeTx_id, applyStrobe_strobeRx hw (passing_params _ _), advanceUpos_faults, passing_faults, strobeRx_faults]
  rfl

/-- What the reset-read-pointer strobe does to the peer. -/
def upRst (x : Peer) : Peer := { x with rdptr := 0 }

theorem upRst_free : Free upRst := free_fields id id fun _ => 0

/-- The reset-read-pointer strobe, whatever the peer does of its own. -/
theorem rst_passing {s : State} (hw : s.params.wf = true) : strobeTx s.params.strobeRstRdptr id s =
    advanceUpos (onPeer upRst (passing (strobeEvents s.params.strobeRstRdptr) s)) := by
  rw [strobeTx_id, applyStrobe_strobeRstRdptr hw (passing_params _ _)]
  exact congrArg advanceUpos ((passing_onPeer upRst_free _ _).trans (congrArg _ (passing_passing _ _ s)))

/-- After the reset-read-pointer strobe the peer goes on by its own steps, the read pointer apart. -/
theorem rst_drift_peer {s : State} (hw : s.params.wf = true) (n : Nat) :
    (drift n (strobeTx s.params.strobeRstRdptr id s)).peer = upRst (drift (3 + n) s).peer := by
  rw [rst_passing hw, drift_congr (advanceUpos_peer _) rfl rfl, drift_onPeer upRst_free, drift_passing]
  rfl

theorem beforeRearm_op (s : State) : (beforeRearm s).upos.op? = some .rearm := by
  rw [beforeRearm, (strobe_moved _ _).upos]
  rfl

/-- What `rearm` records, from the peer at the exchange of its receive-arm strobe, five places on. -/
theorem rearm_faults {s : State} (hw : s.params.wf = true) :
    (strobeTx s.params.strobeRx id (beforeRearm s)).faults = if callOrderBroken (drift 5 s).peer then
      insertFault (.callOrder (some .rearm) (drift 5 s).peer.mode) s.faults else s.faults := by
  have hpeer : (drift 2 (beforeRearm s)).peer = upRst (drift 5 s).peer := by
    rw [← drift_begin_peer .rearm]
    exact rst_drift_peer (s := begin .rearm s) hw 2
  have hfaults := strobeRx_exchange_faults (s := beforeRearm s) (by rwa [beforeRearm_params])
  rw [beforeRearm_params, hpeer, beforeRearm_op, beforeRearm_faults hw] at hfaults
  exact hfaults

/-- Settles O46: the fault is the receive-arm strobe's, and its condition is read at that strobe's exchange. -/
theorem rearmOutOfOrderRecorded : Obligations.RearmOutOfOrderRecorded := by
  intro s hw
  refine ⟨_, exec_rearm s, ?_, fun hbroken => ?_, fun ⟨hc, hm⟩ => ?_⟩
  · rw [finish_responses, (rearm_moved s).responses]
    rfl
  · rw [← drift_cfgOk 5 s] at hbroken
    rw [finish_faults, rearm_faults hw, if_pos (callOrderBroken_iff.2 hbroken)]
  · have hkept : ¬callOrderBroken (drift 5 s).peer = true := by
      rw [callOrderBroken_iff, drift_cfgOk, hc]
      simpa using hm
    rw [finish_faults, rearm_faults hw, if_neg hkept]

/-! ### Polling without end (R201) -/

/-- Settles O34: without a limit no number of polls reaches it. -/
theorem calibrationHangs : Obligations.CalibrationHangs := by
  intro n s hw hl hp hnone hm hq
  have hbelow : BelowLimit s.params (s.polls + n) := fun l hlimit => by cases hnone.symm.trans hlimit
  obtain ⟨vs, t, ht⟩ := keepsPolling hw hl hp hm n hbelow hq
  exact ⟨t, vs, ht.run, ht.polling, ht.faults, ht.responses, ht.peer, ht.length, ht.busy, ht.trace⟩

end Sys2Proof.Machine

/-! # Power-on, the caller's wait, and the boot order

The state after power-on and what every run from it keeps (spec/70_reset_and_hazards.md R230, R261), a step in which the
caller waits (R260), and the order `reset`, `configure`, `tune` (R231, R241). -/

namespace Sys2Proof.Machine

open Sys2Proof.Safety

/-! ### `tune` and the receive-arm strobe (R204, R241) -/

section

variable (c : Byte)

/-- The whole of `tune` as the block sees it. -/
theorem tune_moved (s : State) :
    Moved (begin .tune s) (strobeTx s.params.strobeRx id (beforeArm c s)) (tuneEvents s.params c) 4 :=
  (beforeArm_moved c s).trans (strobe_moved s.params.strobeRx (beforeArm c s))

theorem beforeArm_op (s : State) : (beforeArm c s).upos.op? = some .tune := by
  rw [(beforeArm_moved c s).upos]
  rfl

/-- What `tune` records, from the peer at the exchange of its receive-arm strobe. -/
theorem tune_faults {s : State} (hw : s.params.wf = true) :
    (strobeTx s.params.strobeRx id (beforeArm c s)).faults = if callOrderBroken (drift 2 (beforeArm c s)).peer then
      insertFault (.callOrder (some .tune) (drift 2 (beforeArm c s)).peer.mode) s.faults else s.faults := by
  have hfaults := strobeRx_exchange_faults (s := beforeArm c s) (by rwa [beforeArm_params])
  rwa [beforeArm_params, beforeArm_op, beforeArm_faults c hw] at hfaults

end

/-- Settles O44: the receive-arm strobe finds the chip not configured, and in the mode the standby strobe left. -/
theorem tuneBeforeConfigureRecorded : Obligations.TuneBeforeConfigureRecorded := by
  intro s c hw hl hc
  have hbroken : callOrderBroken (drift 2 (beforeArm c s)).peer = true :=
    callOrderBroken_iff.2 (.inl (by rw [drift_cfgOk, beforeArm_cfgOk, hc]))
  refine ⟨_, (drift 2 (beforeArm c s)).peer.mode, exec_tune c s, returned_of (tune_moved c s) hl _, ?_, fun hm => ?_, ?_⟩
  · rw [finish_faults, tune_faults c hw, if_pos hbroken]
  · exact drift_standby 2 (beforeArm_mode c hw hm)
  · rw [finish_peer, strobe_cfgOk, beforeArm_cfgOk, hc]

/-! ### A `configure` that has succeeded, of any number of polls (R231) -/

/-- A turn of the poll loop comes out in one of three ways: it waits, succeeds after an idle byte, or is stuck
(spec/41_radio_driver.md R153, R154). -/
theorem configurePoll_outcome {u : State} (hw : u.params.wf = true) (hl : u.line = Line.quiet) (hp : Polling u) :
    ((configurePoll u).upos = .running .configure (pollPosition u.params) ∧ (configurePoll u).faults = u.faults ∧
      (configurePoll u).io.responses = u.io.responses) ∨
    (pollByte u &&& u.params.calBusyMask = 0#8 ∧ (configurePoll u).upos = .idle ∧
      (configurePoll u).faults = u.faults ∧ (configurePoll u).peer.cfgOk = true ∧
      ∃ bs, (configurePoll u).io.responses = u.io.responses ++ [⟨0x00#8, .bytes bs⟩]) ∨
    ((configurePoll u).upos = .idle ∧ (configurePoll u).io.responses = u.io.responses ++ [⟨0x03#8, .empty⟩]) := by
  have hturn := configurePoll_turn hw hl hp
  by_cases hidle : pollByte u &&& u.params.calBusyMask = 0#8
  · obtain ⟨bs, -, hu, hfaults, -, hcfg, hresp, -⟩ := hturn.done hidle
    exact .inr (.inl ⟨hidle, hu, hfaults, hcfg, bs, hresp⟩)
  · by_cases hbelow : BelowLimit u.params (u.polls + 1)
    · obtain ⟨hu, -, hfaults, -, -, hresp, -⟩ := hturn.waits hidle hbelow
      exact .inl ⟨hu, hfaults, hresp⟩
    · obtain ⟨hu, -, -, -, hresp, -⟩ := hturn.stuck hidle hbelow
      exact .inr (.inr ⟨hu, hresp⟩)

/-- A poll byte that is not busy was not answered in `Calibrating`, and the end of `configure` then goes to `Standby`
(spec/20_memory.md R81, R82). -/
theorem configurePoll_standby {u : State} (hw : u.params.wf = true)
    (hidle : pollByte u &&& u.params.calBusyMask = 0#8) : (configurePoll u).peer.mode = .standby := by
  rw [configurePoll_of_idle hidle]
  exact tail_mode _ (poll_notcal fun hm => pollByte_busy hw hm hidle)

/-- `configure`, issued in `s`, polls in `u` and has recorded no fault. -/
structure PollsUnfaulted (s u : State) : Prop where
  params : u.params = s.params
  line : u.line = Line.quiet
  polling : Polling u
  faults : u.faults = s.faults

/-- The chip and the block at the end of a `configure` that has succeeded without a fault. -/
structure Configured (s t : State) : Prop where
  params : t.params = s.params
  line : t.line = Line.quiet
  mode : t.peer.mode = .standby
  cfgOk : t.peer.cfgOk = true
  faults : t.faults = s.faults

section

variable {s t u : State} (hw : s.params.wf = true)

include hw

/-- At the first poll, the trigger holding no receive-arm strobe. -/
theorem atPoll_unfaulted (hl : s.line = Line.quiet)
    (hrx : WriteTx.strobe s.params.strobeRx ∉ s.params.calTriggerSeq) : PollsUnfaulted s (atPoll s) where
  params := (atPoll_undisturbed s).params
  line := (atPoll_undisturbed s).line hl
  polling := atPoll_polling s
  faults := (atPoll_faults s hw).2 hrx

/-- A turn that waits records no fault. -/
theorem PollsUnfaulted.waits (h : PollsUnfaulted s u) (hwaits : (configurePoll u).upos ≠ .idle) :
    PollsUnfaulted s (configurePoll u) := by
  have hwu : u.params.wf = true := h.params ▸ hw
  obtain ⟨hu, hfaults, -⟩ | ⟨-, hu, -⟩ | ⟨hu, -⟩ := configurePoll_outcome hwu h.line h.polling
  · have hparams := configurePoll_params hwu
    exact ⟨hparams.trans h.params, (configurePoll_ended h.polling).line h.line, by rw [Polling, hu, hparams],
      hfaults.trans h.faults⟩
  · exact absurd hu hwaits
  · exact absurd hu hwaits

/-- The turn with which `configure` returns success. -/
theorem PollsUnfaulted.succeeds (h : PollsUnfaulted s u) (hu : (configurePoll u).upos = .idle) {bs : List Byte}
    (hlast : (configurePoll u).io.responses.getLast? = some ⟨0x00#8, .bytes bs⟩) : Configured s (configurePoll u) := by
  have hwu : u.params.wf = true := h.params ▸ hw
  obtain ⟨hwaits, -⟩ | ⟨hidle, -, hfaults, hcfg, -⟩ | ⟨-, hstuck⟩ := configurePoll_outcome hwu h.line h.polling
  · cases hu.symm.trans hwaits
  · exact ⟨(configurePoll_params hwu).trans h.params, (configurePoll_ended h.polling).line h.line,
      configurePoll_standby hwu hidle, hcfg, hfaults.trans h.faults⟩
  · rw [hstuck, List.getLast?_concat] at hlast
    cases hlast

theorem configureDone_configured (hl : s.line = Line.quiet)
    (hrx : WriteTx.strobe s.params.strobeRx ∉ s.params.calTriggerSeq) (h : ConfigureDone s t) : Configured s t := by
  obtain ⟨hperf, bs, hlast⟩ := h
  obtain ⟨u, hu, -, rfl⟩ := lastPoll (fun _ => PollsUnfaulted.waits hw) hperf (atPoll_unfaulted hw hl hrx)
  obtain ⟨-, -, -, -, -, hreturned⟩ := hperf
  exact hu.succeeds hw hreturned hlast

end

/-- Settles O53: `reset` and `configure` record nothing without a receive-arm strobe of the record, and `tune` then finds a
configured chip in `Standby`. -/
theorem bootOrderArmsWithoutFault : Obligations.BootOrderArmsWithoutFault := by
  intro s t u c hw hl hrx hreset hdone
  obtain ⟨hrx, hrx'⟩ : _ ∧ _ := by simpa only [List.mem_append, not_or] using hrx
  obtain ⟨t', ht, hreturned, -, -, -, -, -, hfaults⟩ := resetOperationResult s hl
  obtain rfl : t' = t := Host.Outcome.next.inj (ht.symm.trans hreset)
  have hp := hreturned.params
  have hu := configureDone_configured (hp ▸ hw) hreturned.line (hp ▸ hrx') hdone
  have hsame : u.faults = s.faults := hu.faults.trans (hfaults hrx)
  obtain ⟨v, hv, hkept, -⟩ := tuneArmsReceiver u c (by rwa [hu.params, hp]) hu.line hu.cfgOk (by simp [hu.mode])
  exact ⟨hu.mode, hu.cfgOk, hsame, v, hv, hkept.trans hsame⟩

/-! ### The state after power-on (R230, R261) -/

/-- The fixture meets R10 (spec/95_test_vectors.md section 2.1). -/
theorem fx_wf : Config.fx.wf = true := by decide

/-- The invariant holds after power-on, whatever the record, the peer and the caller are. -/
theorem poweredOn_inv {p : ChipParams} (hw : p.wf = true) (script : List PeerMove) (ws : List CmdWord) :
    Inv (poweredOn p script ws) where
  params := hw
  line := rfl
  upos := .inl rfl
  regs := ⟨rfl, nofun⟩
  pin := pinAgrees_enter State.reset.peer Config.powerOnMode Config.powerOnReady
  fifo := ⟨le_rfl, .inl rfl⟩
  faults := List.nodup_nil

/-- The operations running: one, or none (spec/10_state.md R25). -/
def inFlight (s : State) : Nat := if s.upos = .idle then 0 else 1

theorem inFlight_of_idle {s : State} (h : s.upos = .idle) : inFlight s = 0 := if_pos h

theorem inFlight_of_running {s : State} {op : OpName} {k : Nat} (h : s.upos = .running op k) : inFlight s = 1 :=
  if_neg (by rw [h]; exact nofun)

/-- From `s`, where one command is being served, to `t` the caller issues nothing, and receives the command's one response
or the operation runs on (spec/30_encoding.md R103). -/
structure AnswersOnce (s t : State) : Prop where
  requests : t.io.requests = s.io.requests
  responses : t.io.responses.length + inFlight t = s.io.responses.length + 1

section

variable {s t : State}

theorem finish_answersOnce {r : Response} (hreq : t.io.requests = s.io.requests)
    (hresp : t.io.responses = s.io.responses) : AnswersOnce s (finish r t) where
  requests := hreq
  responses := by rw [inFlight_of_idle (finish_upos r t), finish_responses, List.length_append, hresp]; rfl

/-- An operation that is one stretch of transactions. -/
theorem Moved.answersOnce {op : OpName} {es : List Event} {n : Nat} {r : Response} (h : Moved (begin op s) t es n) :
    AnswersOnce s (finish r t) := finish_answersOnce h.requests h.responses

/-- A turn of the poll loop. -/
theorem configurePoll_answersOnce (hw : s.params.wf = true) (hl : s.line = Line.quiet) (hp : Polling s) :
    AnswersOnce s (configurePoll s) where
  requests := (configurePoll_identityKept s).requests
  responses := by
    obtain ⟨hu, -, hresp⟩ | ⟨-, hu, -, -, bs, hresp⟩ | ⟨hu, hresp⟩ := configurePoll_outcome hw hl hp
    · rw [inFlight_of_running hu, hresp]
    · rw [inFlight_of_idle hu, hresp, List.length_append]
      rfl
    · rw [inFlight_of_idle hu, hresp, List.length_append]
      rfl

/-- Every operation answers once, `configure` where it ends. -/
theorem exec_answersOnce {i : Instr} (hw : s.params.wf = true) (hl : s.line = Line.quiet) (hi : i.isOperation = true)
    (h : exec i s = .next t) : AnswersOnce s t := by
  cases i with
  | reset =>
    cases h
    exact (resetPeer_writes (begin .reset s)).answersOnce
  | configure =>
    cases h
    have hhead := atPoll_undisturbed s
    have hturn := configurePoll_answersOnce (hhead.params ▸ hw) (hhead.line hl) (atPoll_polling s)
    exact ⟨hturn.requests.trans (head_moved s).requests, hhead.responses ▸ hturn.responses⟩
  | setIdentity ident =>
    cases h
    exact (wburst_moved _ _ (begin .setIdentity s)).answersOnce
  | getIdentity =>
    cases h
    exact (rburst_moved _ _ (begin .getIdentity s)).answersOnce
  | tune channel =>
    cases h
    exact (tune_moved channel s).answersOnce
  | rearm =>
    cases h
    exact (rearm_moved s).answersOnce
  | pollReady =>
    cases h
    exact finish_answersOnce rfl rfl
  | crcFailed =>
    cases h
    exact (rreg_moved _ (begin .crcFailed s)).answersOnce
  | readFrame =>
    cases h
    have hburst := frameBurst_moved s
    exact finish_answersOnce hburst.requests hburst.responses
  | seqLoad id =>
    cases h
    exact finish_answersOnce rfl rfl
  | seqChannel =>
    simp only [exec, execSeqChannel, Host.Outcome.next.injEq] at h
    subst h
    split_ifs
    · exact finish_answersOnce rfl rfl
    · exact finish_answersOnce rfl rfl
  | advance =>
    simp only [exec, execAdvance, Host.Outcome.next.injEq] at h
    subst h
    split_ifs
    · exact finish_answersOnce rfl rfl
    · exact finish_answersOnce rfl rfl
  | strobe | wreg | rreg | wburst | rburst4 | rburst21 => cases hi

/-- The caller has issued `n` commands or is to issue them: each has had its one response, runs, or waits in the queue
(spec/70_reset_and_hazards.md R260). -/
def Accounted (n : Nat) (s : State) : Prop :=
  ∃ ws : List CmdWord, s.io.requests = ws.map .command ∧ s.io.responses.length + inFlight s + ws.length = n

/-- The next command is taken from the queue and served. -/
theorem accounted_of_served {w : CmdWord} {ws : List CmdWord} (hu : s.upos = .idle)
    (hreq : s.io.requests = (w :: ws).map .command) (h : AnswersOnce (afterFetch s) t) :
    Accounted (s.io.responses.length + inFlight s + (w :: ws).length) t := by
  have hresp : t.io.responses.length + inFlight t = s.io.responses.length + 1 := h.responses
  refine ⟨ws, by rw [h.requests, afterFetch_requests, hreq, List.map_cons, List.tail_cons], ?_⟩
  rw [hresp, inFlight_of_idle hu, List.length_cons]
  omega

/-- Every step keeps the account, by what a step can be: no command is lost, and none is answered twice. -/
theorem Accounted.step {n : Nat} (hinv : Inv s) (hs : Accounted n s) (h : Machine.step s = .next t) :
    Accounted n t := by
  obtain ⟨ws, hreq, rfl⟩ := hs
  have hl : (afterFetch s).line = Line.quiet := hinv.line
  obtain ⟨hw, ⟨-, -, rfl⟩ | ⟨r, rs, i, hu, hr, hd, he⟩ | ⟨w, rs, e, hu, hr, -, rfl⟩ | ⟨bs, rs, a, n, -, hr, -⟩ |
    ⟨hp, rfl⟩⟩ := step_cases h
  · exact ⟨ws, hreq, rfl⟩
  · cases ws with
    | nil => cases hr.symm.trans hreq
    | cons w ws =>
      cases hr.symm.trans hreq
      exact accounted_of_served hu hreq (exec_answersOnce (s := afterFetch s) hw hl (decodeCommand_isOperation hd) he)
  · cases ws with
    | nil => cases hr.symm.trans hreq
    | cons w ws => exact accounted_of_served hu hreq (finish_answersOnce rfl rfl)
  · cases ws with
    | nil => cases hr.symm.trans hreq
    | cons w ws => cases hr.symm.trans hreq
  · have hturn := configurePoll_answersOnce hw hinv.line hp
    exact ⟨ws, hturn.requests.trans hreq, by rw [hturn.responses, inFlight_of_running hp]⟩

theorem poweredOn_accounted (p : ChipParams) (script : List PeerMove) (ws : List CmdWord) :
    Accounted ws.length (poweredOn p script ws) := ⟨ws, rfl, Nat.zero_add _⟩

/-- Nothing is left to account for where the block is idle and the queue empty. -/
theorem Accounted.answered {n : Nat} (h : Accounted n s) (hu : s.upos = .idle) (hreq : s.io.requests = []) :
    s.io.responses.length = n := by
  obtain ⟨ws, hws, hcount⟩ := h
  obtain rfl : ws = [] := List.map_eq_nil_iff.1 (hws.symm.trans hreq)
  rwa [inFlight_of_idle hu] at hcount

end

/-- Settles O13: the state after power-on meets the invariant and the account of commands, and every step keeps both. -/
theorem resetStateMeetsInvariant : Obligations.ResetStateMeetsInvariant := by
  refine ⟨poweredOn_inv fx_wf [] [], fun p ws t hw ⟨script, n, hrun, hu, hreq⟩ => ?_⟩
  have hstart : Inv (poweredOn p script ws) ∧ Accounted ws.length (poweredOn p script ws) :=
    ⟨poweredOn_inv hw script ws, poweredOn_accounted p script ws⟩
  obtain ⟨hinv, hcount⟩ := reaches_keeps
    (P := fun u => Inv u ∧ Accounted ws.length u)
    (fun s t ⟨hinv, hcount⟩ h => ⟨stepKeepsInvariant s t hinv h, hcount.step hinv h⟩) hstart hrun
  exact ⟨hinv, hu, hinv.line, hcount.answered hu hreq, fun ⟨_, _, hfaults⟩ => hfaults,
    fun hfaults => ⟨hu, hinv.line, hfaults⟩⟩

/-- Settles O12: `State.reset` holds the values R230 gives. -/
theorem resetStateAsStated : Obligations.ResetStateAsStated := ⟨rfl, rfl, rfl, rfl, rfl, rfl, rfl⟩

/-! ### The caller's wait (R260) -/

/-- With nothing to issue the machine does not stop: the step is one place of the peer. -/
theorem step_waits {s : State} (hw : s.params.wf = true) (hu : s.upos = .idle) (hreq : s.io.requests = []) :
    step s = .next (peerTurn s) := by
  simp [step, hw, hu, idleStep, nextRequest, hreq]

/-- `CalDone` where it is enabled (spec/20_memory.md R82). -/
theorem Peer.calDone_of_calibrating {x : Peer} (h : x.mode = .calibrating) (d : Bool) :
    x.calDone d = { x with mode := .standby, ready := d } := if_pos h

theorem Peer.calDone_of_not_calibrating {x : Peer} (h : x.mode ≠ .calibrating) (d : Bool) : x.calDone d = x := if_neg h

/-- `FrameArrive` where it is enabled (R84, R85). -/
theorem Peer.frameArrive_of_receiving {x : Peer} (h : x.mode = .receiving) (f : Vector Byte 21) (c : Bool) :
    x.frameArrive f c = { x with
      mode := .filled, fifo := f.toList ++ x.fifo.drop 21, filledLen := 21, crcf := c, ready := true } := if_pos h

theorem Peer.frameArrive_of_not_receiving {x : Peer} (h : x.mode ≠ .receiving) (f : Vector Byte 21) (c : Bool) :
    x.frameArrive f c = x := if_neg h

/-- Settles O8: a wait is one place of the peer, and each of its steps is given by whether its mode enables it. -/
theorem waitingStepMovesOnlyPeer : Obligations.WaitingStepMovesOnlyPeer := by
  refine ⟨fun s hw hu hreq => step_waits hw hu hreq, fun s => ?_⟩
  have hmove : ∀ m, s.io.nextMove = m → (drift 1 s).peer = s.peer.move m (Config.freeReady .move s.io.tick) :=
    fun m hm => hm ▸ rfl
  refine ⟨rfl, hmove .stay, fun h => ?_, fun f c h => ?_⟩
  · rw [hmove _ h, Peer.move]
    exact ⟨fun hm => by rw [Peer.calDone_of_calibrating hm], fun hm => Peer.calDone_of_not_calibrating hm _⟩
  · rw [hmove _ h, Peer.move]
    exact ⟨fun hm => Peer.frameArrive_of_receiving hm f c, fun hm => Peer.frameArrive_of_not_receiving hm f c⟩

end Sys2Proof.Machine
